-- ==== Sys2Proof/Word.lean ====
section
/-! DEFINITION. The engine's value types (R9): unsigned bytes, halves and words. -/

namespace Sys2Proof

/-- `u8` of R9. -/
abbrev Byte := BitVec 8

/-- `u16` of R9. -/
abbrev Half := BitVec 16

/-- `u32` of R9. -/
abbrev Word := BitVec 32

end Sys2Proof
end

