-- ==== Sys2Proof/Syntax.lean ====
section
/-! DEFINITION. The instructions (one constructor per row of the opcode table) and the encoded words they arrive in. -/

namespace Sys2Proof

/-- A number of address bytes on the wire: the two legal widths (R7, "address widths"). -/
inductive AddrWidth
  | two
  | three
  deriving DecidableEq, Repr

/-- A wire address (R40, R42): 2^16 values under two address bytes, 2^24 under three. -/
inductive WireAddr
  | two (a : BitVec 16)
  | three (a : BitVec 24)
  deriving DecidableEq, Repr

/-- The rows of `spec/opcode_table.json`: eight wire frames (R80, R82), twelve host commands (R88) and
the four reserved host codes (R90). A wire constructor carries the operands its frame format lays out;
a host constructor carries the operand fields of R88. -/
inductive Instr
  /-- `WREN`, format F_CMD. -/
  | wireWren
  /-- `WRDI`, format F_CMD. -/
  | wireWrdi
  /-- `RDSR`, format F_SRR. -/
  | wireRdsr
  /-- `WRSR`, format F_SRW. -/
  | wireWrsr (value : Byte)
  /-- `READ`, format F_MRD: the address sent and the number of bytes clocked in. -/
  | wireRead (addr : WireAddr) (count : Word)
  /-- `WRITE`, format F_MWR: the address and the payload sent. -/
  | wireWrite (addr : WireAddr) (payload : List Byte)
  /-- `RDID`, format F_ID. -/
  | wireRdid
  /-- `SLEEP`, format F_CMD. -/
  | wireSleep
  /-- `initialize`, code 0x1. -/
  | hostInitialize
  /-- `writeEnable`, code 0x2. -/
  | hostWriteEnable (en : Bool)
  /-- `write8`, code 0x3. -/
  | hostWrite8 (addr : Word) (value : Byte)
  /-- `writeBlock`, code 0x4. -/
  | hostWriteBlock (addr : Word) (payload : List Byte)
  /-- `read8`, code 0x5. -/
  | hostRead8 (addr : Word)
  /-- `readBlock`, code 0x6. -/
  | hostReadBlock (addr : Word) (count : Word)
  /-- `getDeviceID`, code 0x7. -/
  | hostGetDeviceID
  /-- `getStatusRegister`, code 0x8. -/
  | hostGetStatusRegister
  /-- `setStatusRegister`, code 0x9. -/
  | hostSetStatusRegister (value : Byte)
  /-- `setAddressWidth`, code 0xA. -/
  | hostSetAddressWidth (width : Byte)
  /-- `sleep`, code 0xB. -/
  | hostSleep
  /-- `wake`, code 0xC. -/
  | hostWake
  /-- Reserved code 0x0. -/
  | reserved0
  /-- Reserved code 0xD. -/
  | reservedD
  /-- Reserved code 0xE. -/
  | reservedE
  /-- Reserved code 0xF. -/
  | reservedF
  deriving DecidableEq, Repr

/-- The host command word (R88): the code and every operand field. A field the command does not use is
ignored. The spec lays no field but `CMD[3:0]` out in bits (notes/assumptions/1.md). -/
structure HostWord where
  cmd : BitVec 4
  en : Bool := false
  addr : Word := 0
  data : Byte := 0
  payload : List Byte := []
  count : Word := 0
  width : Byte := 0
  deriving DecidableEq, Repr

/-- A frame on the wire (R82): the bytes sent, the number of bytes clocked in, and the address width the
frame is read with, since no byte of a frame encodes it (R86). -/
structure WireFrame where
  width : AddrWidth
  out : List Byte
  nIn : Nat
  deriving DecidableEq, Repr

/-- A word as it arrives: a command on the host port, or (the model's own form, notes/assumptions/2.md) a
frame handed to the sequencer. -/
inductive PortWord
  | command (h : HostWord)
  | frame (f : WireFrame)
  deriving DecidableEq, Repr

end Sys2Proof
end

