-- ==== Sys2Proof/Config.lean ====
section
/-! DEFINITION. The parameters a model takes as arguments (R7, R66), as plain data, and the free values. -/

namespace Sys2Proof

/-- A record of the Device Table (R7, R14). -/
structure DeviceDescriptor where
  manufacturerId : Byte
  productId : Half
  sizeBytes : Word
  supportsSleep : Bool
  deriving DecidableEq, Repr

/-- The device power states the model tracks (R30, R130). -/
inductive Power
  | active
  | asleep
  | unknown
  deriving DecidableEq, Repr

/-- The `DEV_*` parameters of the reference device (R66). `DEV_SIZE` is `lastCell + 1`, so it is at least 1.
The four maps are plain data: `addrPoints` lists where `DEV_ADDR_MAP` departs from its default, and the
three `…Points` lists give the OPEN maps where they are known; elsewhere each is an uninterpreted
function below (notes/assumptions/10.md, notes/assumptions/11.md). -/
structure DeviceParams where
  lastCell : Nat
  width : AddrWidth
  idBytes : List Byte
  addrPoints : List (BitVec 24 × Nat)
  srReadPoints : List ((Byte × Bool) × Byte)
  srWritePoints : List ((Byte × Byte) × Byte)
  writeAllowedPoints : List ((Byte × Nat) × Bool)
  wrsrNeedsWel : Bool
  mem0 : List (Nat × Byte)
  wel0 : Bool
  sr0 : Byte
  deriving DecidableEq, Repr

/-- The parameters of R7. `extWake` is `none` for the default predicate of R133, or the list of the
descriptors it holds of. `composed` says whether the reference device answers the exchanges (R3, R56). -/
structure Config where
  table : List DeviceDescriptor
  sharedBus : Bool
  fill : Byte
  extWake : Option (List DeviceDescriptor)
  initialPower : Power
  composed : Bool
  dev : DeviceParams
  deriving DecidableEq, Repr

/-- The lookup key of a descriptor (R7). -/
def DeviceDescriptor.key (d : DeviceDescriptor) : Byte × Half := (d.manufacturerId, d.productId)

/-- R8: the keys of the Device Table are unique. -/
abbrev Config.UniqueKeys (c : Config) : Prop := (c.table.map DeviceDescriptor.key).Nodup

/-- The byte a transport answers where nothing determines it (R56, U7, U8). A free value: no body. -/
opaque Config.freeByte : Nat → Byte

/-- `SR_READ` (R66) where its value is not listed. A free value: no body. -/
opaque Config.openSrRead : Byte → Bool → Byte

/-- `SR_WRITE` (R66) where its value is not listed. A free value: no body. -/
opaque Config.openSrWrite : Byte → Byte → Byte

/-- `WRITE_ALLOWED` (R66) where its value is not listed. A free value: no body. -/
opaque Config.openWriteAllowed : Byte → Nat → Bool

/-- `MIDX` of CFG for an index past 255, where R23's eight-bit field has no room and no stated value
(notes/assumptions/30.md). A free value: no body. -/
opaque Config.openMatchIndex : Nat → BitVec 8

/-- The configuration `State.reset` starts with: R7's and R66's defaults, and for the OPEN parameters the
values named in notes/assumptions/12.md. -/
def Config.standard : Config where
  table := []
  sharedBus := true
  fill := 0xFF
  extWake := none
  initialPower := .active
  composed := true
  dev :=
    { lastCell := 65535
      width := .two
      idBytes := []
      addrPoints := []
      srReadPoints := []
      srWritePoints := []
      writeAllowedPoints := []
      wrsrNeedsWel := true
      mem0 := []
      wel0 := false
      sr0 := 0 }

end Sys2Proof
end

