-- ==== Sys2Proof/WellFormed.lean ====
section
/-! DEFINITION. Which instructions are well formed. -/

namespace Sys2Proof

/-- A block length is at most 2^32 - 1 (R50, R88, R112); every other operand is legal at every value. -/
def Instr.wellFormed : Instr → Bool
  | .hostWriteBlock _ payload => decide (payload.length < 2 ^ 32)
  | .wireWrite _ payload => decide (payload.length < 2 ^ 32)
  | .wireWren | .wireWrdi | .wireRdsr | .wireWrsr _ | .wireRead _ _ | .wireRdid | .wireSleep => true
  | .hostInitialize | .hostWriteEnable _ | .hostWrite8 _ _ | .hostRead8 _ | .hostReadBlock _ _ => true
  | .hostGetDeviceID | .hostGetStatusRegister | .hostSetStatusRegister _ | .hostSetAddressWidth _ => true
  | .hostSleep | .hostWake | .reserved0 | .reservedD | .reservedE | .reservedF => true

end Sys2Proof
end

