-- ==== Sys2Proof/Decode.lean ====
section
/-! DEFINITION. The wire opcodes, the decoder of host command words and of wire frames, and after it the encoder. -/

namespace Sys2Proof

/-! ## The wire opcodes (R80) -/

/-- Write enable. -/
def opWREN : Byte := 0x06
/-- Write disable. -/
def opWRDI : Byte := 0x04
/-- Read status register. -/
def opRDSR : Byte := 0x05
/-- Write status register. -/
def opWRSR : Byte := 0x01
/-- Read memory. -/
def opREAD : Byte := 0x03
/-- Write memory. -/
def opWRITE : Byte := 0x02
/-- Read device ID. -/
def opRDID : Byte := 0x9F
/-- Enter sleep. -/
def opSLEEP : Byte := 0xB9

/-- The eight opcodes the engine emits (R80, R91). -/
def wireOpcodes : List Byte := [opWREN, opWRDI, opRDSR, opWRSR, opREAD, opWRITE, opRDID, opSLEEP]

/-! ## Address bytes -/

/-- The address bytes of a frame, most significant first (R46). -/
def WireAddr.bytes : WireAddr → List Byte
  | .two a => [a.extractLsb' 8 8, a.extractLsb' 0 8]
  | .three a => [a.extractLsb' 16 8, a.extractLsb' 8 8, a.extractLsb' 0 8]

/-- The number of bytes a wire address takes. -/
def WireAddr.width : WireAddr → AddrWidth
  | .two _ => .two
  | .three _ => .three

/-- Why a word is no instruction. -/
inductive DecodeError
  /-- A `PAYLOAD` longer than 2^32 - 1 bytes (R88). -/
  | payloadTooLong
  /-- A frame without an opcode byte (R81). -/
  | emptyFrame
  /-- A first byte outside the eight opcodes (R91). -/
  | unknownOpcode (op : Byte)
  /-- A frame whose byte counts are not those of its opcode's format (R82, R86). -/
  | wrongFrameLength (op : Byte)
  deriving DecidableEq, Repr

/-- Take the address off the front of a frame's bytes (R83, R86). -/
def splitAddr : AddrWidth → List Byte → Option (WireAddr × List Byte)
  | .two, b1 :: b0 :: rest => some (.two (b1 ++ b0), rest)
  | .three, b2 :: b1 :: b0 :: rest => some (.three (b2 ++ b1 ++ b0), rest)
  | _, _ => none

/-- The host command word (R88, R90): every code means something; unused fields are ignored. -/
def decodeCommand (h : HostWord) : Except DecodeError Instr :=
  match h.cmd.toNat with
  | 0x1 => .ok .hostInitialize
  | 0x2 => .ok (.hostWriteEnable h.en)
  | 0x3 => .ok (.hostWrite8 h.addr h.data)
  | 0x4 => if h.payload.length < 2 ^ 32 then .ok (.hostWriteBlock h.addr h.payload) else .error .payloadTooLong
  | 0x5 => .ok (.hostRead8 h.addr)
  | 0x6 => .ok (.hostReadBlock h.addr h.count)
  | 0x7 => .ok .hostGetDeviceID
  | 0x8 => .ok .hostGetStatusRegister
  | 0x9 => .ok (.hostSetStatusRegister h.data)
  | 0xA => .ok (.hostSetAddressWidth h.width)
  | 0xB => .ok .hostSleep
  | 0xC => .ok .hostWake
  | 0xD => .ok .reservedD
  | 0xE => .ok .reservedE
  | 0xF => .ok .reservedF
  | _ => .ok .reserved0

/-- A frame that is the opcode alone (F_CMD, F_SRR, F_ID of R82), with `nIn` bytes clocked in. -/
def shortFrame (f : WireFrame) (nIn : Nat) (op : Byte) (i : Instr) : Except DecodeError Instr :=
  if f.out.length = 1 ∧ f.nIn = nIn then .ok i else .error (.wrongFrameLength op)

/-- A wire frame (R81, R82, R86). -/
def decodeFrame (f : WireFrame) : Except DecodeError Instr :=
  match f.out with
  | [] => .error .emptyFrame
  | op :: rest =>
    if op = opWREN then shortFrame f 0 op .wireWren
    else if op = opWRDI then shortFrame f 0 op .wireWrdi
    else if op = opRDSR then shortFrame f 1 op .wireRdsr
    else if op = opRDID then shortFrame f 4 op .wireRdid
    else if op = opSLEEP then shortFrame f 0 op .wireSleep
    else if op = opWRSR then
      match rest with
      | [v] => if f.nIn = 0 then .ok (.wireWrsr v) else .error (.wrongFrameLength op)
      | _ => .error (.wrongFrameLength op)
    else if op = opREAD then
      match splitAddr f.width rest with
      | some (a, []) =>
        if f.nIn < 2 ^ 32 then .ok (.wireRead a (BitVec.ofNat 32 f.nIn)) else .error (.wrongFrameLength op)
      | _ => .error (.wrongFrameLength op)
    else if op = opWRITE then
      match splitAddr f.width rest with
      | some (a, payload) =>
        if f.nIn = 0 then
          if payload.length < 2 ^ 32 then .ok (.wireWrite a payload) else .error .payloadTooLong
        else .error (.wrongFrameLength op)
      | none => .error (.wrongFrameLength op)
    else .error (.unknownOpcode op)

/-- The decoder: total on every word, rejecting by name. -/
def decode : PortWord → Except DecodeError Instr
  | .command h => decodeCommand h
  | .frame f => decodeFrame f

/-! ## The encoder -/

/-- A frame without address bytes; its width is not looked at. -/
def plainFrame (out : List Byte) (nIn : Nat) : PortWord := .frame { width := .two, out := out, nIn := nIn }

/-- The word of an instruction, from the tables of R82 and R88; unused fields are zero. -/
def encode : Instr → PortWord
  | .wireWren => plainFrame [opWREN] 0
  | .wireWrdi => plainFrame [opWRDI] 0
  | .wireRdsr => plainFrame [opRDSR] 1
  | .wireWrsr v => plainFrame [opWRSR, v] 0
  | .wireRead a n => .frame { width := a.width, out := opREAD :: a.bytes, nIn := n.toNat }
  | .wireWrite a p => .frame { width := a.width, out := opWRITE :: (a.bytes ++ p), nIn := 0 }
  | .wireRdid => plainFrame [opRDID] 4
  | .wireSleep => plainFrame [opSLEEP] 0
  | .hostInitialize => .command { cmd := 0x1 }
  | .hostWriteEnable en => .command { cmd := 0x2, en := en }
  | .hostWrite8 a v => .command { cmd := 0x3, addr := a, data := v }
  | .hostWriteBlock a p => .command { cmd := 0x4, addr := a, payload := p }
  | .hostRead8 a => .command { cmd := 0x5, addr := a }
  | .hostReadBlock a n => .command { cmd := 0x6, addr := a, count := n }
  | .hostGetDeviceID => .command { cmd := 0x7 }
  | .hostGetStatusRegister => .command { cmd := 0x8 }
  | .hostSetStatusRegister v => .command { cmd := 0x9, data := v }
  | .hostSetAddressWidth w => .command { cmd := 0xA, width := w }
  | .hostSleep => .command { cmd := 0xB }
  | .hostWake => .command { cmd := 0xC }
  | .reserved0 => .command { cmd := 0x0 }
  | .reservedD => .command { cmd := 0xD }
  | .reservedE => .command { cmd := 0xE }
  | .reservedF => .command { cmd := 0xF }

/-! ## Words numbered as the opcode table numbers them -/

/-- The word of the opcode table's first byte, every operand zero. The table's wire bytes 0x01 to 0x06 and the
host codes 0x1 to 0x6 are the same numbers; such a byte is read as the host code, since the host port is
where the engine takes its instructions (R87), and only a byte above 0x0F is looked up as an opcode
(notes/assumptions/20.md). -/
def tableWord (nbits w : Nat) : PortWord :=
  let byte : Byte := BitVec.ofNat 8 (w % 2 ^ nbits)
  if byte = opRDID then plainFrame [opRDID] 4
  else if byte = opSLEEP then plainFrame [opSLEEP] 0
  else .command { cmd := byte.setWidth 4 }

/-- The instruction the decoder reads from the opcode table's word. -/
def decodeTableWord (nbits w : Nat) : Option Instr := (decode (tableWord nbits w)).toOption

end Sys2Proof
end

