-- ==== Sys2Proof/Machine/State.lean ====
section
/-! DEFINITION. The state of the engine, the transport and the attached device, as plain data; the reasons a step can stop; reset. -/

namespace Sys2Proof.Machine

/-- The model-only faults (R143). -/
inductive Fault
  /-- `F_ASLEEP_ACCESS`: raised by `awakeCheck` (R130) and by the device's exchange in phase `WakeSel` (R74),
  when the device may be asleep. Safe: the real behaviour is undefined (U1, U2). -/
  | asleepAccess
  /-- `F_DEVICE_UNDEFINED`: raised by the device's exchange in phase `Opc` on a byte outside the eight opcodes
  (R68). Safe: the source gives the byte no meaning (U10). -/
  | deviceUndefined
  deriving DecidableEq, Repr

/-- Where the model has no move (R145). -/
inductive Refusal
  /-- Raised by `exec` for an instruction without a meaning; no arm does. Safe. -/
  | notModelled (mnemonic : String)
  /-- Raised by `runCommand`: a command presented while SEQ is Busy (R87, R145). Safe: a host duty. -/
  | commandWhileBusy
  /-- Raised by `step`, by `runCommand` and `runFrame`, and by `readResult`, before anything else is looked at: TABLE has two
  entries with one key (R8). Safe: the spec refuses the configuration. -/
  | duplicateKeys
  /-- Raised by `step`: the word presented is no instruction (R82, R88, R91). Safe: the host presents none such. -/
  | undecodable (e : DecodeError)
  /-- Raised by `readResult`: RESULT read before the first command returned (R27, R145). Safe: a host duty. -/
  | resultNotReady
  deriving DecidableEq, Repr

/-- The result codes (R89). -/
inductive ResultCode
  | ok
  | busUnavailable
  | unsupportedDevice
  | notSupported
  | transferFailed
  | invalidWidth
  | illegalCommand
  deriving DecidableEq, Repr

/-- The data of a result (R27, R88). -/
inductive ResultData
  | none
  | byte (b : Byte)
  | bytes (bs : List Byte)
  | deviceId (manufacturerId : Byte) (productId : Half)
  deriving DecidableEq, Repr

/-- The result port's pair (R27). -/
structure Result where
  code : ResultCode
  data : ResultData
  deriving DecidableEq, Repr

/-- The sequencer state (R24): `k` is the number of transport events the command has issued. -/
inductive Seq
  | idle
  | busy (cmd : Instr) (k : Nat)
  deriving DecidableEq, Repr

/-- The trace alphabet (R55). -/
inductive Event
  | tbegin (ok : Bool)
  | claim
  | release
  | select
  | deselect
  | xfer (out inp : Byte)
  | xferFail (out : Byte)
  | delay (us : Word)
  deriving DecidableEq, Repr

/-- The opcodes whose frame carries an address (R66, phase `Addr`). -/
inductive MemOp
  | read
  | write
  deriving DecidableEq, Repr

/-- The opcodes whose frame is the opcode alone (R66, phase `Done`). -/
inductive CmdOp
  | wren
  | wrdi
  | sleep
  deriving DecidableEq, Repr

/-- The device's phase DPH (R66). -/
inductive Phase
  | idle
  | opc
  | addr (op : MemOp) (acc : BitVec 24) (n : Nat)
  | dataOut (cell : Nat)
  | dataIn (cell : Nat)
  | srOut
  | srIn
  | srDone (value : Byte)
  | idOut (k : Nat)
  | done (op : CmdOp)
  | wakeSel
  | undef
  deriving DecidableEq, Repr

/-- The device array: (cell, byte) pairs in canonical form (`Memory.wf`). -/
abbrev Memory := List Host.Cell

/-- The attached device (R66). Its power state GP is shared with the engine's ghost register, in `Bus`. -/
structure Device where
  mem : Memory
  wel : Bool
  sr : Byte
  dph : Phase
  dwr : Bool
  deriving DecidableEq, Repr

/-- The transport's answer to one exchange (R56). `took` says whether the device took the byte of an exchange
that failed or never answered (R68, D38; notes/assumptions/7.md). -/
inductive XferAnswer
  | byte (inp : Byte)
  | fail (took : Bool)
  | hang (took : Bool)
  deriving DecidableEq, Repr

/-- The transport's coming answers (R56), the model's own field (notes/assumptions/5.md): to `TBegin` (true or
false), to `Claim` (true: returns; false: never returns) and to `Xfer`. Past the end of a list the operation
completes, and an exchange's byte is the free value `Config.freeByte drawn`. -/
structure Answers where
  begins : List Bool
  claims : List Bool
  xfers : List XferAnswer
  drawn : Nat
  deriving DecidableEq, Repr

/-- What the transport port drives and meets: CS (R25), CLAIM (R26), TRACE (R32), FAULTS (R31), GP (R30), the
attached device and the coming answers. -/
structure Bus where
  cs : Bool
  claim : Bool
  trace : List Event
  faults : List Fault
  gp : Power
  dev : Device
  answers : Answers
  deriving DecidableEq, Repr

/-- What stands on the host's side of the port: a word to be presented, or an engine reset (R170). -/
inductive PortItem
  | word (w : PortWord)
  | reset
  deriving DecidableEq, Repr

/-- The machine: the parameters (R7, R28), AW (R21), MATCH (R22), SEQ (R24), RESULT (R27), the bus side, and
the words the host will present (the model's own field, notes/assumptions/3.md). -/
structure State where
  cfg : Config
  aw : BitVec 2
  matched : Option Nat
  seq : Seq
  result : Option Result
  bus : Bus
  port : List PortItem
  deriving DecidableEq, Repr

/-- The machine at launch under a configuration (10_state.md's reset table, R66): the engine's reset values, the
device's launch parameters, and a transport and a host of whom nothing is known. -/
def State.launch (c : Config) : State where
  cfg := c
  aw := 0
  matched := none
  seq := .idle
  result := none
  bus :=
    { cs := false
      claim := false
      trace := []
      faults := []
      gp := c.initialPower
      dev := { mem := c.dev.mem0, wel := c.dev.wel0, sr := c.dev.sr0, dph := .idle, dwr := false }
      answers := { begins := [], claims := [], xfers := [], drawn := 0 } }
  port := []

/-- The machine right after reset: launch under the standard configuration (notes/assumptions/12.md). -/
def State.reset : State := State.launch Config.standard

end Sys2Proof.Machine
end

