-- ==== Sys2Proof/Machine/Device.lean ====
section
/-! DEFINITION. The device array and the reference device's transitions (R66 to R76). -/

namespace Sys2Proof.Machine

/-! ## The device array -/

/-- What an unlisted cell reads as (notes/assumptions/13.md). -/
def Memory.unlisted : Byte := 0

/-- One byte of the array. -/
def Memory.read : Memory → Nat → Byte
  | [], _ => Memory.unlisted
  | (k, v) :: rest, a => if k = a then v else Memory.read rest a

/-- Write one byte, keeping the canonical form. -/
def Memory.write : Memory → Nat → Byte → Memory
  | [], a, v => if v = Memory.unlisted then [] else [(a, v)]
  | (k, w) :: rest, a, v =>
    if a < k then (if v = Memory.unlisted then (k, w) :: rest else (a, v) :: (k, w) :: rest)
    else if a = k then (if v = Memory.unlisted then rest else (a, v) :: rest)
    else (k, w) :: Memory.write rest a v

/-- The canonical form: cells strictly rising, and no entry equal to what an unlisted cell reads as. -/
abbrev Memory.wf (m : Memory) : Prop :=
  m.Pairwise (fun x y => x.1 < y.1) ∧ ∀ x ∈ m, x.2 ≠ Memory.unlisted

/-- `MemRead(a, 1)` (R12). -/
def Device.memRead (d : Device) (a : Nat) : Byte := d.mem.read a

/-- `MemWrite(a, 1, v)` (R12). -/
def Device.memWrite (d : Device) (a : Nat) (v : Byte) : Device := { d with mem := d.mem.write a v }

/-! ## The device's parameters (R66) -/

/-- `DEV_SIZE`. -/
def devSize (c : Config) : Nat := c.dev.lastCell + 1

/-- A number of address bytes, as a number. -/
def widthBytes : AddrWidth → Nat
  | .two => 2
  | .three => 3

/-- `DEV_AW`. -/
def devWidth (c : Config) : Nat := widthBytes c.dev.width

/-- `DEV_ADDR_MAP`: default `a mod DEV_SIZE` (D25), elsewhere as listed; always a cell below `DEV_SIZE`. -/
def devCell (c : Config) (a : BitVec 24) : Nat := ((c.dev.addrPoints.lookup a).getD a.toNat) % devSize c

/-- The cell after a cell (R70, R71, D26). -/
def nextCell (c : Config) (a : Nat) : Nat := (a + 1) % devSize c

/-- `SR_READ(SR, WEL)`. -/
def srRead (c : Config) (sr : Byte) (wel : Bool) : Byte :=
  (c.dev.srReadPoints.lookup (sr, wel)).getD (Config.openSrRead sr wel)

/-- `SR_WRITE(SR, v)`. -/
def srWrite (c : Config) (sr v : Byte) : Byte :=
  (c.dev.srWritePoints.lookup (sr, v)).getD (Config.openSrWrite sr v)

/-- `WRITE_ALLOWED(SR, a)`. -/
def writeAllowed (c : Config) (sr : Byte) (a : Nat) : Bool :=
  (c.dev.writeAllowedPoints.lookup (sr, a)).getD (Config.openWriteAllowed sr a)

/-! ## The transitions -/

/-- On SELECT (R67). -/
def devSelect (gp : Power) (d : Device) : Device :=
  if gp = .active then { d with dph := .opc, dwr := false } else { d with dph := .wakeSel }

/-- The opcode phase (R68). -/
def devOpcode (c : Config) (d : Device) (out : Byte) : Device :=
  if out = opREAD then { d with dph := .addr .read 0 0 }
  else if out = opWRITE then { d with dph := .addr .write 0 0, dwr := d.wel }
  else if out = opWREN then { d with dph := .done .wren }
  else if out = opWRDI then { d with dph := .done .wrdi }
  else if out = opRDSR then { d with dph := .srOut }
  else if out = opWRSR then { d with dph := .srIn, dwr := d.wel || !c.dev.wrsrNeedsWel }
  else if out = opRDID then { d with dph := .idOut 0 }
  else if out = opSLEEP then { d with dph := .done .sleep }
  else { d with dph := .undef }

/-- The address phase (R69). -/
def devAddress (c : Config) (d : Device) (op : MemOp) (acc : BitVec 24) (n : Nat) (out : Byte) : Device :=
  let acc' := (acc <<< 8) ||| out.setWidth 24
  if n + 1 = devWidth c then
    match op with
    | .read => { d with dph := .dataOut (devCell c acc') }
    | .write => { d with dph := .dataIn (devCell c acc') }
  else { d with dph := .addr op acc' (n + 1) }

/-- The write data phase (R71). -/
def devStore (c : Config) (d : Device) (a : Nat) (out : Byte) : Device :=
  let d' := if d.dwr && writeAllowed c d.sr a then d.memWrite a out else d
  { d' with dph := .dataIn (nextCell c a) }

/-- The device after the exchange of one byte (R68 to R74). Without the reference device nothing changes. -/
def devNext (c : Config) (d : Device) (out : Byte) : Device :=
  if c.composed then
    match d.dph with
    | .opc => devOpcode c d out
    | .addr op acc n => devAddress c d op acc n out
    | .dataOut a => { d with dph := .dataOut (nextCell c a) }
    | .dataIn a => devStore c d a out
    | .srIn => { d with dph := .srDone out }
    | .idOut k => { d with dph := .idOut (k + 1) }
    | .idle | .srOut | .srDone _ | .done _ | .wakeSel | .undef => d
  else d

/-- The byte the device drives during an exchange (R70, R72, R73); none where the byte is a draw. -/
def devMiso (c : Config) (d : Device) : Option Byte :=
  if c.composed then
    match d.dph with
    | .dataOut a => some (d.memRead a)
    | .srOut => some (srRead c d.sr d.wel)
    | .idOut k => c.dev.idBytes[k]?
    | .idle | .opc | .addr _ _ _ | .dataIn _ | .srIn | .srDone _ | .done _ | .wakeSel | .undef => none
  else none

/-- The fault an exchange raises (R68, R74). An exchange with a device that may be asleep is a fault whether or
not the reference device is composed (notes/assumptions/23.md). -/
def devFault (c : Config) (d : Device) (out : Byte) : Option Fault :=
  match d.dph with
  | .wakeSel => some .asleepAccess
  | .opc => if c.composed && !wireOpcodes.contains out then some .deviceUndefined else none
  | .idle | .addr _ _ _ | .dataOut _ | .dataIn _ | .srOut | .srIn | .srDone _ | .idOut _ | .done _ | .undef => none

/-- On DESELECT, the effect of the completed transaction on latch and status register (R75). -/
def devComplete (c : Config) (d : Device) : Device :=
  match d.dph with
  | .done .wren => { d with wel := true }
  | .done .wrdi => { d with wel := false }
  | .srDone v =>
    if d.dwr then { d with sr := srWrite c d.sr v, wel := d.wel && !c.dev.wrsrNeedsWel } else d
  | .addr .write _ _ | .dataIn _ => if d.dwr then { d with wel := false } else d
  | .done .sleep | .srIn | .opc | .addr .read _ _ | .dataOut _ | .srOut | .idOut _ | .wakeSel | .undef | .idle => d

/-- On DESELECT (R75): complete, then back to `Idle`. -/
def devDeselect (c : Config) (d : Device) : Device :=
  { devComplete c d with dph := .idle, dwr := false }

/-- GP on DESELECT (R75): the SLEEP frame puts the device to sleep. -/
def devDeselectPower (d : Device) (gp : Power) : Power := if d.dph = .done .sleep then .asleep else gp

end Sys2Proof.Machine
end

