-- ==== Sys2Proof/Machine/Flags.lean ====
section
/-! DEFINITION. The engine has no condition flags (R6, D31): its only status is the result code (R89) and the CFG view (R23). -/

namespace Sys2Proof.Machine

/-- The number of a result code (R89). -/
def ResultCode.number : ResultCode → Nat
  | .ok => 0
  | .busUnavailable => 1
  | .unsupportedDevice => 2
  | .notSupported => 3
  | .transferFailed => 4
  | .invalidWidth => 5
  | .illegalCommand => 6

/-- `MV` of CFG (R23). -/
def matchBit (m : Option Nat) : BitVec 1 := if m.isSome then 1 else 0

/-- `MIDX` of CFG (R23): the index, or 0 without a match. DESIGN CHOICE (notes/assumptions/30.md): R23 needs N ≤ 256
and states no value for an index past 255, so there it is a free value. -/
def matchIndex (m : Option Nat) : BitVec 8 :=
  match m with
  | none => 0
  | some i => if i < 256 then BitVec.ofNat 8 i else Config.openMatchIndex i

/-- CFG (R23): `MIDX` in bits 15:8, reserved zeros in 7:3, `MV` in bit 2, `AWC` in bits 1:0. -/
def State.cfgWord (s : State) : BitVec 16 :=
  matchIndex s.matched ++ (0 : BitVec 5) ++ matchBit s.matched ++ s.aw

end Sys2Proof.Machine
end

