-- ==== Sys2Proof/Machine/Ops.lean ====
section
/-! DEFINITION. The transport primitives (R12, R54 to R56), the bracket `Txn` (R57), the commands' frame (accept, return, fault, hang) and engine reset. -/

namespace Sys2Proof.Machine

/-! ## Transport events -/

/-- Append an event to TRACE (R32). -/
def Bus.emit (b : Bus) (e : Event) : Bus := { b with trace := b.trace ++ [e] }

/-- Record a fault in the set FAULTS (R31). -/
def Bus.raise (b : Bus) (f : Fault) : Bus :=
  { b with faults := if f ∈ b.faults then b.faults else b.faults ++ [f] }

/-- How a piece of a command ends: with a value, or with the engine taking no further step of it (a hang, R144, or a
fault, R143). -/
inductive Flow (α : Type)
  | done (a : α) (b : Bus)
  | halt (b : Bus)
  deriving DecidableEq, Repr

/-- Go on with what follows, unless the engine stopped. -/
def Flow.andThen {α β : Type} (x : Flow α) (k : α → Bus → Flow β) : Flow β :=
  match x with
  | .done a b => k a b
  | .halt b => .halt b

/-- `TBegin()`'s next answer (R56). -/
def Answers.beginHead (a : Answers) : Bool := a.begins.headD true

/-- Whether the next `Claim()` returns (R56). -/
def Answers.claimHead (a : Answers) : Bool := a.claims.headD true

/-- The answer to the next exchange (R56). -/
def Answers.xferHead (a : Answers) : XferAnswer := a.xfers.headD (.byte (Config.freeByte a.drawn))

/-- The answers after a `TBegin()`. -/
def Answers.beginRest (a : Answers) : Answers := { a with begins := a.begins.tail }

/-- The answers after a `Claim()`. -/
def Answers.claimRest (a : Answers) : Answers := { a with claims := a.claims.tail }

/-- The answers after an exchange; the counter moves when the free value was used. -/
def Answers.xferRest (a : Answers) : Answers :=
  { a with xfers := a.xfers.tail, drawn := if a.xfers.isEmpty then a.drawn + 1 else a.drawn }

/-- `TBegin()` (R56). -/
def Bus.tbegin (b : Bus) : Bool × Bus :=
  (b.answers.beginHead, { b.emit (.tbegin b.answers.beginHead) with answers := b.answers.beginRest })

/-- `Claim()` (R12, R56), issued only on a shared bus; it may never return, and then no event is issued. -/
def Bus.doClaim (c : Config) (b : Bus) : Flow Unit :=
  if c.sharedBus then
    if b.answers.claimHead then .done () { b.emit .claim with claim := true, answers := b.answers.claimRest }
    else .halt { b with answers := b.answers.claimRest }
  else .done () b

/-- `Release()` (R12), issued only on a shared bus. -/
def Bus.doRelease (c : Config) (b : Bus) : Bus :=
  if c.sharedBus then { b.emit .release with claim := false } else b

/-- `Select()` (R55, R67). -/
def Bus.doSelect (b : Bus) : Bus := { b.emit .select with cs := true, dev := devSelect b.gp b.dev }

/-- `Deselect()` (R55, R75). -/
def Bus.doDeselect (c : Config) (b : Bus) : Bus :=
  { b.emit .deselect with cs := false, dev := devDeselect c b.dev, gp := devDeselectPower b.dev b.gp }

/-- `Delay(n)` (R150): an event and nothing else. -/
def Bus.doDelay (n : Word) (b : Bus) : Bus := b.emit (.delay n)

/-- The device takes one byte (R68 to R74), recording the fault that raises. -/
def Bus.devTake (c : Config) (out : Byte) (b : Bus) : Bus :=
  let b' := { b with dev := devNext c b.dev out }
  match devFault c b.dev out with
  | some f => b'.raise f
  | none => b'

/-- The fault stops the engine (R143); without one the engine goes on. -/
def Bus.unlessFaulted {α : Type} (b : Bus) (a : α) : Flow α :=
  if b.faults = [] then .done a b else .halt b

/-- The device takes the byte or not, as the answer says (D38). -/
def Bus.devMayTake (c : Config) (took : Bool) (out : Byte) (b : Bus) : Bus := if took then b.devTake c out else b

/-- `Xfer(out)` (R12, R56, R60): the byte received, or none for FAIL. A hang issues no event. -/
def Bus.doXfer (c : Config) (out : Byte) (b : Bus) : Flow (Option Byte) :=
  let b' := { b with answers := b.answers.xferRest }
  match b.answers.xferHead with
  | .byte draw =>
    let inp := (devMiso c b.dev).getD draw
    ((b'.devTake c out).emit (.xfer out inp)).unlessFaulted (some inp)
  | .fail took => ((b'.devMayTake c took out).emit (.xferFail out)).unlessFaulted none
  | .hang took => .halt (b'.devMayTake c took out)

/-! ## The bracket (R57) -/

/-- Claim and select. -/
def Bus.openTxn (c : Config) (b : Bus) : Flow Unit :=
  (b.doClaim c).andThen fun _ b1 => .done () b1.doSelect

/-- Deselect and release, on every exit that returns (R58). -/
def Bus.closeTxn (c : Config) (b : Bus) : Bus := (b.doDeselect c).doRelease c

/-- Send the bytes of a frame, discarding what is received (R60); false at the first failing exchange. -/
def Bus.sendAll (c : Config) : List Byte → Bus → Flow Bool
  | [], b => .done true b
  | out :: rest, b =>
    (b.doXfer c out).andThen fun r b1 =>
      match r with
      | none => .done false b1
      | some _ => Bus.sendAll c rest b1

/-- Clock `n` bytes in, sending FILL (R60); none at the first failing exchange. -/
def Bus.recvAll (c : Config) : Nat → Bus → Flow (Option (List Byte))
  | 0, b => .done (some []) b
  | n + 1, b =>
    (b.doXfer c c.fill).andThen fun r b1 =>
      match r with
      | none => .done none b1
      | some v => (Bus.recvAll c n b1).andThen fun vs b2 => .done (vs.map (v :: ·)) b2

/-- The exchanges of one transaction: the bytes out, then the bytes in. -/
def Bus.exchangeAll (c : Config) (out : List Byte) (nIn : Nat) (b : Bus) : Flow (Option (List Byte)) :=
  (b.sendAll c out).andThen fun sent b1 => if sent then b1.recvAll c nIn else .done none b1

/-- `Txn(out, nIn)` (R57): the bytes received, or none for `Err(TransferFailed)`. -/
def Bus.txn (c : Config) (out : List Byte) (nIn : Nat) (b : Bus) : Flow (Option (List Byte)) :=
  (b.openTxn c).andThen fun _ b1 =>
    (b1.exchangeAll c out nIn).andThen fun r b2 => .done r (b2.closeTxn c)

/-! ## Commands -/

/-- How a command's rule ends (R13): it returns, or the engine takes no further step. -/
inductive Ended
  | returned (s : State) (code : ResultCode) (data : ResultData)
  | halted (s : State)
  deriving DecidableEq, Repr

/-- `fault F` (R11, R143). -/
def State.raise (s : State) (f : Fault) : State := { s with bus := s.bus.raise f }

/-- `AwakeCheck` (R130): the fault where the device may be asleep. -/
def State.awakeCheck (s : State) (k : State → Ended) : Ended :=
  if s.bus.gp = .active then k s else .halted (s.raise .asleepAccess)

/-- `MemGate` (R110). -/
def State.memGate (s : State) (k : State → Ended) : Ended :=
  if s.aw = 0 then .returned s .unsupportedDevice .none else s.awakeCheck k

/-- One transaction of a command, with what follows an answer and what follows a failure. -/
def State.transactOr (s : State) (out : List Byte) (nIn : Nat) (onFail : State → Ended)
    (k : State → List Byte → Ended) : Ended :=
  match s.bus.txn s.cfg out nIn with
  | .halt b => .halted { s with bus := b }
  | .done none b => onFail { s with bus := b }
  | .done (some r) b => k { s with bus := b } r

/-- One transaction; a failure returns `TransferFailed` (R140). -/
def State.transact (s : State) (out : List Byte) (nIn : Nat) (k : State → List Byte → Ended) : Ended :=
  s.transactOr out nIn (fun t => .returned t .transferFailed .none) k

/-- The events a command issued between two bus states (R24). -/
def eventsSince (before after : Bus) : Nat := after.trace.length - before.trace.length

/-- `return (code, data)` (R11): the result on the port and SEQ Idle. -/
def State.ret (s : State) (code : ResultCode) (data : ResultData) : State :=
  { s with result := some { code := code, data := data }, seq := .idle }

/-- Where the machine takes no command: a TABLE with duplicate keys has no meaning at all (R8, R145), a fault is final
(R143, U24), a command while Busy has no move (R87, R145). -/
def State.barred (s : State) : Option (Host.Outcome State Fault Refusal) :=
  if s.cfg.UniqueKeys then
    match s.bus.faults with
    | f :: _ => some (.fault f)
    | [] => if s.seq = .idle then none else some (.refused .commandWhileBusy)
  else some (.refused .duplicateKeys)

/-- The end of a command that was taken in `s` (R87, R24): on `return` RESULT is written and SEQ is Idle; on a hang or a
fault SEQ stays Busy with the events issued so far. -/
def commandEnd (i : Instr) (s : State) : Ended → Host.Outcome State Fault Refusal
  | .returned t code data => .next (t.ret code data)
  | .halted t => .next { t with seq := .busy i (eventsSince s.bus t.bus) }

/-- Accept a command, run its rule, and end it (R87). -/
def runCommand (i : Instr) (s : State) (rule : State → Ended) : Host.Outcome State Fault Refusal :=
  match s.barred with
  | some o => o
  | none => commandEnd i s (rule { s with seq := .busy i 0 })

/-- The end of a raw frame that was taken in `s`. -/
def rawFrameEnd (i : Instr) (s : State) : Flow (Option (List Byte)) → Host.Outcome State Fault Refusal
  | .done _ b => .next { s with bus := b }
  | .halt b => .next { s with bus := b, seq := .busy i (eventsSince s.bus b) }

/-- Run one frame by itself (notes/assumptions/2.md): the bracket of R57 with the frame's bytes. No host command returns,
so RESULT is not written; what was received stands in TRACE. -/
def runFrame (i : Instr) (s : State) (out : List Byte) (nIn : Nat) : Host.Outcome State Fault Refusal :=
  match s.barred with
  | some o => o
  | none => rawFrameEnd i s (s.bus.txn s.cfg out nIn)

/-! ## Engine reset and the host's read -/

/-- Engine reset (R170, R171): the engine's registers, and nothing of the bus, the device, GP, FAULTS or TRACE. -/
def State.engineReset (s : State) : State :=
  { s with
    aw := 0
    matched := none
    seq := .idle
    result := none
    bus := { s.bus with cs := false, claim := false } }

/-- The host reads RESULT (R27, R87); before the first return it has no move (R145), and under a TABLE with duplicate
keys it has no meaning (R8). -/
def State.readResult (s : State) : Except Refusal Result :=
  if s.cfg.UniqueKeys then
    match s.result with
    | some r => .ok r
    | none => .error .resultNotReady
  else .error .duplicateKeys

/-- The table entry MATCH points at (R22, R28). -/
def State.matchedDescriptor (s : State) : Option DeviceDescriptor := s.matched.bind (s.cfg.table[·]?)

end Sys2Proof.Machine
end

