-- ==== Sys2Proof/Machine/Operands.lean ====
section
/-! DEFINITION. The operand forms: the truncated address (R42, R83), the memory frames (R82, R84), the ID decoder (R85), lookup and width (R100, R101, R133). -/

namespace Sys2Proof.Machine

/-- The wire address of a caller address (R42): its low 24 bits when AW = 3, its low 16 bits otherwise. -/
def wireAddr (addr : Word) (aw : BitVec 2) : WireAddr :=
  if aw = 3 then .three (addr.setWidth 24) else .two (addr.setWidth 16)

/-- `AddrBytes(addr, w)` (R83). -/
def addrBytes (addr : Word) (aw : BitVec 2) : List Byte := (wireAddr addr aw).bytes

/-- `encodeFrame(opcode, address)` (R84). -/
def encodeFrame (op : Byte) (addr : Word) (aw : BitVec 2) : List Byte := op :: addrBytes addr aw

/-- `DecodeID` (R85) of the four bytes received. -/
def decodeID (a0 a1 a2 a3 : Byte) : Byte × Half :=
  if a1 = 0x7F then (a0, a2 ++ a3) else (a0, a1 ++ a2)

/-- `DecodeID` of a response; the engine reads exactly four bytes (R45), and a byte that is not there counts as 0. -/
def decodeIDBytes (r : List Byte) : Byte × Half :=
  decodeID (r.getD 0 0) (r.getD 1 0) (r.getD 2 0) (r.getD 3 0)

/-- The scan of `Lookup` (R100), counting from index `i`. -/
def lookupFrom (m : Byte) (p : Half) : Nat → List DeviceDescriptor → Option Nat
  | _, [] => none
  | i, d :: rest => if d.manufacturerId = m ∧ d.productId = p then some i else lookupFrom m p (i + 1) rest

/-- `Lookup(m, p)` (R100). -/
def lookup (c : Config) (m : Byte) (p : Half) : Option Nat := lookupFrom m p 0 c.table

/-- `WidthFor(size)` (R101), as AW holds it. -/
def widthFor (size : Word) : BitVec 2 := if size.toNat ≤ 65536 then 2 else 3

/-- `EXT_WAKE(d)` (R133). -/
def extWake (c : Config) (d : DeviceDescriptor) : Bool :=
  match c.extWake with
  | none => d.manufacturerId == 0x04 && d.productId.extractLsb' 0 8 == 0x0B
  | some ds => ds.contains d

end Sys2Proof.Machine
end

