-- ==== Sys2Proof/Machine/Control.lean ====
section
/-! DEFINITION. Write-enable and status-register commands (R120 to R122). -/

namespace Sys2Proof.Machine

/-- `writeEnable` (R120). -/
def execWriteEnable (en : Bool) (s : State) : Host.Outcome State Fault Refusal :=
  runCommand (.hostWriteEnable en) s fun s0 =>
    s0.awakeCheck fun s1 =>
      s1.transact [if en then opWREN else opWRDI] 0 fun s2 _ => .returned s2 .ok .none

/-- `getStatusRegister` (R121). -/
def execGetStatusRegister (s : State) : Host.Outcome State Fault Refusal :=
  runCommand .hostGetStatusRegister s fun s0 =>
    s0.awakeCheck fun s1 => s1.transact [opRDSR] 1 fun s2 r => .returned s2 .ok (.byte (r.getD 0 0))

/-- `setStatusRegister` (R122). -/
def execSetStatusRegister (value : Byte) (s : State) : Host.Outcome State Fault Refusal :=
  runCommand (.hostSetStatusRegister value) s fun s0 =>
    s0.awakeCheck fun s1 => s1.transact [opWRSR, value] 0 fun s2 _ => .returned s2 .ok .none

end Sys2Proof.Machine
end

