-- ==== Sys2Proof/Machine/Identify.lean ====
section
/-! DEFINITION. Identification and configuration: `getDeviceID` (R102), `initialize` (R103), `setAddressWidth` (R104). -/

namespace Sys2Proof.Machine

/-- `getDeviceID` (R102). -/
def execGetDeviceID (s : State) : Host.Outcome State Fault Refusal :=
  runCommand .hostGetDeviceID s fun s0 =>
    s0.awakeCheck fun s1 =>
      s1.transact [opRDID] 4 fun s2 r =>
        .returned s2 .ok (.deviceId (decodeIDBytes r).1 (decodeIDBytes r).2)

/-- Steps 3 to 5 of `initialize` (R103): look the ID up and configure AW and MATCH. -/
def State.configure (s : State) (r : List Byte) : Ended :=
  match lookup s.cfg (decodeIDBytes r).1 (decodeIDBytes r).2 with
  | none => .returned { s with matched := none, aw := 0 } .unsupportedDevice .none
  | some i =>
    match s.cfg.table[i]? with
    | some d => .returned { s with matched := some i, aw := widthFor d.sizeBytes } .ok .none
    | none => .returned { s with matched := none, aw := 0 } .unsupportedDevice .none

/-- `initialize` (R103). -/
def execInitialize (s : State) : Host.Outcome State Fault Refusal :=
  runCommand .hostInitialize s fun s0 =>
    match s0.bus.tbegin with
    | (false, b) => .returned { s0 with bus := b } .busUnavailable .none
    | (true, b) =>
      { s0 with bus := b }.awakeCheck fun s1 => s1.transact [opRDID] 4 fun s2 r => s2.configure r

/-- `setAddressWidth` (R104). -/
def execSetAddressWidth (width : Byte) (s : State) : Host.Outcome State Fault Refusal :=
  runCommand (.hostSetAddressWidth width) s fun s0 =>
    if width = 2 ∨ width = 3 then .returned { s0 with aw := width.setWidth 2 } .ok .none
    else .returned s0 .invalidWidth .none

end Sys2Proof.Machine
end

