-- ==== Sys2Proof/Machine/MemoryAccess.lean ====
section
/-! DEFINITION. Memory access commands (R110 to R116). -/

namespace Sys2Proof.Machine

/-- `write8` (R111). -/
def execWrite8 (addr : Word) (value : Byte) (s : State) : Host.Outcome State Fault Refusal :=
  runCommand (.hostWrite8 addr value) s fun s0 =>
    s0.memGate fun s1 =>
      s1.transact (encodeFrame opWRITE addr s1.aw ++ [value]) 0 fun s2 _ => .returned s2 .ok .none

/-- `writeBlock` (R112). -/
def execWriteBlock (addr : Word) (payload : List Byte) (s : State) : Host.Outcome State Fault Refusal :=
  runCommand (.hostWriteBlock addr payload) s fun s0 =>
    s0.memGate fun s1 =>
      s1.transact (encodeFrame opWRITE addr s1.aw ++ payload) 0 fun s2 _ => .returned s2 .ok .none

/-- `read8` (R113). -/
def execRead8 (addr : Word) (s : State) : Host.Outcome State Fault Refusal :=
  runCommand (.hostRead8 addr) s fun s0 =>
    s0.memGate fun s1 =>
      s1.transact (encodeFrame opREAD addr s1.aw) 1 fun s2 r => .returned s2 .ok (.byte (r.getD 0 0))

/-- `readBlock` (R114). -/
def execReadBlock (addr : Word) (count : Word) (s : State) : Host.Outcome State Fault Refusal :=
  runCommand (.hostReadBlock addr count) s fun s0 =>
    s0.memGate fun s1 =>
      s1.transact (encodeFrame opREAD addr s1.aw) count.toNat fun s2 r => .returned s2 .ok (.bytes r)

end Sys2Proof.Machine
end

