-- ==== Sys2Proof/Machine/Power.lean ====
section
/-! DEFINITION. The sleep and wake commands (R131 to R134). -/

namespace Sys2Proof.Machine

/-- `WAKE_HOLD_US` (R7). -/
def wakeHoldUs : Word := 300
/-- `WAKE_SETTLE_US` (R7). -/
def wakeSettleUs : Word := 100
/-- `WAKE_EXTRA_US` (R7). -/
def wakeExtraUs : Word := 50

/-- Write GP (R30). -/
def State.setPower (s : State) (p : Power) : State := { s with bus := { s.bus with gp := p } }

/-- The capability test of `sleep` and `wake` (R131, R132): `NotSupported` without a matched part that sleeps. -/
def State.sleepGate (s : State) (k : DeviceDescriptor → State → Ended) : Ended :=
  match s.matchedDescriptor with
  | none => .returned s .notSupported .none
  | some d => if d.supportsSleep then k d s else .returned s .notSupported .none

/-- `sleep` (R131). -/
def execSleep (s : State) : Host.Outcome State Fault Refusal :=
  runCommand .hostSleep s fun s0 =>
    s0.sleepGate fun _ s1 =>
      s1.awakeCheck fun s2 =>
        s2.transactOr [opSLEEP] 0
          (fun t => .returned (t.setPower .unknown) .transferFailed .none)
          (fun t _ => .returned (t.setPower .asleep) .ok .none)

/-- The select-only bracket of `wake` (R132): claim, select, hold, deselect, release, settle. -/
def Bus.wakeSequence (c : Config) (extra : Bool) (b : Bus) : Flow Unit :=
  (b.openTxn c).andThen fun _ b1 =>
    let b2 := ((b1.doDelay wakeHoldUs).closeTxn c).doDelay wakeSettleUs
    .done () (if extra then b2.doDelay wakeExtraUs else b2)

/-- `wake` (R132). -/
def execWake (s : State) : Host.Outcome State Fault Refusal :=
  runCommand .hostWake s fun s0 =>
    s0.sleepGate fun d s1 =>
      match s1.bus.wakeSequence s1.cfg (extWake s1.cfg d) with
      | .halt b => .halted { s1 with bus := b }
      | .done _ b => .returned ({ s1 with bus := b }.setPower .active) .ok .none

end Sys2Proof.Machine
end

