-- ==== Sys2Proof/Machine/Reserved.lean ====
section
/-! DEFINITION. The reserved host codes (R90): `IllegalCommand` at once. -/

namespace Sys2Proof.Machine

/-- The rule of every reserved code (R90, D49). -/
def illegalCommand (s : State) : Ended := .returned s .illegalCommand .none

/-- Code 0x0. -/
def execReserved0 (s : State) : Host.Outcome State Fault Refusal := runCommand .reserved0 s illegalCommand

/-- Code 0xD. -/
def execReservedD (s : State) : Host.Outcome State Fault Refusal := runCommand .reservedD s illegalCommand

/-- Code 0xE. -/
def execReservedE (s : State) : Host.Outcome State Fault Refusal := runCommand .reservedE s illegalCommand

/-- Code 0xF. -/
def execReservedF (s : State) : Host.Outcome State Fault Refusal := runCommand .reservedF s illegalCommand

end Sys2Proof.Machine
end

