-- ==== Sys2Proof/Machine/Wire.lean ====
section
/-! DEFINITION. The wire frames (R80, R82), each as one transaction of R57 with the device's effect (R67 to R75). -/

namespace Sys2Proof.Machine

/-- `WREN`: frame F_CMD. -/
def execWireWren (s : State) : Host.Outcome State Fault Refusal := runFrame .wireWren s [opWREN] 0

/-- `WRDI`: frame F_CMD. -/
def execWireWrdi (s : State) : Host.Outcome State Fault Refusal := runFrame .wireWrdi s [opWRDI] 0

/-- `RDSR`: frame F_SRR. -/
def execWireRdsr (s : State) : Host.Outcome State Fault Refusal := runFrame .wireRdsr s [opRDSR] 1

/-- `WRSR`: frame F_SRW. -/
def execWireWrsr (value : Byte) (s : State) : Host.Outcome State Fault Refusal :=
  runFrame (.wireWrsr value) s [opWRSR, value] 0

/-- `READ`: frame F_MRD. -/
def execWireRead (addr : WireAddr) (count : Word) (s : State) : Host.Outcome State Fault Refusal :=
  runFrame (.wireRead addr count) s (opREAD :: addr.bytes) count.toNat

/-- `WRITE`: frame F_MWR. -/
def execWireWrite (addr : WireAddr) (payload : List Byte) (s : State) : Host.Outcome State Fault Refusal :=
  runFrame (.wireWrite addr payload) s (opWRITE :: (addr.bytes ++ payload)) 0

/-- `RDID`: frame F_ID. -/
def execWireRdid (s : State) : Host.Outcome State Fault Refusal := runFrame .wireRdid s [opRDID] 4

/-- `SLEEP`: frame F_CMD. -/
def execWireSleep (s : State) : Host.Outcome State Fault Refusal := runFrame .wireSleep s [opSLEEP] 0

end Sys2Proof.Machine
end

