-- ==== Sys2Proof/Machine/Dispatch.lean ====
section
/-! DEFINITION. One arm per constructor of `Instr`. -/

namespace Sys2Proof.Machine

def exec (i : Instr) (s : State) : Host.Outcome State Fault Refusal :=
  match i with
  | .wireWren => Sys2Proof.Machine.execWireWren s
  | .wireWrdi => Sys2Proof.Machine.execWireWrdi s
  | .wireRdsr => Sys2Proof.Machine.execWireRdsr s
  | .wireWrsr value => Sys2Proof.Machine.execWireWrsr value s
  | .wireRead addr count => Sys2Proof.Machine.execWireRead addr count s
  | .wireWrite addr payload => Sys2Proof.Machine.execWireWrite addr payload s
  | .wireRdid => Sys2Proof.Machine.execWireRdid s
  | .wireSleep => Sys2Proof.Machine.execWireSleep s
  | .hostInitialize => Sys2Proof.Machine.execInitialize s
  | .hostWriteEnable en => Sys2Proof.Machine.execWriteEnable en s
  | .hostWrite8 addr value => Sys2Proof.Machine.execWrite8 addr value s
  | .hostWriteBlock addr payload => Sys2Proof.Machine.execWriteBlock addr payload s
  | .hostRead8 addr => Sys2Proof.Machine.execRead8 addr s
  | .hostReadBlock addr count => Sys2Proof.Machine.execReadBlock addr count s
  | .hostGetDeviceID => Sys2Proof.Machine.execGetDeviceID s
  | .hostGetStatusRegister => Sys2Proof.Machine.execGetStatusRegister s
  | .hostSetStatusRegister value => Sys2Proof.Machine.execSetStatusRegister value s
  | .hostSetAddressWidth width => Sys2Proof.Machine.execSetAddressWidth width s
  | .hostSleep => Sys2Proof.Machine.execSleep s
  | .hostWake => Sys2Proof.Machine.execWake s
  | .reserved0 => Sys2Proof.Machine.execReserved0 s
  | .reservedD => Sys2Proof.Machine.execReservedD s
  | .reservedE => Sys2Proof.Machine.execReservedE s
  | .reservedF => Sys2Proof.Machine.execReservedF s

end Sys2Proof.Machine
end

