-- ==== Sys2Proof/Machine/Fetch.lean ====
section
/-! DEFINITION. What the engine meets at its host port (R87), and the placing of a word there. -/

namespace Sys2Proof.Machine

/-- What the next step does. -/
inductive Fetched
  /-- TABLE has duplicate keys: the configuration is refused, whatever the port holds (R8, R145). -/
  | duplicateKeys
  /-- A recorded fault is final (R143). -/
  | stopped (f : Fault)
  /-- Nothing to take: the engine waits for the host (R172), or hangs (R144). -/
  | waiting
  /-- An engine reset (R170). -/
  | reset (rest : List PortItem)
  /-- A word no instruction decodes from. -/
  | illegal (e : DecodeError)
  /-- An instruction, and what the host presents after it. -/
  | instr (i : Instr) (rest : List PortItem)
  deriving DecidableEq, Repr

/-- A TABLE with duplicate keys has no meaning, so nothing is looked at beside it (R8); a reset is taken also during a hang
(R170); a word only while SEQ is Idle (R87). -/
def State.fetch (s : State) : Fetched :=
  if s.cfg.UniqueKeys then
    match s.bus.faults with
    | f :: _ => .stopped f
    | [] =>
      match s.port with
      | [] => .waiting
      | .reset :: rest => .reset rest
      | .word w :: rest =>
        if s.seq = .idle then
          match decode w with
          | .ok i => .instr i rest
          | .error e => .illegal e
        else .waiting
  else .duplicateKeys

/-- Put a word at the head of the host port, SEQ Idle, so that the next step takes it. -/
def State.present (s : State) (w : PortWord) : State := { s with port := .word w :: s.port, seq := .idle }

end Sys2Proof.Machine
end

