-- ==== Sys2Proof/Machine/Step.lean ====
section
/-! DEFINITION. One step: take what the host port holds. -/

namespace Sys2Proof.Machine

/-- One step of the machine. A TABLE with duplicate keys is refused at every step (R8). Waiting and hanging leave the state as it is (R144, R172). -/
def step (s : State) : Host.Outcome State Fault Refusal :=
  match s.fetch with
  | .duplicateKeys => .refused .duplicateKeys
  | .stopped f => .fault f
  | .waiting => .next s
  | .reset rest => .next { s with port := rest }.engineReset
  | .illegal e => .refused (.undecodable e)
  | .instr i rest => exec i { s with port := rest }

/-- The state with the opcode table's word at the host port (notes/assumptions/3.md). -/
def State.withFetchWord (s : State) (nbits w : Nat) : State := s.present (tableWord nbits w)

end Sys2Proof.Machine
end

