-- ==== Sys2Proof/Safety.lean ====
section
/-! DEFINITION. What the statements are said in: when a command is taken, what the transport answers, what a frame's trace is, and the machine's invariant. -/

namespace Sys2Proof.Machine

/-- The engine takes a command: no fault is recorded (R143), SEQ is Idle (R87) and the keys of TABLE are unique (R8). -/
abbrev State.Ready (s : State) : Prop := s.bus.faults = [] ∧ s.seq = .idle ∧ s.cfg.UniqueKeys

/-- The exchange completes with a byte. -/
def XferAnswer.isByte : XferAnswer → Bool
  | .byte _ => true
  | .fail _ | .hang _ => false

/-- The transport lets a transaction of `n` exchanges complete (R56): the next `Claim` returns where one is issued, and
each of the next `n` exchanges answers a byte. -/
abbrev State.Completes (s : State) (n : Nat) : Prop :=
  (s.cfg.sharedBus = true → s.bus.answers.claimHead = true) ∧
    (s.bus.answers.xfers.take n).all XferAnswer.isByte = true

/-- The transport stops a transaction at its exchange `j` (R56): the `Claim` returns, the exchanges before it answer a byte
each, and it gets `last`. -/
abbrev State.StopsAt (s : State) (j : Nat) (last : XferAnswer) : Prop :=
  s.Completes j ∧ s.bus.answers.xfers[j]? = some last

/-- The events of one bracket around `inner` (R57). -/
def bracket (c : Config) (inner : List Event) : List Event :=
  (if c.sharedBus then [.claim] else []) ++ [.select] ++ inner ++ [.deselect] ++
    (if c.sharedBus then [.release] else [])

/-- The exchanges that send `out`, each byte with the discarded byte received (R60). -/
def sent (out junk : List Byte) : List Event := List.zipWith Event.xfer out junk

/-- The exchanges that receive `r` while FILL is sent (R60). -/
def received (c : Config) (r : List Byte) : List Event := r.map (Event.xfer c.fill)

/-- `ev` is the trace of one completed frame: `out` sent, `r` received, in one bracket (R57, R59). -/
def FrameTrace (c : Config) (out r : List Byte) (ev : List Event) : Prop :=
  ∃ junk : List Byte, junk.length = out.length ∧ ev = bracket c (sent out junk ++ received c r)

/-- What a frame of `out` and `n` bytes in puts on the wire (R60): the bytes out, then FILL. -/
def wireBytes (c : Config) (out : List Byte) (n : Nat) : List Byte := out ++ List.replicate n c.fill

/-- `ev` is the trace of a frame whose exchange `j` failed (R57, R58): the exchanges before it, the failure, and the
bracket closed. -/
def FailedTrace (c : Config) (out : List Byte) (n j : Nat) (ev : List Event) : Prop :=
  ∃ (junk : List Byte) (o : Byte), junk.length = j ∧ (wireBytes c out n)[j]? = some o ∧
    ev = bracket c (sent ((wireBytes c out n).take j) junk ++ [.xferFail o])

/-- `ev` is the trace of a frame whose exchange `j` never answered (R58, R144): the exchanges before it, the bracket open. -/
def HungTrace (c : Config) (out : List Byte) (n j : Nat) (ev : List Event) : Prop :=
  ∃ junk : List Byte, junk.length = j ∧
    ev = (if c.sharedBus then [.claim] else []) ++ [.select] ++ sent ((wireBytes c out n).take j) junk

/-- The select line is deasserted, and the claim released where there is one (R25, R26, R58). -/
def Bus.Released (c : Config) (before after : Bus) : Prop :=
  after.cs = false ∧ after.claim = (if c.sharedBus then false else before.claim)

/-- Parameters, AW, MATCH, SEQ, the host's words and FAULTS are as before. -/
def State.SameEngine (s t : State) : Prop :=
  t.cfg = s.cfg ∧ t.aw = s.aw ∧ t.matched = s.matched ∧ t.seq = s.seq ∧ t.port = s.port ∧
    t.bus.faults = s.bus.faults

/-- The command returned `(code, data)` (R11, R87). -/
def State.Returned (t : State) (code : ResultCode) (data : ResultData) : Prop :=
  t.result = some { code := code, data := data } ∧ t.seq = .idle

/-- Array, latch, status register and power state are as before. -/
def Bus.SameDevice (b b' : Bus) : Prop :=
  b'.dev.mem = b.dev.mem ∧ b'.dev.wel = b.dev.wel ∧ b'.dev.sr = b.dev.sr ∧ b'.gp = b.gp

/-- The part MATCH points at can sleep (R131, R132). -/
def State.CanSleep (s : State) : Prop := ∃ d, s.matchedDescriptor = some d ∧ d.supportsSleep = true

/-- The frame a command or wire instruction sends (R82, R120 to R122, R131): bytes out and number of bytes in. -/
def frameOf (aw : BitVec 2) : Instr → Option (List Byte × Nat)
  | .wireWren => some ([opWREN], 0)
  | .wireWrdi => some ([opWRDI], 0)
  | .wireRdsr => some ([opRDSR], 1)
  | .wireWrsr v => some ([opWRSR, v], 0)
  | .wireRead a n => some (opREAD :: a.bytes, n.toNat)
  | .wireWrite a p => some (opWRITE :: (a.bytes ++ p), 0)
  | .wireRdid => some ([opRDID], 4)
  | .wireSleep => some ([opSLEEP], 0)
  | .hostInitialize => some ([opRDID], 4)
  | .hostWriteEnable en => some ([if en then opWREN else opWRDI], 0)
  | .hostWrite8 a v => some (opWRITE :: (addrBytes a aw ++ [v]), 0)
  | .hostWriteBlock a p => some (opWRITE :: (addrBytes a aw ++ p), 0)
  | .hostRead8 a => some (opREAD :: addrBytes a aw, 1)
  | .hostReadBlock a n => some (opREAD :: addrBytes a aw, n.toNat)
  | .hostGetDeviceID => some ([opRDID], 4)
  | .hostGetStatusRegister => some ([opRDSR], 1)
  | .hostSetStatusRegister v => some ([opWRSR, v], 0)
  | .hostSleep => some ([opSLEEP], 0)
  | .hostSetAddressWidth _ | .hostWake | .reserved0 | .reservedD | .reservedE | .reservedF => none

/-- The instruction is one of the raw wire frames. -/
def isWire : Instr → Bool
  | .wireWren | .wireWrdi | .wireRdsr | .wireWrsr _ | .wireRead _ _ | .wireWrite _ _ | .wireRdid | .wireSleep => true
  | .hostInitialize | .hostWriteEnable _ | .hostWrite8 _ _ | .hostWriteBlock _ _ | .hostRead8 _ => false
  | .hostReadBlock _ _ | .hostGetDeviceID | .hostGetStatusRegister | .hostSetStatusRegister _ => false
  | .hostSetAddressWidth _ | .hostSleep | .hostWake | .reserved0 | .reservedD | .reservedE | .reservedF => false

/-- The instruction is a memory command of R110. -/
def isMemoryCommand : Instr → Bool
  | .hostWrite8 _ _ | .hostWriteBlock _ _ | .hostRead8 _ | .hostReadBlock _ _ => true
  | .wireWren | .wireWrdi | .wireRdsr | .wireWrsr _ | .wireRead _ _ | .wireWrite _ _ | .wireRdid | .wireSleep => false
  | .hostInitialize | .hostWriteEnable _ | .hostGetDeviceID | .hostGetStatusRegister => false
  | .hostSetStatusRegister _ | .hostSetAddressWidth _ | .hostSleep | .hostWake => false
  | .reserved0 | .reservedD | .reservedE | .reservedF => false

/-- The checks a command makes before its `AwakeCheck` let it through (R146). -/
def State.PassesGate (s : State) (i : Instr) : Prop :=
  (isMemoryCommand i = true → s.aw ≠ 0) ∧ (i = .hostSleep → s.CanSleep) ∧
    (i = .hostInitialize → s.bus.answers.beginHead = true)

/-- What a command has put on TRACE before its transaction: the handshake of `initialize` (R103), else nothing. -/
def preludeOf (i : Instr) : List Event := if i = .hostInitialize then [.tbegin true] else []

/-- The byte of the first exchange of a trace. -/
def firstSent (ev : List Event) : Option Byte :=
  ev.findSome? fun e =>
    match e with
    | .xfer out _ => some out
    | .xferFail out => some out
    | .tbegin _ | .claim | .release | .select | .deselect | .delay _ => none

/-- The most events a host command issues (R24): 10 for `initialize`, else `7 + AW + L`. -/
def eventBound (aw : BitVec 2) (i : Instr) : Nat :=
  if i = .hostInitialize then 10
  else
    7 + aw.toNat +
      match i with
      | .hostWriteBlock _ payload => payload.length
      | .hostReadBlock _ count => count.toNat
      | .hostGetDeviceID => 4
      | .hostWrite8 _ _ | .hostRead8 _ | .hostGetStatusRegister | .hostSetStatusRegister _ => 1
      | .wireRead _ count => count.toNat + 1
      | .wireWrite _ payload => payload.length + 1
      | .wireRdid => 4
      | .wireRdsr | .wireWrsr _ => 1
      | .wireWren | .wireWrdi | .wireSleep | .hostInitialize | .hostWriteEnable _ | .hostSetAddressWidth _ => 0
      | .hostSleep | .hostWake | .reserved0 | .reservedD | .reservedE | .reservedF => 0

/-- The DELAY arguments of a trace, summed (R134). -/
def delaySum (ev : List Event) : Nat :=
  (ev.map fun e => match e with | .delay us => us.toNat | _ => 0).sum

/-- The cell a memory frame addresses (R69) when the device reads the width the frame is sent with. -/
def firstCell (c : Config) (a : WireAddr) : Nat :=
  match a with
  | .two x => devCell c (x.setWidth 24)
  | .three x => devCell c x

/-- The cell `j` steps of the device's increment after `a` (R70, R71). -/
def cellAfter (c : Config) (a j : Nat) : Nat := (a + j) % devSize c

/-- What cell `x` holds after `payload` was stored from cell `a` on (R71): the last byte that went to `x`, if any. -/
def storedByte (c : Config) (a : Nat) (payload : List Byte) (x : Nat) : Option Byte :=
  ((List.range payload.length).reverse.find? fun j => cellAfter c a j == x).bind (payload[·]?)

/-- A cell number held by the device's phase is below `DEV_SIZE`. -/
def Phase.inArray (size : Nat) : Phase → Bool
  | .dataOut a => a < size
  | .dataIn a => a < size
  | .idle | .opc | .addr _ _ _ | .srOut | .srIn | .srDone _ | .idOut _ | .done _ | .wakeSel | .undef => true

/-- The machine's invariant: AW is 0, 2 or 3 (R105); MATCH is an index of TABLE (R22); the array is canonical and
inside `DEV_SIZE`; the device's phase points inside it; between commands CS and CLAIM are 0 (R25, R26); CLAIM is 0 on
an unshared bus (R26); FAULTS is a set, and a faulted engine is not Idle (R143). -/
abbrev State.Inv (s : State) : Prop :=
  s.aw ≠ 1 ∧
  s.matched.all (· < s.cfg.table.length) = true ∧
  s.bus.dev.mem.wf ∧
  (∀ x ∈ s.bus.dev.mem, x.1 < devSize s.cfg) ∧
  s.bus.dev.dph.inArray (devSize s.cfg) = true ∧
  (s.seq = .idle → s.bus.cs = false ∧ s.bus.claim = false) ∧
  (s.cfg.sharedBus = false → s.bus.claim = false) ∧
  s.bus.faults.Nodup ∧
  (s.bus.faults ≠ [] → s.seq ≠ .idle)

end Sys2Proof.Machine
end

