-- ==== Sys2Proof/Laws/State.lean ====
section
/-! SUPPORT. The fields of a state after each update, true by rfl. -/

namespace Sys2Proof.Machine

/-! ## Bus updates -/

@[simp] theorem Bus.emit_cs (b : Bus) (e : Event) : (b.emit e).cs = b.cs := rfl
@[simp] theorem Bus.emit_claim (b : Bus) (e : Event) : (b.emit e).claim = b.claim := rfl
@[simp] theorem Bus.emit_trace (b : Bus) (e : Event) : (b.emit e).trace = b.trace ++ [e] := rfl
@[simp] theorem Bus.emit_faults (b : Bus) (e : Event) : (b.emit e).faults = b.faults := rfl
@[simp] theorem Bus.emit_gp (b : Bus) (e : Event) : (b.emit e).gp = b.gp := rfl
@[simp] theorem Bus.emit_dev (b : Bus) (e : Event) : (b.emit e).dev = b.dev := rfl
@[simp] theorem Bus.emit_answers (b : Bus) (e : Event) : (b.emit e).answers = b.answers := rfl

@[simp] theorem Bus.raise_cs (b : Bus) (f : Fault) : (b.raise f).cs = b.cs := rfl
@[simp] theorem Bus.raise_claim (b : Bus) (f : Fault) : (b.raise f).claim = b.claim := rfl
@[simp] theorem Bus.raise_trace (b : Bus) (f : Fault) : (b.raise f).trace = b.trace := rfl
@[simp] theorem Bus.raise_gp (b : Bus) (f : Fault) : (b.raise f).gp = b.gp := rfl
@[simp] theorem Bus.raise_dev (b : Bus) (f : Fault) : (b.raise f).dev = b.dev := rfl
@[simp] theorem Bus.raise_answers (b : Bus) (f : Fault) : (b.raise f).answers = b.answers := rfl

@[simp] theorem Bus.doSelect_cs (b : Bus) : b.doSelect.cs = true := rfl
@[simp] theorem Bus.doSelect_claim (b : Bus) : b.doSelect.claim = b.claim := rfl
@[simp] theorem Bus.doSelect_trace (b : Bus) : b.doSelect.trace = b.trace ++ [.select] := rfl
@[simp] theorem Bus.doSelect_faults (b : Bus) : b.doSelect.faults = b.faults := rfl
@[simp] theorem Bus.doSelect_gp (b : Bus) : b.doSelect.gp = b.gp := rfl
@[simp] theorem Bus.doSelect_dev (b : Bus) : b.doSelect.dev = devSelect b.gp b.dev := rfl
@[simp] theorem Bus.doSelect_answers (b : Bus) : b.doSelect.answers = b.answers := rfl

@[simp] theorem Bus.doDeselect_cs (c : Config) (b : Bus) : (b.doDeselect c).cs = false := rfl
@[simp] theorem Bus.doDeselect_claim (c : Config) (b : Bus) : (b.doDeselect c).claim = b.claim := rfl
@[simp] theorem Bus.doDeselect_trace (c : Config) (b : Bus) : (b.doDeselect c).trace = b.trace ++ [.deselect] := rfl
@[simp] theorem Bus.doDeselect_faults (c : Config) (b : Bus) : (b.doDeselect c).faults = b.faults := rfl
@[simp] theorem Bus.doDeselect_gp (c : Config) (b : Bus) : (b.doDeselect c).gp = devDeselectPower b.dev b.gp := rfl
@[simp] theorem Bus.doDeselect_dev (c : Config) (b : Bus) : (b.doDeselect c).dev = devDeselect c b.dev := rfl
@[simp] theorem Bus.doDeselect_answers (c : Config) (b : Bus) : (b.doDeselect c).answers = b.answers := rfl

@[simp] theorem Bus.closeTxn_cs (c : Config) (b : Bus) : (b.closeTxn c).cs = false := by
  unfold Bus.closeTxn Bus.doRelease; split <;> rfl
@[simp] theorem Bus.closeTxn_claim (c : Config) (b : Bus) :
    (b.closeTxn c).claim = if c.sharedBus then false else b.claim := by
  unfold Bus.closeTxn Bus.doRelease; split <;> rfl
@[simp] theorem Bus.closeTxn_trace (c : Config) (b : Bus) :
    (b.closeTxn c).trace = b.trace ++ [.deselect] ++ if c.sharedBus then [.release] else [] := by
  unfold Bus.closeTxn Bus.doRelease; split <;> simp
@[simp] theorem Bus.closeTxn_faults (c : Config) (b : Bus) : (b.closeTxn c).faults = b.faults := by
  unfold Bus.closeTxn Bus.doRelease; split <;> rfl
@[simp] theorem Bus.closeTxn_gp (c : Config) (b : Bus) : (b.closeTxn c).gp = devDeselectPower b.dev b.gp := by
  unfold Bus.closeTxn Bus.doRelease; split <;> rfl
@[simp] theorem Bus.closeTxn_dev (c : Config) (b : Bus) : (b.closeTxn c).dev = devDeselect c b.dev := by
  unfold Bus.closeTxn Bus.doRelease; split <;> rfl
@[simp] theorem Bus.closeTxn_answers (c : Config) (b : Bus) : (b.closeTxn c).answers = b.answers := by
  unfold Bus.closeTxn Bus.doRelease; split <;> rfl

/-! ## State updates -/

@[simp] theorem State.ret_cfg (s : State) (k : ResultCode) (d : ResultData) : (s.ret k d).cfg = s.cfg := rfl
@[simp] theorem State.ret_aw (s : State) (k : ResultCode) (d : ResultData) : (s.ret k d).aw = s.aw := rfl
@[simp] theorem State.ret_matched (s : State) (k : ResultCode) (d : ResultData) : (s.ret k d).matched = s.matched := rfl
@[simp] theorem State.ret_seq (s : State) (k : ResultCode) (d : ResultData) : (s.ret k d).seq = .idle := rfl
@[simp] theorem State.ret_result (s : State) (k : ResultCode) (d : ResultData) :
    (s.ret k d).result = some { code := k, data := d } := rfl
@[simp] theorem State.ret_bus (s : State) (k : ResultCode) (d : ResultData) : (s.ret k d).bus = s.bus := rfl
@[simp] theorem State.ret_port (s : State) (k : ResultCode) (d : ResultData) : (s.ret k d).port = s.port := rfl

@[simp] theorem State.raise_cfg (s : State) (f : Fault) : (s.raise f).cfg = s.cfg := rfl
@[simp] theorem State.raise_aw (s : State) (f : Fault) : (s.raise f).aw = s.aw := rfl
@[simp] theorem State.raise_matched (s : State) (f : Fault) : (s.raise f).matched = s.matched := rfl
@[simp] theorem State.raise_seq (s : State) (f : Fault) : (s.raise f).seq = s.seq := rfl
@[simp] theorem State.raise_result (s : State) (f : Fault) : (s.raise f).result = s.result := rfl
@[simp] theorem State.raise_bus (s : State) (f : Fault) : (s.raise f).bus = s.bus.raise f := rfl
@[simp] theorem State.raise_port (s : State) (f : Fault) : (s.raise f).port = s.port := rfl

@[simp] theorem State.setPower_cfg (s : State) (p : Power) : (s.setPower p).cfg = s.cfg := rfl
@[simp] theorem State.setPower_aw (s : State) (p : Power) : (s.setPower p).aw = s.aw := rfl
@[simp] theorem State.setPower_matched (s : State) (p : Power) : (s.setPower p).matched = s.matched := rfl
@[simp] theorem State.setPower_seq (s : State) (p : Power) : (s.setPower p).seq = s.seq := rfl
@[simp] theorem State.setPower_result (s : State) (p : Power) : (s.setPower p).result = s.result := rfl
@[simp] theorem State.setPower_bus (s : State) (p : Power) : (s.setPower p).bus = { s.bus with gp := p } := rfl
@[simp] theorem State.setPower_port (s : State) (p : Power) : (s.setPower p).port = s.port := rfl

@[simp] theorem State.engineReset_cfg (s : State) : s.engineReset.cfg = s.cfg := rfl
@[simp] theorem State.engineReset_aw (s : State) : s.engineReset.aw = 0 := rfl
@[simp] theorem State.engineReset_matched (s : State) : s.engineReset.matched = none := rfl
@[simp] theorem State.engineReset_seq (s : State) : s.engineReset.seq = .idle := rfl
@[simp] theorem State.engineReset_result (s : State) : s.engineReset.result = none := rfl
@[simp] theorem State.engineReset_bus (s : State) : s.engineReset.bus = { s.bus with cs := false, claim := false } := rfl
@[simp] theorem State.engineReset_port (s : State) : s.engineReset.port = s.port := rfl

@[simp] theorem State.present_bus (s : State) (w : PortWord) : (s.present w).bus = s.bus := rfl
@[simp] theorem State.present_seq (s : State) (w : PortWord) : (s.present w).seq = .idle := rfl
@[simp] theorem State.present_port (s : State) (w : PortWord) : (s.present w).port = .word w :: s.port := rfl

end Sys2Proof.Machine
end

