-- ==== Sys2Proof/Laws/Memory.lean ====
section
/-! SUPPORT. The device array: a read after a write, and the canonical form. -/

namespace Sys2Proof.Machine

/-- A cell below every listed cell is unlisted. -/
theorem Memory.read_of_lt (m : Memory) (a : Nat) (h : ∀ x ∈ m, a < x.1) : m.read a = Memory.unlisted := by
  induction m with
  | nil => rfl
  | cons x rest ih =>
    obtain ⟨k, v⟩ := x
    have hk : a < k := h (k, v) (by simp)
    simp only [Memory.read, if_neg (Nat.ne_of_gt hk)]
    exact ih fun y hy => h y (List.mem_cons_of_mem _ hy)

/-- A written cell is either the one written or one listed before. -/
theorem Memory.mem_write (m : Memory) (a : Nat) (v : Byte) (x : Host.Cell) (h : x ∈ m.write a v) :
    x = (a, v) ∧ v ≠ Memory.unlisted ∨ x ∈ m := by
  induction m with
  | nil =>
    simp only [Memory.write] at h
    split at h <;> simp_all
  | cons y rest ih =>
    obtain ⟨k, w⟩ := y
    simp only [Memory.write] at h
    split at h
    · split at h <;> simp_all
    · split at h
      · split at h <;> simp_all
        tauto
      · rcases List.mem_cons.mp h with h | h
        · simp_all
        · rcases ih h with h | h <;> simp_all

/-- A write keeps the canonical form. -/
theorem Memory.write_wf (m : Memory) (a : Nat) (v : Byte) (h : m.wf) : (m.write a v).wf := by
  refine ⟨?_, fun x hx => ?_⟩
  · obtain ⟨hs, -⟩ := h
    induction m with
    | nil => simp only [Memory.write]; split <;> simp
    | cons y rest ih =>
      obtain ⟨k, w⟩ := y
      have hr := List.pairwise_cons.mp hs
      simp only [Memory.write]
      split
      · rename_i hak
        split
        · exact hs
        · refine List.pairwise_cons.mpr ⟨fun z hz => ?_, hs⟩
          rcases List.mem_cons.mp hz with rfl | hz
          · exact hak
          · exact hak.trans (hr.1 z hz)
      · split
        · rename_i hak
          subst hak
          split
          · exact hr.2
          · exact List.pairwise_cons.mpr ⟨hr.1, hr.2⟩
        · rename_i h1 h2
          refine List.pairwise_cons.mpr ⟨fun z hz => ?_, ih hr.2⟩
          rcases Memory.mem_write rest a v z hz with ⟨rfl, -⟩ | hz
          · exact Nat.lt_of_le_of_ne (Nat.le_of_not_lt h1) (Ne.symm h2)
          · exact hr.1 z hz
  · rcases Memory.mem_write m a v x hx with ⟨rfl, hv⟩ | hx
    · exact hv
    · exact h.2 x hx

/-- `MemWrite` keeps the canonical form. -/
theorem Device.memWrite_wf (d : Device) (a : Nat) (v : Byte) (h : d.mem.wf) : (d.memWrite a v).mem.wf :=
  Memory.write_wf d.mem a v h

/-- The array at reset is canonical. -/
theorem State.reset_mem_wf : State.reset.bus.dev.mem.wf := by decide

/-- A read after a write (the array canonical): the byte written there, every other cell as before. -/
theorem Memory.read_write (m : Memory) (a x : Nat) (v : Byte) (h : m.wf) :
    (m.write a v).read x = if a = x then v else m.read x := by
  obtain ⟨hs, hn⟩ := h
  induction m with
  | nil =>
    simp only [Memory.write]
    split
    · split <;> simp_all [Memory.read]
    · simp [Memory.read]
  | cons y rest ih =>
    obtain ⟨k, w⟩ := y
    have hr := List.pairwise_cons.mp hs
    have ih := ih hr.2 fun z hz => hn z (List.mem_cons_of_mem _ hz)
    have hbelow : ∀ b, b ≤ k → Memory.read rest b = Memory.unlisted := fun b hb =>
      Memory.read_of_lt rest b fun z hz => Nat.lt_of_le_of_lt hb (hr.1 z hz)
    simp only [Memory.write]
    split
    · rename_i hak
      split
      · rename_i hv
        by_cases hax : a = x
        · subst hax
          simp [Memory.read, Nat.ne_of_gt hak, hbelow a hak.le, hv]
        · simp [hax]
      · simp [Memory.read]
    · split
      · rename_i hak
        subst hak
        split
        · rename_i hv
          by_cases hax : a = x
          · subst hax; simp [hbelow a le_rfl, hv]
          · simp [Memory.read, hax]
        · simp only [Memory.read]
          split <;> simp_all
      · rename_i h1 h2
        simp only [Memory.read, ih]
        by_cases hkx : k = x
        · subst hkx; simp [h2]
        · simp [hkx]

end Sys2Proof.Machine
end

