-- ==== Sys2Proof/Laws/Device.lean ====
section
/-! SUPPORT. What the reference device's transitions can do. -/

namespace Sys2Proof.Machine

theorem devSize_pos (c : Config) : 0 < devSize c := Nat.succ_pos _

theorem devCell_lt (c : Config) (a : BitVec 24) : devCell c a < devSize c := Nat.mod_lt _ (devSize_pos c)

theorem nextCell_lt (c : Config) (a : Nat) : nextCell c a < devSize c := Nat.mod_lt _ (devSize_pos c)

/-- The phase is one in which no byte raises a fault: past the opcode and not asleep, or no device is composed. -/
def Quiet (c : Config) (d : Device) : Prop := d.dph ≠ .wakeSel ∧ (d.dph = .opc → c.composed = false)

theorem Quiet.devFault {c : Config} {d : Device} (h : Quiet c d) (out : Byte) : devFault c d out = none := by
  obtain ⟨h1, h2⟩ := h
  unfold Sys2Proof.Machine.devFault
  split <;> simp_all

/-- An exchange leaves the device past its opcode. -/
theorem devNext_phase (c : Config) (d : Device) (out : Byte) (hc : c.composed = true) (h : d.dph ≠ .wakeSel) :
    (devNext c d out).dph ≠ .wakeSel ∧ (devNext c d out).dph ≠ .opc := by
  unfold devNext
  rw [if_pos hc]
  split <;> rename_i hp
  case h_1 =>
    unfold devOpcode
    repeat' split
    all_goals simp
  case h_2 =>
    unfold devAddress
    simp only
    repeat' split
    all_goals simp
  case h_4 => simp [devStore]
  all_goals simp_all

theorem Quiet.devNext {c : Config} {d : Device} (h : Quiet c d) (out : Byte) : Quiet c (devNext c d out) := by
  by_cases hc : c.composed = true
  · have := devNext_phase c d out hc h.1
    exact ⟨this.1, fun h => absurd h this.2⟩
  · have : Sys2Proof.Machine.devNext c d out = d := by simp [Sys2Proof.Machine.devNext, hc]
    rwa [this]

/-- After one of the eight opcodes the device is quiet. -/
theorem quiet_after_opcode (c : Config) (d : Device) (op : Byte) (hd : d.dph = .opc) : Quiet c (devNext c d op) := by
  by_cases hc : c.composed = true
  · have := devNext_phase c d op hc (by simp [hd])
    exact ⟨this.1, fun h => absurd h this.2⟩
  · have : devNext c d op = d := by simp [devNext, hc]
    rw [this]
    exact ⟨by simp [hd], fun _ => by simpa using hc⟩

theorem devFault_opcode (c : Config) (d : Device) (op : Byte) (hd : d.dph = .opc) (ho : op ∈ wireOpcodes) :
    devFault c d op = none := by
  unfold devFault
  rw [hd]
  simp [ho]

/-- What an exchange can do to the array: store the byte sent at the phase's cell, under an honoured WRITE. -/
theorem devNext_mem (c : Config) (d : Device) (out : Byte) :
    (devNext c d out).mem = d.mem ∨
      ∃ a, d.dph = .dataIn a ∧ d.dwr = true ∧ writeAllowed c d.sr a = true ∧
        (devNext c d out).mem = d.mem.write a out := by
  unfold devNext
  split
  · split
    case h_1 => left; unfold devOpcode; repeat' split
                all_goals rfl
    case h_2 => left; unfold devAddress; simp only; repeat' split
                all_goals rfl
    case h_4 a hp =>
      unfold devStore
      by_cases hw : (d.dwr && writeAllowed c d.sr a) = true
      · right
        simp only [hw, if_true]
        simp only [Bool.and_eq_true] at hw
        exact ⟨a, hp, hw.1, hw.2, rfl⟩
      · left
        simp [hw]
    all_goals exact .inl rfl
  · exact .inl rfl

/-- No exchange changes the latch or the status register. -/
theorem devNext_wel_sr (c : Config) (d : Device) (out : Byte) :
    (devNext c d out).wel = d.wel ∧ (devNext c d out).sr = d.sr := by
  unfold devNext
  split
  · split
    case h_1 => unfold devOpcode; repeat' split
                all_goals exact ⟨rfl, rfl⟩
    case h_2 => unfold devAddress; simp only; repeat' split
                all_goals exact ⟨rfl, rfl⟩
    case h_4 => unfold devStore; simp only; split <;> exact ⟨rfl, rfl⟩
    all_goals exact ⟨rfl, rfl⟩
  · exact ⟨rfl, rfl⟩

/-- An exchange keeps the phase's cell inside the array. -/
theorem devNext_inArray (c : Config) (d : Device) (out : Byte) (h : d.dph.inArray (devSize c) = true) :
    (devNext c d out).dph.inArray (devSize c) = true := by
  unfold devNext
  split
  · split
    case h_1 => unfold devOpcode; repeat' split
                all_goals rfl
    case h_2 => unfold devAddress; simp only; repeat' split
                all_goals simp [Phase.inArray, devCell_lt]
    case h_3 => simp [Phase.inArray, nextCell_lt]
    case h_4 => simp [devStore, Phase.inArray, nextCell_lt]
    all_goals first | rfl | assumption
  · assumption

/-- The device after the exchange of some bytes. -/
def devRun (c : Config) (d : Device) (bytes : List Byte) : Device := bytes.foldl (devNext c) d

@[simp] theorem devRun_nil (c : Config) (d : Device) : devRun c d [] = d := rfl
@[simp] theorem devRun_cons (c : Config) (d : Device) (o : Byte) (rest : List Byte) :
    devRun c d (o :: rest) = devRun c (devNext c d o) rest := rfl
theorem devRun_append (c : Config) (d : Device) (xs ys : List Byte) :
    devRun c d (xs ++ ys) = devRun c (devRun c d xs) ys := List.foldl_append

/-- No byte of the list raises a fault when they are exchanged in turn. -/
def SafeRun (c : Config) : Device → List Byte → Prop
  | _, [] => True
  | d, o :: rest => devFault c d o = none ∧ SafeRun c (devNext c d o) rest

theorem SafeRun.append {c : Config} {d : Device} {xs ys : List Byte} :
    SafeRun c d (xs ++ ys) ↔ SafeRun c d xs ∧ SafeRun c (devRun c d xs) ys := by
  induction xs generalizing d with
  | nil => simp [SafeRun]
  | cons o rest ih => simp [SafeRun, ih, and_assoc]

theorem Quiet.safeRun {c : Config} {d : Device} (h : Quiet c d) (bytes : List Byte) : SafeRun c d bytes := by
  induction bytes generalizing d with
  | nil => trivial
  | cons o rest ih => exact ⟨h.devFault o, ih (h.devNext o)⟩

/-- A selected awake device raises no fault on a frame that begins with one of the eight opcodes. -/
theorem safeRun_frame (c : Config) (d : Device) (op : Byte) (rest : List Byte) (hd : d.dph = .opc)
    (ho : op ∈ wireOpcodes) : SafeRun c d (op :: rest) :=
  ⟨devFault_opcode c d op hd ho, (quiet_after_opcode c d op hd).safeRun rest⟩

/-- No exchange changes the latch or the status register. -/
theorem devRun_wel_sr (c : Config) (d : Device) (bytes : List Byte) :
    (devRun c d bytes).wel = d.wel ∧ (devRun c d bytes).sr = d.sr := by
  induction bytes generalizing d with
  | nil => exact ⟨rfl, rfl⟩
  | cons o rest ih =>
    have h := devNext_wel_sr c d o
    have h' := ih (devNext c d o)
    exact ⟨h'.1.trans h.1, h'.2.trans h.2⟩

@[simp] theorem devSelect_mem (gp : Power) (d : Device) : (devSelect gp d).mem = d.mem := by
  unfold devSelect; split <;> rfl
@[simp] theorem devSelect_wel (gp : Power) (d : Device) : (devSelect gp d).wel = d.wel := by
  unfold devSelect; split <;> rfl
@[simp] theorem devSelect_sr (gp : Power) (d : Device) : (devSelect gp d).sr = d.sr := by
  unfold devSelect; split <;> rfl

/-- Completing a transaction never changes the array. -/
@[simp] theorem devDeselect_mem (c : Config) (d : Device) : (devDeselect c d).mem = d.mem := by
  unfold devDeselect devComplete
  split <;> first | rfl | (simp only; split <;> rfl)
@[simp] theorem devDeselect_dph (c : Config) (d : Device) : (devDeselect c d).dph = .idle := rfl
@[simp] theorem devDeselect_dwr (c : Config) (d : Device) : (devDeselect c d).dwr = false := rfl

end Sys2Proof.Machine
end

