-- ==== Sys2Proof/Laws/Transport.lean ====
section
/-! SUPPORT. What the transport primitives and the bracket can do: invariants they keep, how they complete, and what they put on TRACE. -/

namespace Sys2Proof.Machine

/-! ## Flow -/

/-- The bus at the end of a piece of a command, whichever way it ends. -/
def Flow.bus {α : Type} : Flow α → Bus
  | .done _ b => b
  | .halt b => b

@[simp] theorem Flow.bus_done {α : Type} (a : α) (b : Bus) : (Flow.done a b).bus = b := rfl
@[simp] theorem Flow.bus_halt {α : Type} (b : Bus) : (Flow.halt b : Flow α).bus = b := rfl
@[simp] theorem Flow.andThen_done {α β : Type} (a : α) (b : Bus) (k : α → Bus → Flow β) :
    (Flow.done a b).andThen k = k a b := rfl
@[simp] theorem Flow.andThen_halt {α β : Type} (b : Bus) (k : α → Bus → Flow β) :
    (Flow.halt b : Flow α).andThen k = .halt b := rfl

/-- What a first piece reaches and every continuation keeps, the whole reaches. -/
theorem Flow.andThen_bus {α β : Type} (P : Bus → Prop) (x : Flow α) (k : α → Bus → Flow β) (hx : P x.bus)
    (hk : ∀ a b, P b → P (k a b).bus) : P (x.andThen k).bus := by
  cases x with
  | done a b => exact hk a b hx
  | halt b => exact hx

/-- A piece followed by another ends well exactly through the end of the first. -/
theorem Flow.andThen_eq_done {α β : Type} {x : Flow α} {k : α → Bus → Flow β} {r : β} {b' : Bus}
    (h : x.andThen k = .done r b') : ∃ a b, x = .done a b ∧ k a b = .done r b' := by
  cases x with
  | done a b => exact ⟨a, b, rfl, h⟩
  | halt b => cases h

/-- A piece followed by another stops in the first or in the second. -/
theorem Flow.andThen_eq_halt {α β : Type} {x : Flow α} {k : α → Bus → Flow β} {b' : Bus}
    (h : x.andThen k = .halt b') : x = .halt b' ∨ ∃ a b, x = .done a b ∧ k a b = .halt b' := by
  cases x with
  | done a b => exact .inr ⟨a, b, rfl, h⟩
  | halt b => exact .inl (by simpa using h)

@[simp] theorem Bus.unlessFaulted_bus {α : Type} (b : Bus) (a : α) : (b.unlessFaulted a).bus = b := by
  unfold Bus.unlessFaulted; split <;> rfl

/-! ## Invariants -/

/-- A property of the bus that every part of an exchange keeps. -/
structure Bus.KeptByExchange (c : Config) (P : Bus → Prop) : Prop where
  answers : ∀ b a, P b → P { b with answers := a }
  take : ∀ b out, P b → P (b.devTake c out)
  xfer : ∀ b out inp, P b → P (b.emit (.xfer out inp))
  xferFail : ∀ b out, P b → P (b.emit (.xferFail out))

theorem Bus.KeptByExchange.doXfer {c : Config} {P : Bus → Prop} (h : Bus.KeptByExchange c P) (out : Byte) (b : Bus)
    (hb : P b) : P (b.doXfer c out).bus := by
  have hr := h.answers b b.answers.xferRest hb
  have hm : ∀ took, P (Bus.devMayTake c took out { b with answers := b.answers.xferRest }) := fun took => by
    unfold Bus.devMayTake; split
    · exact h.take _ _ hr
    · exact hr
  unfold Bus.doXfer
  split
  · simpa using h.xfer _ _ _ (h.take _ out hr)
  · simpa using h.xferFail _ _ (hm _)
  · exact hm _

theorem Bus.KeptByExchange.sendAll {c : Config} {P : Bus → Prop} (h : Bus.KeptByExchange c P) (out : List Byte)
    (b : Bus) (hb : P b) : P (b.sendAll c out).bus := by
  induction out generalizing b with
  | nil => exact hb
  | cons o rest ih =>
    refine Flow.andThen_bus P _ _ (h.doXfer o b hb) fun r b1 h1 => ?_
    cases r with
    | none => exact h1
    | some v => exact ih b1 h1

theorem Bus.KeptByExchange.recvAll {c : Config} {P : Bus → Prop} (h : Bus.KeptByExchange c P) (n : Nat)
    (b : Bus) (hb : P b) : P (b.recvAll c n).bus := by
  induction n generalizing b with
  | zero => exact hb
  | succ n ih =>
    refine Flow.andThen_bus P _ _ (h.doXfer c.fill b hb) fun r b1 h1 => ?_
    cases r with
    | none => exact h1
    | some v => exact Flow.andThen_bus P _ _ (ih b1 h1) fun _ b2 h2 => h2

theorem Bus.KeptByExchange.exchangeAll {c : Config} {P : Bus → Prop} (h : Bus.KeptByExchange c P) (out : List Byte)
    (n : Nat) (b : Bus) (hb : P b) : P (b.exchangeAll c out n).bus := by
  refine Flow.andThen_bus P _ _ (h.sendAll out b hb) fun ok b1 h1 => ?_
  cases ok
  · exact h1
  · exact h.recvAll n b1 h1

/-- A property that the bracket's other events keep as well. -/
structure Bus.KeptByTxn (c : Config) (P : Bus → Prop) : Prop extends Bus.KeptByExchange c P where
  claim : c.sharedBus = true → ∀ b, P b → P { b.emit .claim with claim := true }
  release : c.sharedBus = true → ∀ b, P b → P { b.emit .release with claim := false }
  select : ∀ b, P b → P b.doSelect
  deselect : ∀ b, P b → P (b.doDeselect c)

theorem Bus.KeptByTxn.doClaim {c : Config} {P : Bus → Prop} (h : Bus.KeptByTxn c P) (b : Bus) (hb : P b) :
    P (b.doClaim c).bus := by
  unfold Bus.doClaim
  split
  · rename_i hs
    split
    · exact h.answers _ _ (h.claim hs b hb)
    · exact h.answers _ _ hb
  · exact hb

theorem Bus.KeptByTxn.openTxn {c : Config} {P : Bus → Prop} (h : Bus.KeptByTxn c P) (b : Bus) (hb : P b) :
    P (b.openTxn c).bus :=
  Flow.andThen_bus P _ _ (h.doClaim b hb) fun _ b1 h1 => h.select b1 h1

theorem Bus.KeptByTxn.closeTxn {c : Config} {P : Bus → Prop} (h : Bus.KeptByTxn c P) (b : Bus) (hb : P b) :
    P (b.closeTxn c) := by
  unfold Bus.closeTxn Bus.doRelease
  split
  · rename_i hs
    exact h.release hs _ (h.deselect b hb)
  · exact h.deselect b hb

/-- Whatever the events keep, a transaction keeps, however it ends. -/
theorem Bus.KeptByTxn.txn {c : Config} {P : Bus → Prop} (h : Bus.KeptByTxn c P) (out : List Byte) (n : Nat) (b : Bus)
    (hb : P b) : P (b.txn c out n).bus := by
  refine Flow.andThen_bus P _ _ (h.openTxn b hb) fun _ b1 h1 => ?_
  exact Flow.andThen_bus P _ _ (h.toKeptByExchange.exchangeAll out n b1 h1) fun _ b2 h2 => h.closeTxn b2 h2

/-! ## Completion -/

theorem Answers.isByte_head {a : Answers} {n : Nat} (h : (a.xfers.take (n + 1)).all XferAnswer.isByte = true) :
    a.xferHead.isByte = true ∧ (a.xferRest.xfers.take n).all XferAnswer.isByte = true := by
  unfold Answers.xferHead Answers.xferRest
  cases hx : a.xfers with
  | nil => simp [XferAnswer.isByte]
  | cons x rest => simp_all

/-- The answers after `n` exchanges. -/
def Answers.afterXfers (a : Answers) : Nat → Answers
  | 0 => a
  | n + 1 => a.xferRest.afterXfers n

theorem Answers.afterXfers_add (a : Answers) (m n : Nat) : a.afterXfers (m + n) = (a.afterXfers m).afterXfers n := by
  induction m generalizing a with
  | zero => simp [Answers.afterXfers]
  | succ m ih => rw [Nat.succ_add]; exact ih _

theorem Answers.isByte_afterXfers {a : Answers} {m n : Nat}
    (h : (a.xfers.take (m + n)).all XferAnswer.isByte = true) :
    (a.xfers.take m).all XferAnswer.isByte = true ∧
      ((a.afterXfers m).xfers.take n).all XferAnswer.isByte = true := by
  induction m generalizing a with
  | zero => simpa [Answers.afterXfers] using h
  | succ m ih =>
    rw [Nat.succ_add] at h
    have := Answers.isByte_head h
    refine ⟨?_, (ih this.2).2⟩
    have h2 := (ih this.2).1
    unfold Answers.xferHead Answers.xferRest at *
    cases hx : a.xfers with
    | nil => simp
    | cons x rest => simp_all

/-- An exchange that the transport answers and the device has a meaning for. -/
theorem Bus.doXfer_completes (c : Config) (out : Byte) (b : Bus) (hf : b.faults = [])
    (hd : devFault c b.dev out = none) (ha : b.answers.xferHead.isByte = true) :
    ∃ inp, b.doXfer c out = .done (some inp)
        { b with
          trace := b.trace ++ [.xfer out inp]
          dev := devNext c b.dev out
          answers := b.answers.xferRest } ∧
      ∀ v, devMiso c b.dev = some v → inp = v := by
  unfold Bus.doXfer
  cases hx : b.answers.xferHead with
  | byte draw =>
    refine ⟨(devMiso c b.dev).getD draw, ?_, fun v hv => by simp [hv]⟩
    simp [Bus.devTake, hd, Bus.unlessFaulted, Bus.emit, hf]
  | fail took => rw [hx] at ha; simp [XferAnswer.isByte] at ha
  | hang took => rw [hx] at ha; simp [XferAnswer.isByte] at ha

/-- An exchange that fails. -/
theorem Bus.doXfer_fails (c : Config) (out : Byte) (b : Bus) (took : Bool) (hf : b.faults = [])
    (hd : devFault c b.dev out = none) (ha : b.answers.xferHead = .fail took) :
    b.doXfer c out = .done none
      { b with
        trace := b.trace ++ [.xferFail out]
        dev := if took then devNext c b.dev out else b.dev
        answers := b.answers.xferRest } := by
  unfold Bus.doXfer
  rw [ha]
  cases took <;> simp [Bus.devMayTake, Bus.devTake, hd, Bus.unlessFaulted, Bus.emit, hf]

/-- An exchange that never answers. -/
theorem Bus.doXfer_hangs (c : Config) (out : Byte) (b : Bus) (took : Bool)
    (hd : devFault c b.dev out = none) (ha : b.answers.xferHead = .hang took) :
    b.doXfer c out = .halt
      { b with
        dev := if took then devNext c b.dev out else b.dev
        answers := b.answers.xferRest } := by
  unfold Bus.doXfer
  rw [ha]
  cases took <;> simp [Bus.devMayTake, Bus.devTake, hd]

/-- Sending bytes that raise no fault, every exchange answered. -/
theorem Bus.sendAll_completes (c : Config) (out : List Byte) (b : Bus) (hf : b.faults = [])
    (hs : SafeRun c b.dev out) (ha : (b.answers.xfers.take out.length).all XferAnswer.isByte = true) :
    ∃ junk : List Byte, junk.length = out.length ∧
      b.sendAll c out = .done true
        { b with
          trace := b.trace ++ sent out junk
          dev := devRun c b.dev out
          answers := b.answers.afterXfers out.length } := by
  induction out generalizing b with
  | nil => exact ⟨[], rfl, by simp [Bus.sendAll, sent, Answers.afterXfers]⟩
  | cons o rest ih =>
    have ha := Answers.isByte_head ha
    obtain ⟨inp, hx, -⟩ := Bus.doXfer_completes c o b hf hs.1 ha.1
    obtain ⟨junk, hl, hr⟩ := ih
      { b with
        trace := b.trace ++ [.xfer o inp]
        dev := devNext c b.dev o
        answers := b.answers.xferRest } hf hs.2 ha.2
    refine ⟨inp :: junk, by simp [hl], ?_⟩
    simp only [Bus.sendAll, hx, Flow.andThen_done, hr]
    simp [sent, Answers.afterXfers]

/-- Sending in two parts. -/
theorem Bus.sendAll_append (c : Config) (xs ys : List Byte) (b : Bus) :
    b.sendAll c (xs ++ ys) =
      (b.sendAll c xs).andThen fun ok b1 => if ok then b1.sendAll c ys else .done false b1 := by
  induction xs generalizing b with
  | nil => simp [Bus.sendAll]
  | cons o rest ih =>
    simp only [List.cons_append, Bus.sendAll]
    cases b.doXfer c o with
    | halt b1 => rfl
    | done r b1 =>
      cases r with
      | none => rfl
      | some v => exact ih b1

/-- Clocking bytes in: each byte the device drives is the byte received. -/
theorem Bus.recvAll_completes (c : Config) (n : Nat) (b : Bus) (hf : b.faults = [])
    (hs : SafeRun c b.dev (List.replicate n c.fill))
    (ha : (b.answers.xfers.take n).all XferAnswer.isByte = true) :
    ∃ r : List Byte, r.length = n ∧
      b.recvAll c n = .done (some r)
        { b with
          trace := b.trace ++ received c r
          dev := devRun c b.dev (List.replicate n c.fill)
          answers := b.answers.afterXfers n } ∧
      ∀ k < n, ∀ v, devMiso c (devRun c b.dev (List.replicate k c.fill)) = some v → r[k]? = some v := by
  induction n generalizing b with
  | zero => exact ⟨[], rfl, by simp [Bus.recvAll, received, Answers.afterXfers], by simp⟩
  | succ n ih =>
    have ha := Answers.isByte_head ha
    rw [List.replicate_succ] at hs
    obtain ⟨inp, hx, hi⟩ := Bus.doXfer_completes c c.fill b hf hs.1 ha.1
    obtain ⟨r, hl, hr, hv⟩ := ih
      { b with
        trace := b.trace ++ [.xfer c.fill inp]
        dev := devNext c b.dev c.fill
        answers := b.answers.xferRest } hf hs.2 ha.2
    refine ⟨inp :: r, by simp [hl], ?_, ?_⟩
    · simp only [Bus.recvAll, hx, Flow.andThen_done, hr]
      simp [received, List.replicate_succ, Answers.afterXfers]
    · intro k hk v hm
      cases k with
      | zero => simpa using hi v hm
      | succ k =>
        rw [List.replicate_succ] at hm
        simpa using hv k (Nat.lt_of_succ_lt_succ hk) v hm

/-- Where the transport stops clocking bytes in: after `j` of them, at a failure or a hang. -/
theorem Bus.recvAll_stops (c : Config) (n j : Nat) (b : Bus) (hj : j < n) (hf : b.faults = [])
    (hs : SafeRun c b.dev (List.replicate n c.fill))
    (ha : (b.answers.xfers.take j).all XferAnswer.isByte = true) (took : Bool) :
    ∃ junk : List Byte, junk.length = j ∧
      (b.answers.xfers[j]? = some (.fail took) →
        b.recvAll c n = .done none
          { b with
            trace := b.trace ++ sent (List.replicate j c.fill) junk ++ [.xferFail c.fill]
            dev := devRun c b.dev (List.replicate (if took then j + 1 else j) c.fill)
            answers := b.answers.afterXfers (j + 1) }) ∧
      (b.answers.xfers[j]? = some (.hang took) →
        b.recvAll c n = .halt
          { b with
            trace := b.trace ++ sent (List.replicate j c.fill) junk
            dev := devRun c b.dev (List.replicate (if took then j + 1 else j) c.fill)
            answers := b.answers.afterXfers (j + 1) }) := by
  induction j generalizing b n with
  | zero =>
    obtain ⟨n, rfl⟩ : ∃ k, n = k + 1 := ⟨n - 1, by omega⟩
    rw [List.replicate_succ] at hs
    refine ⟨[], rfl, fun hx => ?_, fun hx => ?_⟩
    · have hh : b.answers.xferHead = .fail took := by
        unfold Answers.xferHead; cases hl : b.answers.xfers <;> simp_all
      simp only [Bus.recvAll, Bus.doXfer_fails c c.fill b took hf hs.1 hh, Flow.andThen_done]
      cases took <;> simp [sent, Answers.afterXfers]
    · have hh : b.answers.xferHead = .hang took := by
        unfold Answers.xferHead; cases hl : b.answers.xfers <;> simp_all
      simp only [Bus.recvAll, Bus.doXfer_hangs c c.fill b took hs.1 hh, Flow.andThen_halt]
      cases took <;> simp [sent, Answers.afterXfers]
  | succ j ih =>
    obtain ⟨n, rfl⟩ : ∃ k, n = k + 1 := ⟨n - 1, by omega⟩
    rw [List.replicate_succ] at hs
    have ha := Answers.isByte_head ha
    obtain ⟨inp, hx, -⟩ := Bus.doXfer_completes c c.fill b hf hs.1 ha.1
    obtain ⟨junk, hl, hfail, hhang⟩ := ih n
      { b with
        trace := b.trace ++ [.xfer c.fill inp]
        dev := devNext c b.dev c.fill
        answers := b.answers.xferRest } (by omega) hf hs.2 ha.2
    have hrest : b.answers.xferRest.xfers[j]? = b.answers.xfers[j + 1]? := by
      unfold Answers.xferRest; cases b.answers.xfers <;> simp
    refine ⟨inp :: junk, by simp [hl], fun h => ?_, fun h => ?_⟩
    · simp only [Bus.recvAll, hx, Flow.andThen_done, hfail (hrest.trans h)]
      cases took <;> simp [sent, List.replicate_succ, Answers.afterXfers]
    · simp only [Bus.recvAll, hx, Flow.andThen_done, hhang (hrest.trans h), Flow.andThen_halt]
      cases took <;> simp [sent, List.replicate_succ, Answers.afterXfers]

theorem Answers.afterXfers_getElem (a : Answers) (m j : Nat) : (a.afterXfers m).xfers[j]? = a.xfers[m + j]? := by
  induction m generalizing a with
  | zero => simp [Answers.afterXfers]
  | succ m ih =>
    simp only [Answers.afterXfers, ih]
    unfold Answers.xferRest
    cases a.xfers <;> simp [Nat.succ_add]

/-- Where the transport stops a list of bytes being sent: after `j` of them, at a failure or a hang. -/
theorem Bus.sendAll_stops (c : Config) (out : List Byte) (j : Nat) (b : Bus) (hj : j < out.length)
    (hf : b.faults = []) (hs : SafeRun c b.dev out)
    (ha : (b.answers.xfers.take j).all XferAnswer.isByte = true) (took : Bool) :
    ∃ junk : List Byte, junk.length = j ∧
      (b.answers.xfers[j]? = some (.fail took) →
        b.sendAll c out = .done false
          { b with
            trace := b.trace ++ sent (out.take j) junk ++ [.xferFail out[j]]
            dev := devRun c b.dev (out.take (if took then j + 1 else j))
            answers := b.answers.afterXfers (j + 1) }) ∧
      (b.answers.xfers[j]? = some (.hang took) →
        b.sendAll c out = .halt
          { b with
            trace := b.trace ++ sent (out.take j) junk
            dev := devRun c b.dev (out.take (if took then j + 1 else j))
            answers := b.answers.afterXfers (j + 1) }) := by
  induction out generalizing b j with
  | nil => simp at hj
  | cons o rest ih =>
    cases j with
    | zero =>
      refine ⟨[], rfl, fun hx => ?_, fun hx => ?_⟩
      · have hh : b.answers.xferHead = .fail took := by
          unfold Answers.xferHead; cases hl : b.answers.xfers <;> simp_all
        simp only [Bus.sendAll, Bus.doXfer_fails c o b took hf hs.1 hh, Flow.andThen_done]
        cases took <;> simp [sent, Answers.afterXfers]
      · have hh : b.answers.xferHead = .hang took := by
          unfold Answers.xferHead; cases hl : b.answers.xfers <;> simp_all
        simp only [Bus.sendAll, Bus.doXfer_hangs c o b took hs.1 hh, Flow.andThen_halt]
        cases took <;> simp [sent, Answers.afterXfers]
    | succ j =>
      have ha := Answers.isByte_head ha
      obtain ⟨inp, hx, -⟩ := Bus.doXfer_completes c o b hf hs.1 ha.1
      obtain ⟨junk, hl, hfail, hhang⟩ := ih j
        { b with
          trace := b.trace ++ [.xfer o inp]
          dev := devNext c b.dev o
          answers := b.answers.xferRest } (by simpa using hj) hf hs.2 ha.2
      have hrest : b.answers.xferRest.xfers[j]? = b.answers.xfers[j + 1]? := by
        unfold Answers.xferRest; cases b.answers.xfers <;> simp
      refine ⟨inp :: junk, by simp [hl], fun h => ?_, fun h => ?_⟩
      · simp only [Bus.sendAll, hx, Flow.andThen_done, hfail (hrest.trans h)]
        cases took <;> simp [sent, Answers.afterXfers]
      · simp only [Bus.sendAll, hx, Flow.andThen_done, hhang (hrest.trans h)]
        cases took <;> simp [sent, Answers.afterXfers]

theorem sent_append (xs ys as bs : List Byte) (h : as.length = xs.length) :
    sent (xs ++ ys) (as ++ bs) = sent xs as ++ sent ys bs := by
  unfold sent
  exact List.zipWith_append h.symm

/-- The exchanges of a frame that raises no fault, every one answered. -/
theorem Bus.exchangeAll_completes (c : Config) (out : List Byte) (n : Nat) (b : Bus) (hf : b.faults = [])
    (hs : SafeRun c b.dev (wireBytes c out n))
    (ha : (b.answers.xfers.take (out.length + n)).all XferAnswer.isByte = true) :
    ∃ junk r : List Byte, junk.length = out.length ∧ r.length = n ∧
      b.exchangeAll c out n = .done (some r)
        { b with
          trace := b.trace ++ (sent out junk ++ received c r)
          dev := devRun c b.dev (wireBytes c out n)
          answers := b.answers.afterXfers (out.length + n) } ∧
      ∀ k < n, ∀ v, devMiso c (devRun c b.dev (wireBytes c out k)) = some v → r[k]? = some v := by
  obtain ⟨h1, h2⟩ := SafeRun.append.mp hs
  obtain ⟨a1, a2⟩ := Answers.isByte_afterXfers ha
  obtain ⟨junk, hl, hr⟩ := Bus.sendAll_completes c out b hf h1 a1
  obtain ⟨r, hl', hr', hv⟩ := Bus.recvAll_completes c n
    { b with
      trace := b.trace ++ sent out junk
      dev := devRun c b.dev out
      answers := b.answers.afterXfers out.length } hf h2 a2
  refine ⟨junk, r, hl, hl', ?_, fun k hk v hm => hv k hk v ?_⟩
  · simp only [Bus.exchangeAll, hr, Flow.andThen_done, if_true, hr']
    simp [wireBytes, devRun_append, Answers.afterXfers_add]
  · simpa [wireBytes, devRun_append] using hm

/-- Where the transport stops the exchanges of a frame: after `j` of them, at a failure or a hang. -/
theorem Bus.exchangeAll_stops (c : Config) (out : List Byte) (n j : Nat) (b : Bus) (hj : j < out.length + n)
    (hf : b.faults = []) (hs : SafeRun c b.dev (wireBytes c out n))
    (ha : (b.answers.xfers.take j).all XferAnswer.isByte = true) (took : Bool) :
    ∃ (junk : List Byte) (o : Byte), junk.length = j ∧ (wireBytes c out n)[j]? = some o ∧
      (b.answers.xfers[j]? = some (.fail took) →
        b.exchangeAll c out n = .done none
          { b with
            trace := b.trace ++ (sent ((wireBytes c out n).take j) junk ++ [.xferFail o])
            dev := devRun c b.dev ((wireBytes c out n).take (if took then j + 1 else j))
            answers := b.answers.afterXfers (j + 1) }) ∧
      (b.answers.xfers[j]? = some (.hang took) →
        b.exchangeAll c out n = .halt
          { b with
            trace := b.trace ++ sent ((wireBytes c out n).take j) junk
            dev := devRun c b.dev ((wireBytes c out n).take (if took then j + 1 else j))
            answers := b.answers.afterXfers (j + 1) }) := by
  obtain ⟨h1, h2⟩ := SafeRun.append.mp hs
  by_cases hjo : j < out.length
  · obtain ⟨junk, hl, hfail, hhang⟩ := Bus.sendAll_stops c out j b hjo hf h1 ha took
    have ht : ∀ k, k ≤ out.length → (wireBytes c out n).take k = out.take k := fun k hk => by
      simp [wireBytes, List.take_append, Nat.sub_eq_zero_of_le hk]
    have hk : (if took = true then j + 1 else j) ≤ out.length := by split <;> omega
    refine ⟨junk, out[j], hl, ?_, fun h => ?_, fun h => ?_⟩
    · rw [wireBytes, List.getElem?_append_left hjo, List.getElem?_eq_getElem hjo]
    · simp only [Bus.exchangeAll, hfail h, Flow.andThen_done, ht j hjo.le, ht _ hk]
      simp
    · simp only [Bus.exchangeAll, hhang h, Flow.andThen_halt, ht j hjo.le, ht _ hk]
  · obtain ⟨m, rfl⟩ : ∃ m, j = out.length + m := ⟨j - out.length, by omega⟩
    obtain ⟨a1, a2⟩ := Answers.isByte_afterXfers ha
    obtain ⟨junk, hl, hr⟩ := Bus.sendAll_completes c out b hf h1 a1
    obtain ⟨junk', hl', hfail, hhang⟩ := Bus.recvAll_stops c n m
      { b with
        trace := b.trace ++ sent out junk
        dev := devRun c b.dev out
        answers := b.answers.afterXfers out.length } (by omega) hf h2 a2 took
    have ht : ∀ k, k ≤ n → (wireBytes c out n).take (out.length + k) = out ++ List.replicate k c.fill := fun k hk => by
      simp [wireBytes, List.take_append, Nat.min_eq_left hk]
    have hm : (if took = true then m + 1 else m) ≤ n := by split <;> omega
    have hadd : (if took = true then out.length + m + 1 else out.length + m) =
        out.length + (if took = true then m + 1 else m) := by cases took <;> simp [Nat.add_assoc]
    refine ⟨junk ++ junk', c.fill, by simp [hl, hl'], ?_, fun h => ?_, fun h => ?_⟩
    · have hmn : m < n := by omega
      rw [wireBytes, List.getElem?_append_right (Nat.le_add_right _ _)]
      simp [hmn]
    · have h' : (b.answers.afterXfers out.length).xfers[m]? = some (.fail took) := by
        rw [Answers.afterXfers_getElem]; exact h
      simp only [Bus.exchangeAll, hr, Flow.andThen_done, if_true, hfail h', hadd, ht m (by omega), ht _ hm]
      simp [sent_append _ _ _ _ hl, devRun_append, Nat.add_assoc, Answers.afterXfers_add]
    · have h' : (b.answers.afterXfers out.length).xfers[m]? = some (.hang took) := by
        rw [Answers.afterXfers_getElem]; exact h
      simp only [Bus.exchangeAll, hr, Flow.andThen_done, if_true, hhang h', hadd, ht m (by omega), ht _ hm]
      simp [sent_append _ _ _ _ hl, devRun_append, Nat.add_assoc, Answers.afterXfers_add]

/-! ## The bracket -/

/-- Every byte asked for has been received where clocking in completes. -/
theorem Bus.recvAll_length {c : Config} {n : Nat} {b b' : Bus} {r : List Byte}
    (h : b.recvAll c n = .done (some r) b') : r.length = n := by
  induction n generalizing b b' r with
  | zero => simp only [Bus.recvAll, Flow.done.injEq, Option.some.injEq] at h; simp [← h.1]
  | succ n ih =>
    obtain ⟨o, b1, -, h⟩ := Flow.andThen_eq_done h
    cases o with
    | none => simp at h
    | some v =>
      obtain ⟨o, b2, h2, h⟩ := Flow.andThen_eq_done h
      cases o with
      | none => simp at h
      | some vs => 
        simp only [Option.map_some, Flow.done.injEq, Option.some.injEq] at h
        simp [← h.1, ih h2]

/-- An exchange that answers has raised no fault (R143). -/
theorem Bus.doXfer_faults {c : Config} {out : Byte} {b b' : Bus} {r : Option Byte}
    (h : b.doXfer c out = .done r b') : b'.faults = [] := by
  have hu : ∀ {b1 : Bus} {a : Option Byte}, b1.unlessFaulted a = .done r b' → b'.faults = [] := fun {b1 a} h => by
    unfold Bus.unlessFaulted at h
    split at h
    · simp only [Flow.done.injEq] at h
      rw [← h.2]
      assumption
    · cases h
  unfold Bus.doXfer at h
  simp only at h
  split at h
  · exact hu h
  · exact hu h
  · cases h

theorem Bus.sendAll_faults {c : Config} {out : List Byte} {b b' : Bus} {ok : Bool} (hb : b.faults = [])
    (h : b.sendAll c out = .done ok b') : b'.faults = [] := by
  induction out generalizing b with
  | nil => cases h; exact hb
  | cons o rest ih =>
    obtain ⟨r, b1, h1, h⟩ := Flow.andThen_eq_done h
    have := Bus.doXfer_faults h1
    cases r with
    | none => cases h; exact this
    | some v => exact ih this h

theorem Bus.recvAll_faults {c : Config} {n : Nat} {b b' : Bus} {r : Option (List Byte)} (hb : b.faults = [])
    (h : b.recvAll c n = .done r b') : b'.faults = [] := by
  induction n generalizing b b' r with
  | zero => cases h; exact hb
  | succ n ih =>
    obtain ⟨o, b1, h1, h⟩ := Flow.andThen_eq_done h
    have := Bus.doXfer_faults h1
    cases o with
    | none => cases h; exact this
    | some v =>
      obtain ⟨o, b2, h2, h⟩ := Flow.andThen_eq_done h
      cases h
      exact ih this h2

/-- A transaction that returns has raised no fault (R143). -/
theorem Bus.txn_faults {c : Config} {out : List Byte} {n : Nat} {b b' : Bus} {r : Option (List Byte)}
    (hb : b.faults = []) (h : b.txn c out n = .done r b') : b'.faults = [] := by
  obtain ⟨_, b1, h1, h⟩ := Flow.andThen_eq_done h
  obtain ⟨o, b2, h2, h⟩ := Flow.andThen_eq_done h
  have hf1 : b1.faults = [] := by
    obtain ⟨_, b0, h0, h1⟩ := Flow.andThen_eq_done h1
    cases h1
    unfold Bus.doClaim at h0
    split at h0
    · split at h0 <;> cases h0
      exact hb
    · cases h0; exact hb
  have hf2 : b2.faults = [] := by
    obtain ⟨ok, b3, h3, h2⟩ := Flow.andThen_eq_done h2
    have := Bus.sendAll_faults hf1 h3
    cases ok
    · cases h2; exact this
    · exact Bus.recvAll_faults this h2
  cases h
  unfold Bus.closeTxn Bus.doRelease
  split <;> exact hf2

/-- A completed transaction hands on as many bytes as it clocked in. -/
theorem Bus.txn_length {c : Config} {out : List Byte} {n : Nat} {b b' : Bus} {r : List Byte}
    (h : b.txn c out n = .done (some r) b') : r.length = n := by
  obtain ⟨-, b1, -, h⟩ := Flow.andThen_eq_done h
  obtain ⟨o, b2, h2, h⟩ := Flow.andThen_eq_done h
  cases o with
  | none => simp at h
  | some r' =>
    obtain ⟨ok, b3, -, h3⟩ := Flow.andThen_eq_done h2
    cases ok
    · simp at h3
    · simp only [Flow.done.injEq, Option.some.injEq] at h
      rw [← h.1]
      exact Bus.recvAll_length h3

/-- The bus after claim and select (R57). -/
def Bus.opened (c : Config) (b : Bus) : Bus :=
  { b with
    cs := true
    claim := if c.sharedBus then true else b.claim
    trace := b.trace ++ ((if c.sharedBus then [.claim] else []) ++ [.select])
    dev := devSelect b.gp b.dev
    answers := if c.sharedBus then b.answers.claimRest else b.answers }

theorem Bus.openTxn_completes (c : Config) (b : Bus) (hc : c.sharedBus = true → b.answers.claimHead = true) :
    b.openTxn c = .done () (b.opened c) := by
  unfold Bus.openTxn Bus.doClaim Bus.opened
  by_cases hs : c.sharedBus = true
  · simp [hs, hc hs, Bus.doSelect, Bus.emit]
  · simp [hs, Bus.doSelect, Bus.emit]

theorem Bus.openTxn_hangs (c : Config) (b : Bus) (hs : c.sharedBus = true) (hc : b.answers.claimHead = false) :
    b.openTxn c = .halt { b with answers := b.answers.claimRest } := by
  simp [Bus.openTxn, Bus.doClaim, hs, hc]

@[simp] theorem Bus.opened_xfers (c : Config) (b : Bus) : (b.opened c).answers.xfers = b.answers.xfers := by
  unfold Bus.opened; simp only; split <;> rfl
@[simp] theorem Bus.opened_faults (c : Config) (b : Bus) : (b.opened c).faults = b.faults := rfl
@[simp] theorem Bus.opened_gp (c : Config) (b : Bus) : (b.opened c).gp = b.gp := rfl
@[simp] theorem Bus.opened_dev (c : Config) (b : Bus) : (b.opened c).dev = devSelect b.gp b.dev := rfl
@[simp] theorem Bus.opened_cs (c : Config) (b : Bus) : (b.opened c).cs = true := rfl

theorem devSelect_dph (d : Device) : (devSelect .active d).dph = .opc := rfl

/-- The device a frame leaves before DESELECT: selected awake, then the bytes exchanged. -/
def devAfter (c : Config) (d : Device) (bytes : List Byte) : Device := devRun c (devSelect .active d) bytes

/-- A frame on an awake device, every exchange answered: the whole transaction (R57, R58, R60). -/
theorem Bus.txn_completes (c : Config) (op : Byte) (rest : List Byte) (n : Nat) (b : Bus) (hf : b.faults = [])
    (hg : b.gp = .active) (ho : op ∈ wireOpcodes) (hc : c.sharedBus = true → b.answers.claimHead = true)
    (ha : (b.answers.xfers.take ((op :: rest).length + n)).all XferAnswer.isByte = true) :
    ∃ r b', r.length = n ∧ b.txn c (op :: rest) n = .done (some r) b' ∧
      (∃ ev, b'.trace = b.trace ++ ev ∧ FrameTrace c (op :: rest) r ev) ∧
      b'.faults = [] ∧ Bus.Released c b b' ∧
      b'.dev = devDeselect c (devAfter c b.dev (wireBytes c (op :: rest) n)) ∧
      b'.gp = devDeselectPower (devAfter c b.dev (wireBytes c (op :: rest) n)) .active ∧
      b'.answers = (b.opened c).answers.afterXfers ((op :: rest).length + n) ∧
      ∀ k < n, ∀ v, devMiso c (devAfter c b.dev (wireBytes c (op :: rest) k)) = some v → r[k]? = some v := by
  have hd : (b.opened c).dev = devSelect .active b.dev := by rw [Bus.opened_dev, hg]
  obtain ⟨junk, r, hl, hl', hx, hv⟩ := Bus.exchangeAll_completes c (op :: rest) n (b.opened c) hf
    (by rw [hd]; exact safeRun_frame c _ op _ (devSelect_dph _) ho) (by simpa using ha)
  rw [hd] at hx hv
  refine ⟨r, Bus.closeTxn c
    { (b.opened c) with
      trace := (b.opened c).trace ++ (sent (op :: rest) junk ++ received c r)
      dev := devAfter c b.dev (wireBytes c (op :: rest) n)
      answers := (b.opened c).answers.afterXfers ((op :: rest).length + n) }, hl', ?_, ⟨_, ?_, junk, hl, rfl⟩, ?_, ?_, ?_, ?_, ?_, hv⟩
  · simp only [Bus.txn, Bus.openTxn_completes c b hc, Flow.andThen_done, hx]
    rfl
  · simp [Bus.opened, bracket]
  · simpa using hf
  · exact ⟨by simp, by by_cases h : c.sharedBus = true <;> simp [Bus.opened, h]⟩
  · simp [devAfter]
  · simp [devAfter, hg]
  · simp

/-- A frame on an awake device whose exchange `j` fails (R57, R58). -/
theorem Bus.txn_fails (c : Config) (op : Byte) (rest : List Byte) (n j : Nat) (b : Bus) (took : Bool)
    (hj : j < (op :: rest).length + n) (hf : b.faults = []) (hg : b.gp = .active) (ho : op ∈ wireOpcodes)
    (hc : c.sharedBus = true → b.answers.claimHead = true)
    (ha : (b.answers.xfers.take j).all XferAnswer.isByte = true) (hx : b.answers.xfers[j]? = some (.fail took)) :
    ∃ b', b.txn c (op :: rest) n = .done none b' ∧
      (∃ ev, b'.trace = b.trace ++ ev ∧ FailedTrace c (op :: rest) n j ev) ∧
      b'.faults = [] ∧ Bus.Released c b b' ∧
      b'.dev = devDeselect c
        (devAfter c b.dev ((wireBytes c (op :: rest) n).take (if took then j + 1 else j))) ∧
      b'.gp = devDeselectPower
        (devAfter c b.dev ((wireBytes c (op :: rest) n).take (if took then j + 1 else j))) .active := by
  have hd : (b.opened c).dev = devSelect .active b.dev := by rw [Bus.opened_dev, hg]
  obtain ⟨junk, o, hl, ho', hfail, -⟩ := Bus.exchangeAll_stops c (op :: rest) n j (b.opened c) hj hf
    (by rw [hd]; exact safeRun_frame c _ op _ (devSelect_dph _) ho) (by simpa using ha) took
  have hfail := hfail (by simpa using hx)
  rw [hd] at hfail
  refine ⟨Bus.closeTxn c
    { (b.opened c) with
      trace := (b.opened c).trace ++ (sent ((wireBytes c (op :: rest) n).take j) junk ++ [.xferFail o])
      dev := devAfter c b.dev ((wireBytes c (op :: rest) n).take (if took then j + 1 else j))
      answers := (b.opened c).answers.afterXfers (j + 1) }, ?_, ⟨_, ?_, junk, o, hl, ho', rfl⟩, ?_, ?_, ?_, ?_⟩
  · simp only [Bus.txn, Bus.openTxn_completes c b hc, Flow.andThen_done, hfail]
    rfl
  · simp [Bus.opened, bracket]
  · simpa using hf
  · exact ⟨by simp, by by_cases h : c.sharedBus = true <;> simp [Bus.opened, h]⟩
  · simp [devAfter]
  · simp [devAfter, hg]

/-- A frame on an awake device whose exchange `j` never answers (R58, R144). -/
theorem Bus.txn_hangs (c : Config) (op : Byte) (rest : List Byte) (n j : Nat) (b : Bus) (took : Bool)
    (hj : j < (op :: rest).length + n) (hf : b.faults = []) (hg : b.gp = .active) (ho : op ∈ wireOpcodes)
    (hc : c.sharedBus = true → b.answers.claimHead = true)
    (ha : (b.answers.xfers.take j).all XferAnswer.isByte = true) (hx : b.answers.xfers[j]? = some (.hang took)) :
    ∃ b', b.txn c (op :: rest) n = .halt b' ∧
      (∃ ev, b'.trace = b.trace ++ ev ∧ HungTrace c (op :: rest) n j ev) ∧
      b'.faults = [] ∧ b'.cs = true ∧ b'.claim = (if c.sharedBus then true else b.claim) ∧ b'.gp = b.gp := by
  have hd : (b.opened c).dev = devSelect .active b.dev := by rw [Bus.opened_dev, hg]
  obtain ⟨junk, o, hl, -, -, hhang⟩ := Bus.exchangeAll_stops c (op :: rest) n j (b.opened c) hj hf
    (by rw [hd]; exact safeRun_frame c _ op _ (devSelect_dph _) ho) (by simpa using ha) took
  have hhang := hhang (by simpa using hx)
  rw [hd] at hhang
  refine ⟨{ (b.opened c) with
      trace := (b.opened c).trace ++ sent ((wireBytes c (op :: rest) n).take j) junk
      dev := devAfter c b.dev ((wireBytes c (op :: rest) n).take (if took then j + 1 else j))
      answers := (b.opened c).answers.afterXfers (j + 1) }, ?_, ⟨_, ?_, junk, hl, rfl⟩, ?_, ?_, ?_, ?_⟩
  · simp only [Bus.txn, Bus.openTxn_completes c b hc, Flow.andThen_done, hhang, Flow.andThen_halt]
    rfl
  · simp [Bus.opened]
  · simpa using hf
  · rfl
  · rfl
  · rfl

/-- A transaction whose claim never returns (R56, R144). -/
theorem Bus.txn_claim_hangs (c : Config) (out : List Byte) (n : Nat) (b : Bus) (hs : c.sharedBus = true)
    (hc : b.answers.claimHead = false) : b.txn c out n = .halt { b with answers := b.answers.claimRest } := by
  simp [Bus.txn, Bus.openTxn_hangs c b hs hc]

/-! ## What a piece that ended has put on TRACE, whatever the transport answered -/

@[simp] theorem Bus.devTake_trace (c : Config) (out : Byte) (b : Bus) : (b.devTake c out).trace = b.trace := by
  unfold Bus.devTake; simp only; split <;> rfl
@[simp] theorem Bus.devMayTake_trace (c : Config) (took : Bool) (out : Byte) (b : Bus) :
    (b.devMayTake c took out).trace = b.trace := by
  unfold Bus.devMayTake; split
  · exact Bus.devTake_trace c out b
  · rfl

theorem Bus.unlessFaulted_done {α : Type} {b b' : Bus} {a r : α} (h : b.unlessFaulted a = .done r b') :
    r = a ∧ b' = b := by
  unfold Bus.unlessFaulted at h
  split at h
  · simp only [Flow.done.injEq] at h; exact ⟨h.1.symm, h.2.symm⟩
  · cases h

/-- An exchange that ended: the one event it issued (R55, R56). -/
theorem Bus.doXfer_trace {c : Config} {out : Byte} {b b' : Bus} {r : Option Byte} (h : b.doXfer c out = .done r b') :
    b'.trace = b.trace ++ [r.elim (.xferFail out) (.xfer out)] := by
  unfold Bus.doXfer at h
  simp only at h
  split at h
  · obtain ⟨rfl, rfl⟩ := Bus.unlessFaulted_done h
    simp
  · obtain ⟨rfl, rfl⟩ := Bus.unlessFaulted_done h
    simp
  · cases h

/-- Sending that ended: every byte sent, or an exchange failed. -/
theorem Bus.sendAll_trace {c : Config} {out : List Byte} {b b' : Bus} {ok : Bool} (h : b.sendAll c out = .done ok b') :
    ∃ ev, b'.trace = b.trace ++ ev ∧
      if ok then ∃ junk : List Byte, junk.length = out.length ∧ ev = sent out junk else ∃ o, Event.xferFail o ∈ ev := by
  induction out generalizing b with
  | nil => cases h; exact ⟨[], by simp, [], rfl, rfl⟩
  | cons o rest ih =>
    obtain ⟨r, b1, h1, h⟩ := Flow.andThen_eq_done h
    have ht := Bus.doXfer_trace h1
    cases r with
    | none => cases h; exact ⟨_, ht, o, by simp⟩
    | some v =>
      obtain ⟨ev, h2, h3⟩ := ih h
      refine ⟨.xfer o v :: ev, by rw [h2, ht]; simp, ?_⟩
      cases ok
      · obtain ⟨p, hp⟩ := h3
        exact ⟨p, List.mem_cons_of_mem _ hp⟩
      · obtain ⟨junk, hl, rfl⟩ := h3
        exact ⟨v :: junk, by simp [hl], rfl⟩

/-- Clocking in that ended: the bytes received stand on TRACE, or an exchange failed. -/
theorem Bus.recvAll_trace {c : Config} {n : Nat} {b b' : Bus} {r : Option (List Byte)}
    (h : b.recvAll c n = .done r b') :
    ∃ ev, b'.trace = b.trace ++ ev ∧
      r.elim (∃ o, Event.xferFail o ∈ ev) fun bs => ev = received c bs := by
  induction n generalizing b b' r with
  | zero => cases h; exact ⟨[], by simp, rfl⟩
  | succ n ih =>
    obtain ⟨o, b1, h1, h⟩ := Flow.andThen_eq_done h
    have ht := Bus.doXfer_trace h1
    cases o with
    | none => cases h; exact ⟨_, ht, c.fill, by simp⟩
    | some v =>
      obtain ⟨o, b2, h2, h⟩ := Flow.andThen_eq_done h
      cases h
      obtain ⟨ev, h3, h4⟩ := ih h2
      refine ⟨.xfer c.fill v :: ev, by rw [h3, ht]; simp, ?_⟩
      cases o with
      | none => obtain ⟨p, hp⟩ := h4; exact ⟨p, List.mem_cons_of_mem _ hp⟩
      | some bs => exact congrArg (Event.xfer c.fill v :: ·) h4

theorem Bus.openTxn_trace {c : Config} {b b' : Bus} (h : b.openTxn c = .done () b') :
    b'.trace = b.trace ++ ((if c.sharedBus then [.claim] else []) ++ [.select]) := by
  obtain ⟨_, b0, h0, h⟩ := Flow.andThen_eq_done h
  cases h
  unfold Bus.doClaim at h0
  by_cases hs : c.sharedBus = true
  · rw [if_pos hs] at h0
    split at h0 <;> cases h0
    simp [hs]
  · rw [if_neg hs] at h0
    cases h0
    simp [hs]

/-- A transaction that returned: the trace of its completed frame, or an exchange of it failed (R57, R140). -/
theorem Bus.txn_trace {c : Config} {out : List Byte} {n : Nat} {b b' : Bus} {r : Option (List Byte)}
    (h : b.txn c out n = .done r b') :
    ∃ ev, b'.trace = b.trace ++ ev ∧
      r.elim (∃ o, Event.xferFail o ∈ ev) fun bs => FrameTrace c out bs ev := by
  obtain ⟨_, b1, h1, h⟩ := Flow.andThen_eq_done h
  obtain ⟨o, b2, h2, h⟩ := Flow.andThen_eq_done h
  cases h
  have t1 := Bus.openTxn_trace h1
  obtain ⟨ok, b3, h3, h4⟩ := Flow.andThen_eq_done h2
  obtain ⟨ev, t3, hev⟩ := Bus.sendAll_trace h3
  cases ok with
  | false =>
    cases h4
    obtain ⟨p, hp⟩ := hev
    exact ⟨bracket c ev, by rw [Bus.closeTxn_trace, t3, t1]; simp [bracket], p, by simp [bracket, hp]⟩
  | true =>
    obtain ⟨junk, hl, rfl⟩ := hev
    obtain ⟨ev', t4, hev'⟩ := Bus.recvAll_trace h4
    refine ⟨bracket c (sent out junk ++ ev'), by rw [Bus.closeTxn_trace, t4, t3, t1]; simp [bracket], ?_⟩
    cases r with
    | none => obtain ⟨p, hp⟩ := hev'; exact ⟨p, by simp [bracket, hp]⟩
    | some bs =>
      exact ⟨junk, hl, congrArg (fun e => bracket c (sent out junk ++ e)) hev'⟩

/-- A completed frame's trace holds no failure, and the frame's bytes received can be read off it (R60). -/
theorem FrameTrace.no_fail {c : Config} {out r : List Byte} {ev : List Event} (h : FrameTrace c out r ev) (o : Byte) :
    Event.xferFail o ∉ ev := by
  obtain ⟨junk, -, rfl⟩ := h
  have hz : ∀ xs ys : List Byte, Event.xferFail o ∉ List.zipWith Event.xfer xs ys := fun xs ys hm => by
    rw [List.mem_iff_getElem] at hm
    obtain ⟨i, hi, hm⟩ := hm
    simp at hm
  unfold bracket sent received
  split <;> simp [hz]

theorem FrameTrace.received_eq {c : Config} {out r r' : List Byte} {ev : List Event} (h : FrameTrace c out r ev)
    (h' : FrameTrace c out r' ev) : r = r' := by
  obtain ⟨junk, hl, rfl⟩ := h
  obtain ⟨junk', hl', he⟩ := h'
  simp only [bracket, List.append_assoc, List.append_cancel_left_eq, List.cons_append, List.nil_append,
    List.cons.injEq, true_and] at he
  have he := (List.append_inj he (by simp [sent, hl, hl'])).2
  have he := List.append_cancel_right he
  unfold received at he
  exact List.map_injective_iff.mpr (fun _ _ h => by simpa using h) he

end Sys2Proof.Machine
end

