-- ==== Sys2Proof/Laws/Commands.lean ====
section
/-! SUPPORT. What accepting, running and ending a command can do. -/

namespace Sys2Proof.Machine

/-- The engine takes a command exactly where nothing bars it. -/
theorem State.barred_eq_none (s : State) : s.barred = none ↔ s.Ready := by
  unfold State.barred State.Ready
  by_cases hu : s.cfg.UniqueKeys
  · cases hf : s.bus.faults with
    | nil => by_cases hs : s.seq = .idle <;> simp [hs, hu]
    | cons f fs => simp [hu]
  · simp [hu]

/-- What `runCommand` does where the engine takes a command. -/
theorem runCommand_ready (i : Instr) (s : State) (rule : State → Ended) (h : s.Ready) :
    runCommand i s rule = commandEnd i s (rule { s with seq := .busy i 0 }) := by
  unfold runCommand
  rw [(State.barred_eq_none s).mpr h]

/-- What `runFrame` does where the engine takes a command. -/
theorem runFrame_ready (i : Instr) (s : State) (out : List Byte) (n : Nat) (h : s.Ready) :
    runFrame i s out n = rawFrameEnd i s (s.bus.txn s.cfg out n) := by
  unfold runFrame
  rw [(State.barred_eq_none s).mpr h]

@[simp] theorem commandEnd_returned (i : Instr) (s t : State) (k : ResultCode) (d : ResultData) :
    commandEnd i s (.returned t k d) = .next (t.ret k d) := rfl
@[simp] theorem commandEnd_halted (i : Instr) (s t : State) :
    commandEnd i s (.halted t) = .next { t with seq := .busy i (eventsSince s.bus t.bus) } := rfl
@[simp] theorem rawFrameEnd_done (i : Instr) (s : State) (r : Option (List Byte)) (b : Bus) :
    rawFrameEnd i s (.done r b) = .next { s with bus := b } := rfl
@[simp] theorem rawFrameEnd_halt (i : Instr) (s : State) (b : Bus) :
    rawFrameEnd i s (.halt b) = .next { s with bus := b, seq := .busy i (eventsSince s.bus b) } := rfl

theorem State.barred_ne_next {s t : State} : s.barred ≠ some (.next t) := by
  unfold State.barred
  repeat' split
  all_goals simp

/-- Everything a command can do: if it answers a next state, it was taken, and its rule returned or the engine stopped. -/
theorem runCommand_next {i : Instr} {s t : State} {rule : State → Ended} (h : runCommand i s rule = .next t) :
    s.Ready ∧
      ((∃ u code data, rule { s with seq := .busy i 0 } = .returned u code data ∧ t = u.ret code data) ∨
        ∃ u, rule { s with seq := .busy i 0 } = .halted u ∧
          t = { u with seq := .busy i (eventsSince s.bus u.bus) }) := by
  have hr : s.Ready := by
    rw [← State.barred_eq_none]
    unfold runCommand at h
    split at h
    · rename_i o ho
      subst h
      exact absurd ho State.barred_ne_next
    · assumption
  refine ⟨hr, ?_⟩
  rw [runCommand_ready i s rule hr] at h
  cases hu : rule { s with seq := .busy i 0 } with
  | returned u code data =>
    rw [hu] at h
    exact .inl ⟨u, code, data, rfl, by simpa using h.symm⟩
  | halted u =>
    rw [hu] at h
    exact .inr ⟨u, rfl, by simpa using h.symm⟩

/-- Everything a raw frame can do. -/
theorem runFrame_next {i : Instr} {s t : State} {out : List Byte} {n : Nat} (h : runFrame i s out n = .next t) :
    s.Ready ∧
      ((∃ r b, s.bus.txn s.cfg out n = .done r b ∧ t = { s with bus := b }) ∨
        ∃ b, s.bus.txn s.cfg out n = .halt b ∧ t = { s with bus := b, seq := .busy i (eventsSince s.bus b) }) := by
  have hr : s.Ready := by
    rw [← State.barred_eq_none]
    unfold runFrame at h
    split at h
    · rename_i o ho
      subst h
      exact absurd ho State.barred_ne_next
    · assumption
  refine ⟨hr, ?_⟩
  rw [runFrame_ready i s out n hr] at h
  cases hb : s.bus.txn s.cfg out n with
  | done r b =>
    rw [hb] at h
    exact .inl ⟨r, b, rfl, by simpa using h.symm⟩
  | halt b =>
    rw [hb] at h
    exact .inr ⟨b, rfl, by simpa using h.symm⟩

/-- The state a rule ends in. -/
def Ended.state : Ended → State
  | .returned s _ _ => s
  | .halted s => s

@[simp] theorem Ended.state_returned (s : State) (k : ResultCode) (d : ResultData) :
    (Ended.returned s k d).state = s := rfl
@[simp] theorem Ended.state_halted (s : State) : (Ended.halted s).state = s := rfl

theorem State.awakeCheck_active (s : State) (k : State → Ended) (h : s.bus.gp = .active) : s.awakeCheck k = k s := by
  simp [State.awakeCheck, h]

theorem State.awakeCheck_faults (s : State) (k : State → Ended) (h : s.bus.gp ≠ .active) :
    s.awakeCheck k = .halted (s.raise .asleepAccess) := by simp [State.awakeCheck, h]

theorem State.memGate_unset (s : State) (k : State → Ended) (h : s.aw = 0) :
    s.memGate k = .returned s .unsupportedDevice .none := by simp [State.memGate, h]

theorem State.memGate_set (s : State) (k : State → Ended) (h : s.aw ≠ 0) : s.memGate k = s.awakeCheck k :=
  if_neg h

/-- A transaction of a command that completes. -/
theorem State.transactOr_done {s : State} {out : List Byte} {n : Nat} {onFail : State → Ended}
    {k : State → List Byte → Ended} {r : List Byte} {b : Bus} (h : s.bus.txn s.cfg out n = .done (some r) b) :
    s.transactOr out n onFail k = k { s with bus := b } r := by simp [State.transactOr, h]

/-- What a transaction ends in, whichever way: the bus of the transaction handed to one continuation, or kept. -/
theorem State.transactOr_cases (s : State) (out : List Byte) (n : Nat) (onFail : State → Ended)
    (k : State → List Byte → Ended) :
    (∃ b, s.bus.txn s.cfg out n = .halt b ∧ s.transactOr out n onFail k = .halted { s with bus := b }) ∨
      (∃ b, s.bus.txn s.cfg out n = .done none b ∧ s.transactOr out n onFail k = onFail { s with bus := b }) ∨
      ∃ r b, s.bus.txn s.cfg out n = .done (some r) b ∧ s.transactOr out n onFail k = k { s with bus := b } r := by
  unfold State.transactOr
  cases h : s.bus.txn s.cfg out n with
  | halt b => exact .inl ⟨b, rfl, rfl⟩
  | done r b =>
    cases r with
    | none => exact .inr (.inl ⟨b, rfl, rfl⟩)
    | some r => exact .inr (.inr ⟨r, b, rfl, rfl⟩)

end Sys2Proof.Machine
end

