-- ==== Sys2Proof/Laws/Frames.lean ====
section
/-! SUPPORT. What an instruction can do, by the shape of its rule: return early, fault on a sleeping device, run its frame, or wake. -/

namespace Sys2Proof.Machine

/-- The bus at which a command's transaction begins: after the handshake of `initialize` (R103), else as it is. -/
def State.busAtFrame (s : State) (i : Instr) : Bus := if i = .hostInitialize then s.bus.tbegin.2 else s.bus

/-- The state a failed transaction leaves (R140, R131); a raw frame writes no result. -/
def State.afterFailure (s : State) (i : Instr) (b : Bus) : State :=
  if isWire i then { s with bus := b }
  else
    { s with
      bus := if i = .hostSleep then { b with gp := .unknown } else b
      result := some { code := .transferFailed, data := .none } }

/-- The state a completed transaction leaves, `r` being the bytes received; the command's own rule. -/
def State.afterFrame (s : State) (i : Instr) (b : Bus) (r : List Byte) : State :=
  match i with
  | .wireWren | .wireWrdi | .wireRdsr | .wireWrsr _ | .wireRead _ _ | .wireWrite _ _ | .wireRdid | .wireSleep =>
    { s with bus := b }
  | .hostInitialize =>
    match lookup s.cfg (decodeIDBytes r).1 (decodeIDBytes r).2 with
    | none => { s with bus := b, matched := none, aw := 0, result := some { code := .unsupportedDevice, data := .none } }
    | some k =>
      match s.cfg.table[k]? with
      | some d =>
        { s with bus := b, matched := some k, aw := widthFor d.sizeBytes, result := some { code := .ok, data := .none } }
      | none =>
        { s with bus := b, matched := none, aw := 0, result := some { code := .unsupportedDevice, data := .none } }
  | .hostRead8 _ | .hostGetStatusRegister =>
    { s with bus := b, result := some { code := .ok, data := .byte (r.getD 0 0) } }
  | .hostReadBlock _ _ => { s with bus := b, result := some { code := .ok, data := .bytes r } }
  | .hostGetDeviceID =>
    { s with
      bus := b
      result := some { code := .ok, data := .deviceId (decodeIDBytes r).1 (decodeIDBytes r).2 } }
  | .hostSleep => { s with bus := { b with gp := .asleep }, result := some { code := .ok, data := .none } }
  | .hostWriteEnable _ | .hostWrite8 _ _ | .hostWriteBlock _ _ | .hostSetStatusRegister _ | .hostSetAddressWidth _
  | .hostWake | .reserved0 | .reservedD | .reservedE | .reservedF =>
    { s with bus := b, result := some { code := .ok, data := .none } }

/-- Where an instruction's frame ends: a stop, a failure, or a completed transaction. -/
def State.frameEnd (s : State) (i : Instr) (out : List Byte) (n : Nat) : State :=
  match (s.busAtFrame i).txn s.cfg out n with
  | .halt b => { s with bus := b, seq := .busy i (eventsSince s.bus b) }
  | .done none b => s.afterFailure i b
  | .done (some r) b => s.afterFrame i b r

/-- An instruction with a frame, whose checks pass, is that frame's transaction and what follows its end. -/
theorem exec_frame (i : Instr) (s : State) (out : List Byte) (n : Nat) (hr : s.Ready)
    (hg : isWire i = false → s.bus.gp = .active) (hf : frameOf s.aw i = some (out, n)) (hp : s.PassesGate i) :
    exec i s = .next (s.frameEnd i out n) := by
  have hseq := hr.2.1
  unfold State.frameEnd
  obtain ⟨p1, p2, p3⟩ := hp
  cases i <;> simp only [frameOf, Option.some.injEq, Prod.mk.injEq, reduceCtorEq] at hf <;> obtain ⟨rfl, rfl⟩ := hf
  case hostInitialize =>
    have hb := p3 rfl
    simp only [exec, execInitialize, runCommand_ready _ _ _ hr, Bus.tbegin, hb, State.awakeCheck, State.busAtFrame,
      Bus.emit, hg rfl, if_true, State.transact, State.transactOr]
    generalize Bus.txn _ _ _ _ = x
    rcases x with ⟨_ | r, b⟩ | b
    · simp [State.ret, State.afterFailure, isWire, hseq]
    · cases hl : lookup s.cfg (decodeIDBytes r).1 (decodeIDBytes r).2 with
      | none => simp [State.configure, State.afterFrame, hl, State.ret, hseq]
      | some k => cases ht : s.cfg.table[k]? <;> simp [State.configure, State.afterFrame, hl, ht, State.ret, hseq]
    · simp [eventsSince]
  case hostSleep =>
    obtain ⟨d, hd, hs⟩ := p2 rfl
    have hd' : State.matchedDescriptor { s with seq := .busy .hostSleep 0 } = some d := hd
    simp only [exec, execSleep, runCommand_ready _ _ _ hr, State.sleepGate, hd', hs, if_true, State.awakeCheck, hg rfl,
      State.transactOr, State.busAtFrame, reduceCtorEq, if_false]
    generalize Bus.txn _ _ _ _ = x
    rcases x with ⟨_ | r, b⟩ | b <;> simp [State.ret, State.setPower, State.afterFailure, State.afterFrame, isWire, hseq]
  all_goals
    simp only [exec, execWireWren, execWireWrdi, execWireRdsr, execWireWrsr, execWireRead, execWireWrite, execWireRdid,
      execWireSleep, execWriteEnable, execWrite8, execWriteBlock, execRead8, execReadBlock,
      execGetDeviceID, execGetStatusRegister, execSetStatusRegister, runFrame_ready _ _ _ _ hr,
      runCommand_ready _ _ _ hr, State.busAtFrame, reduceCtorEq, if_false, State.awakeCheck,
      State.transact, State.transactOr, State.memGate, encodeFrame, List.cons_append]
    try rw [if_neg (p1 rfl)]
    try rw [if_pos (hg rfl)]
    try simp only [State.transact, State.transactOr]
    generalize Bus.txn _ _ _ _ = x
    rcases x with ⟨_ | r, b⟩ | b <;> simp [State.ret, State.afterFailure, State.afterFrame, isWire, hseq]

/-- A command that passes its earlier checks on a device that may be asleep faults (R130). -/
theorem exec_asleep (i : Instr) (s : State) (hr : s.Ready) (hw : isWire i = false) (hg : s.bus.gp ≠ .active)
    (hf : (frameOf s.aw i).isSome = true) (hp : s.PassesGate i) :
    exec i s =
      .next { s with seq := .busy i (preludeOf i).length, bus := (s.busAtFrame i).raise .asleepAccess } := by
  obtain ⟨p1, p2, p3⟩ := hp
  cases i <;> simp only [isWire, reduceCtorEq] at hw <;> simp only [frameOf, Option.isSome_none, reduceCtorEq] at hf
  case hostInitialize =>
    have hb := p3 rfl
    simp [exec, execInitialize, runCommand_ready _ _ _ hr, Bus.tbegin, hb, State.awakeCheck, State.busAtFrame,
      Bus.emit, hg, State.raise, Bus.raise, preludeOf, eventsSince]
  case hostSleep =>
    obtain ⟨d, hd, hs⟩ := p2 rfl
    have hd' : State.matchedDescriptor { s with seq := .busy .hostSleep 0 } = some d := hd
    simp [exec, execSleep, runCommand_ready _ _ _ hr, State.sleepGate, hd', hs, State.awakeCheck, hg,
      State.busAtFrame, State.raise, Bus.raise, preludeOf, eventsSince]
  all_goals
    simp only [exec, execWriteEnable, execWrite8, execWriteBlock, execRead8, execReadBlock,
      execGetDeviceID, execGetStatusRegister, execSetStatusRegister,
      runCommand_ready _ _ _ hr, State.memGate, State.awakeCheck]
    try rw [if_neg (p1 rfl)]
    rw [if_neg hg]
    simp [State.busAtFrame, State.raise, Bus.raise, preludeOf, eventsSince]

/-- The commands that return before any exchange: the code, and what AW becomes (R90, R103, R104, R110, R131, R132). -/
def State.earlyReturn (s : State) (i : Instr) : Option (ResultCode × BitVec 2) :=
  match i with
  | .reserved0 | .reservedD | .reservedE | .reservedF => some (.illegalCommand, s.aw)
  | .hostSetAddressWidth w => some (if w = 2 ∨ w = 3 then (.ok, w.setWidth 2) else (.invalidWidth, s.aw))
  | .hostWrite8 _ _ | .hostWriteBlock _ _ | .hostRead8 _ | .hostReadBlock _ _ =>
    if s.aw = 0 then some (.unsupportedDevice, s.aw) else none
  | .hostSleep | .hostWake => if s.matchedDescriptor.any (·.supportsSleep) then none else some (.notSupported, s.aw)
  | .hostInitialize => if s.bus.answers.beginHead then none else some (.busUnavailable, s.aw)
  | .hostWriteEnable _ | .hostGetDeviceID | .hostGetStatusRegister | .hostSetStatusRegister _ => none
  | .wireWren | .wireWrdi | .wireRdsr | .wireWrsr _ | .wireRead _ _ | .wireWrite _ _ | .wireRdid | .wireSleep => none

/-- A command that returns before any exchange. -/
theorem exec_early (i : Instr) (s : State) (code : ResultCode) (aw : BitVec 2) (hr : s.Ready)
    (he : s.earlyReturn i = some (code, aw)) :
    exec i s =
      .next { s with aw := aw, bus := s.busAtFrame i, result := some { code := code, data := .none } } := by
  have hseq := hr.2.1
  cases i <;> simp only [State.earlyReturn, reduceCtorEq] at he
  case hostInitialize =>
    split at he
    · cases he
    · rename_i hb
      simp only [Bool.not_eq_true] at hb
      simp only [Option.some.injEq, Prod.mk.injEq] at he
      obtain ⟨rfl, rfl⟩ := he
      simp [exec, execInitialize, runCommand_ready _ _ _ hr, Bus.tbegin, hb, State.busAtFrame, State.ret, hseq]
  case hostSetAddressWidth w =>
    simp only [exec, execSetAddressWidth, runCommand_ready _ _ _ hr]
    by_cases hw : w = 2 ∨ w = 3
    · rw [if_pos hw] at he ⊢
      cases he
      simp [State.busAtFrame, State.ret, hseq]
    · rw [if_neg hw] at he ⊢
      cases he
      simp [State.busAtFrame, State.ret, hseq]
  case hostSleep =>
    split at he
    · cases he
    · rename_i hb
      simp only [Option.some.injEq, Prod.mk.injEq] at he
      obtain ⟨rfl, rfl⟩ := he
      have hd : State.matchedDescriptor { s with seq := .busy .hostSleep 0 } = s.matchedDescriptor := rfl
      simp only [exec, execSleep, runCommand_ready _ _ _ hr, State.sleepGate, hd]
      cases hm : s.matchedDescriptor <;> simp_all [State.busAtFrame, State.ret]
  case hostWake =>
    split at he
    · cases he
    · rename_i hb
      simp only [Option.some.injEq, Prod.mk.injEq] at he
      obtain ⟨rfl, rfl⟩ := he
      have hd : State.matchedDescriptor { s with seq := .busy .hostWake 0 } = s.matchedDescriptor := rfl
      simp only [exec, execWake, runCommand_ready _ _ _ hr, State.sleepGate, hd]
      cases hm : s.matchedDescriptor <;> simp_all [State.busAtFrame, State.ret]
  case hostWrite8 | hostWriteBlock | hostRead8 | hostReadBlock =>
    split at he
    · rename_i ha
      cases he
      simp [exec, execWrite8, execWriteBlock, execRead8, execReadBlock, runCommand_ready _ _ _ hr, State.memGate, ha,
        State.busAtFrame, State.ret, hseq]
    · cases he
  all_goals
    cases he
    simp [exec, execReserved0, execReservedD, execReservedE, execReservedF, runCommand_ready _ _ _ hr, illegalCommand,
      State.busAtFrame, State.ret, hseq]

/-- Every frame begins with one of the eight opcodes (R81, R91). -/
theorem frameOf_opcode {aw : BitVec 2} {i : Instr} {out : List Byte} {n : Nat} (h : frameOf aw i = some (out, n)) :
    ∃ op rest, out = op :: rest ∧ op ∈ wireOpcodes := by
  cases i <;> simp only [frameOf, Option.some.injEq, Prod.mk.injEq, reduceCtorEq] at h <;> obtain ⟨rfl, -⟩ := h <;>
    try exact ⟨_, _, rfl, by decide⟩
  rename_i en
  cases en <;> exact ⟨_, _, rfl, by decide⟩

/-- What the bus is when the frame begins: the prelude on TRACE, all else but the handshake's answer as it was. -/
theorem State.busAtFrame_eq (s : State) (i : Instr) (hp : s.PassesGate i) :
    s.busAtFrame i =
      { s.bus with
        trace := s.bus.trace ++ preludeOf i
        answers := if i = .hostInitialize then s.bus.answers.beginRest else s.bus.answers } := by
  unfold State.busAtFrame preludeOf
  split
  · rename_i h
    simp [Bus.tbegin, hp.2.2 h, Bus.emit]
  · simp

@[simp] theorem Answers.afterXfers_xfers (a : Answers) (n : Nat) : (a.afterXfers n).xfers = a.xfers.drop n := by
  induction n generalizing a with
  | zero => rfl
  | succ n ih => simp [Answers.afterXfers, ih, Answers.xferRest]

@[simp] theorem Answers.afterXfers_claims (a : Answers) (n : Nat) : (a.afterXfers n).claims = a.claims := by
  induction n generalizing a with
  | zero => rfl
  | succ n ih => simp [Answers.afterXfers, ih, Answers.xferRest]

/-- An instruction with a frame, on an awake device, its checks passed and every exchange answered: the state it
leaves, the trace of its frame, the device after it, and every byte the device drives received. -/
theorem exec_completes (i : Instr) (s : State) (op : Byte) (rest : List Byte) (n : Nat) (hr : s.Ready)
    (hg : s.bus.gp = .active) (hf : frameOf s.aw i = some (op :: rest, n)) (hp : s.PassesGate i)
    (hc : s.Completes ((op :: rest).length + n)) :
    ∃ r b, r.length = n ∧ exec i s = .next (s.afterFrame i b r) ∧
      (∃ ev, b.trace = s.bus.trace ++ preludeOf i ++ ev ∧ FrameTrace s.cfg (op :: rest) r ev) ∧
      b.faults = [] ∧ Bus.Released s.cfg s.bus b ∧
      b.dev = devDeselect s.cfg (devAfter s.cfg s.bus.dev (wireBytes s.cfg (op :: rest) n)) ∧
      b.gp = devDeselectPower (devAfter s.cfg s.bus.dev (wireBytes s.cfg (op :: rest) n)) .active ∧
      b.answers.xfers = s.bus.answers.xfers.drop ((op :: rest).length + n) ∧
      (b.answers.claims = if s.cfg.sharedBus then s.bus.answers.claims.tail else s.bus.answers.claims) ∧
      ∀ k < n, ∀ v, devMiso s.cfg (devAfter s.cfg s.bus.dev (wireBytes s.cfg (op :: rest) k)) = some v →
        r[k]? = some v := by
  obtain ⟨_, _, ho, hin⟩ := frameOf_opcode hf
  cases ho
  have hb := s.busAtFrame_eq i hp
  have hx : (s.busAtFrame i).answers.xfers = s.bus.answers.xfers := by rw [hb]; simp only; split <;> rfl
  have hl : (s.busAtFrame i).answers.claims = s.bus.answers.claims := by rw [hb]; simp only; split <;> rfl
  have hd : (s.busAtFrame i).dev = s.bus.dev := by rw [hb]
  obtain ⟨r, b, h1, h2, h3, h4, h5, h6, h7, h8, h9⟩ := Bus.txn_completes s.cfg op rest n (s.busAtFrame i)
    (by rw [hb]; exact hr.1) (by rw [hb]; exact hg) hin
    (fun h => by unfold Answers.claimHead; rw [hl]; exact hc.1 h) (by rw [hx]; exact hc.2)
  rw [hd] at h6 h7 h9
  refine ⟨r, b, h1, ?_, ?_, h4, ?_, h6, h7, ?_, ?_, h9⟩
  · rw [exec_frame i s _ _ hr (fun _ => hg) hf hp, State.frameEnd, h2]
  · rw [hb] at h3; exact h3
  · rw [hb] at h5; exact h5
  · rw [h8, Answers.afterXfers_xfers, Bus.opened_xfers, hx]
  · rw [h8, Answers.afterXfers_claims]
    unfold Bus.opened
    simp only
    split
    · simp [Answers.claimRest, hl]
    · exact hl

/-- An instruction with a frame, on an awake device, its checks passed, whose exchange `j` fails: the state it leaves, the
trace of its frame, and the device after what it took of the frame. -/
theorem exec_fails (i : Instr) (s : State) (op : Byte) (rest : List Byte) (n j : Nat) (took : Bool) (hr : s.Ready)
    (hg : s.bus.gp = .active) (hf : frameOf s.aw i = some (op :: rest, n)) (hp : s.PassesGate i)
    (hj : j < (op :: rest).length + n) (hs : s.StopsAt j (.fail took)) :
    ∃ b, exec i s = .next (s.afterFailure i b) ∧
      (∃ ev, b.trace = s.bus.trace ++ preludeOf i ++ ev ∧ FailedTrace s.cfg (op :: rest) n j ev) ∧
      b.faults = [] ∧ Bus.Released s.cfg s.bus b ∧
      b.dev = devDeselect s.cfg
        (devAfter s.cfg s.bus.dev ((wireBytes s.cfg (op :: rest) n).take (if took then j + 1 else j))) ∧
      b.gp = devDeselectPower
        (devAfter s.cfg s.bus.dev ((wireBytes s.cfg (op :: rest) n).take (if took then j + 1 else j))) .active := by
  obtain ⟨_, _, ho, hin⟩ := frameOf_opcode hf
  cases ho
  have hb := s.busAtFrame_eq i hp
  have hx : (s.busAtFrame i).answers.xfers = s.bus.answers.xfers := by rw [hb]; simp only; split <;> rfl
  have hl : (s.busAtFrame i).answers.claims = s.bus.answers.claims := by rw [hb]; simp only; split <;> rfl
  have hd : (s.busAtFrame i).dev = s.bus.dev := by rw [hb]
  obtain ⟨b, h1, h2, h3, h4, h5, h6⟩ := Bus.txn_fails s.cfg op rest n j (s.busAtFrame i) took hj
    (by rw [hb]; exact hr.1) (by rw [hb]; exact hg) hin
    (fun h => by unfold Answers.claimHead; rw [hl]; exact hs.1.1 h) (by rw [hx]; exact hs.1.2) (by rw [hx]; exact hs.2)
  rw [hd] at h5 h6
  refine ⟨b, ?_, ?_, h3, ?_, h5, h6⟩
  · rw [exec_frame i s _ _ hr (fun _ => hg) hf hp, State.frameEnd, h1]
  · rw [hb] at h2; exact h2
  · rw [hb] at h4; exact h4

/-- A failed frame leaves the transaction's bus, but for the GP of `sleep` (R131). -/
theorem State.afterFailure_dev (s : State) (i : Instr) (b : Bus) : (s.afterFailure i b).bus.dev = b.dev := by
  unfold State.afterFailure
  split
  · rfl
  · simp only; split <;> rfl

theorem State.afterFailure_bus (s : State) (i : Instr) (b : Bus) (h : i ≠ .hostSleep) : (s.afterFailure i b).bus = b := by
  unfold State.afterFailure; split <;> rfl

/-- A completed frame leaves the transaction's bus, but for the GP of `sleep` (R131). -/
theorem State.afterFrame_bus (s : State) (i : Instr) (b : Bus) (r : List Byte) (h : i ≠ .hostSleep) :
    (s.afterFrame i b r).bus = b := by
  cases i <;> try rfl
  case hostInitialize => simp only [State.afterFrame]; repeat' split
                         all_goals rfl
  case hostSleep => exact absurd rfl h

/-- Where `wake` ends on a part that can sleep (R132). -/
def State.wakeEnd (s : State) (d : DeviceDescriptor) : State :=
  match s.bus.wakeSequence s.cfg (extWake s.cfg d) with
  | .halt b => { s with bus := b, seq := .busy .hostWake (eventsSince s.bus b) }
  | .done _ b => { s with bus := { b with gp := .active }, result := some { code := .ok, data := .none } }

theorem exec_wake (s : State) (d : DeviceDescriptor) (hr : s.Ready) (hd : s.matchedDescriptor = some d)
    (hs : d.supportsSleep = true) : exec .hostWake s = .next (s.wakeEnd d) := by
  have hseq := hr.2.1
  have hd' : State.matchedDescriptor { s with seq := .busy .hostWake 0 } = some d := hd
  simp only [exec, execWake, runCommand_ready _ _ _ hr, State.sleepGate, hd', hs, if_true, State.wakeEnd]
  generalize Bus.wakeSequence _ _ _ = x
  rcases x with ⟨_, b⟩ | b <;> simp [State.ret, State.setPower, hseq]

theorem State.passesGate_of_early {s : State} {i : Instr} (h : s.earlyReturn i = none) : s.PassesGate i := by
  refine ⟨fun hi => ?_, fun hi => ?_, fun hi => ?_⟩
  · cases i <;> simp_all [isMemoryCommand, State.earlyReturn]
  · subst hi
    simp only [State.earlyReturn] at h
    split at h
    · rename_i hb
      cases hm : s.matchedDescriptor with
      | none => simp [hm] at hb
      | some d => exact ⟨d, hm, by simpa [hm] using hb⟩
    · cases h
  · subst hi
    by_contra hb
    simp [State.earlyReturn, hb] at h

/-- Every way an instruction can answer a next state. -/
theorem exec_next {i : Instr} {s t : State} (h : exec i s = .next t) :
    s.Ready ∧
      ((∃ code aw, s.earlyReturn i = some (code, aw) ∧
          t = { s with aw := aw, bus := s.busAtFrame i, result := some { code := code, data := .none } }) ∨
        (s.PassesGate i ∧ s.earlyReturn i = none ∧
          ((isWire i = false ∧ s.bus.gp ≠ .active ∧ (frameOf s.aw i).isSome = true ∧
              t = { s with
                seq := .busy i (preludeOf i).length
                bus := (s.busAtFrame i).raise .asleepAccess }) ∨
            (∃ out n, (isWire i = false → s.bus.gp = .active) ∧ frameOf s.aw i = some (out, n) ∧
              t = s.frameEnd i out n) ∨
            ∃ d, i = .hostWake ∧ s.matchedDescriptor = some d ∧ d.supportsSleep = true ∧ t = s.wakeEnd d))) := by
  have hr : s.Ready := by
    cases i
    case wireWren | wireWrdi | wireRdsr | wireWrsr | wireRead | wireWrite | wireRdid | wireSleep =>
      exact (runFrame_next h).1
    all_goals
      simp only [exec, execInitialize, execWriteEnable, execWrite8, execWriteBlock, execRead8, execReadBlock,
        execGetDeviceID, execGetStatusRegister, execSetStatusRegister, execSetAddressWidth, execSleep, execWake,
        execReserved0, execReservedD, execReservedE, execReservedF] at h
      exact (runCommand_next h).1
  refine ⟨hr, ?_⟩
  cases he : s.earlyReturn i with
  | some ca =>
    obtain ⟨code, aw⟩ := ca
    rw [exec_early i s code aw hr he] at h
    exact .inl ⟨code, aw, rfl, by simpa using h.symm⟩
  | none =>
    have hp := State.passesGate_of_early he
    refine .inr ⟨hp, rfl, ?_⟩
    cases hf : frameOf s.aw i with
    | some f =>
      obtain ⟨out, n⟩ := f
      by_cases hg : isWire i = false → s.bus.gp = .active
      · rw [exec_frame i s out n hr hg hf hp] at h
        exact .inr (.inl ⟨out, n, hg, rfl, by simpa using h.symm⟩)
      · push Not at hg
        rw [exec_asleep i s hr hg.1 hg.2 (by simp [hf]) hp] at h
        exact .inl ⟨hg.1, hg.2, rfl, by simpa using h.symm⟩
    | none =>
      cases i <;> simp only [frameOf, reduceCtorEq] at hf <;> try (simp [State.earlyReturn] at he; done)
      simp only [State.earlyReturn] at he
      split at he
      · rename_i hb
        cases hm : s.matchedDescriptor with
        | none => simp [hm] at hb
        | some d =>
          have hs : d.supportsSleep = true := by simpa [hm] using hb
          rw [exec_wake s d hr hm hs] at h
          exact .inr (.inr ⟨d, rfl, rfl, hs, by simpa using h.symm⟩)
      · cases he

end Sys2Proof.Machine
end

