-- ==== Sys2Proof/Laws/Storage.lean ====
section
/-! SUPPORT. What whole READ and WRITE frames do to the reference device: the addressed cell, the cells stored, the cells read; and what frames cut short do. -/

namespace Sys2Proof.Machine

/-- The phase an address leads to (R69). -/
def dataPhase (op : MemOp) (cell : Nat) : Phase :=
  match op with
  | .read => .dataOut cell
  | .write => .dataIn cell

/-- The address bytes of a frame of the device's own width lead to the addressed cell (R69). -/
theorem devRun_address (c : Config) (d : Device) (op : MemOp) (a : WireAddr) (hc : c.composed = true)
    (hw : widthBytes a.width = devWidth c) (hd : d.dph = .addr op 0 0) :
    devRun c d a.bytes = { d with dph := dataPhase op (firstCell c a) } := by
  have h2 : ∀ x : BitVec 16, ((0 : BitVec 24) <<< 8 ||| (x.extractLsb' 8 8).setWidth 24) <<< 8 |||
      (x.extractLsb' 0 8).setWidth 24 = x.setWidth 24 := fun x => by
    apply BitVec.eq_of_getLsbD_eq
    intro i hi
    interval_cases i <;> simp
  have h3 : ∀ x : BitVec 24, (((0 : BitVec 24) <<< 8 ||| (x.extractLsb' 16 8).setWidth 24) <<< 8 |||
      (x.extractLsb' 8 8).setWidth 24) <<< 8 ||| (x.extractLsb' 0 8).setWidth 24 = x := fun x => by
    apply BitVec.eq_of_getLsbD_eq
    intro i hi
    interval_cases i <;> simp
  cases a with
  | two x =>
    have hw : devWidth c = 2 := hw.symm
    have h1 : ∀ o, devNext c d o = { d with dph := .addr op ((0 : BitVec 24) <<< 8 ||| o.setWidth 24) 1 } := fun o => by
      simp [devNext, hc, hd, devAddress, hw]
    simp only [WireAddr.bytes, devRun_cons, devRun_nil, h1]
    simp only [devNext, hc, if_true, devAddress, hw, Nat.reduceAdd, h2]
    cases op <;> rfl
  | three x =>
    have hw : devWidth c = 3 := hw.symm
    have h1 : ∀ o, devNext c d o = { d with dph := .addr op ((0 : BitVec 24) <<< 8 ||| o.setWidth 24) 1 } := fun o => by
      simp [devNext, hc, hd, devAddress, hw]
    simp only [WireAddr.bytes, devRun_cons, devRun_nil, h1]
    simp only [devNext, hc, if_true, devAddress, hw, Nat.reduceAdd, Nat.reduceEqDiff, if_false, h3]
    cases op <;> rfl

theorem cellAfter_succ (c : Config) (a j : Nat) : cellAfter c (nextCell c a) j = cellAfter c a (j + 1) := by
  unfold cellAfter nextCell
  rw [Nat.mod_add_mod, Nat.add_right_comm, Nat.add_assoc]

/-- The array after a payload is stored from a cell on (R71). -/
def storeAll (c : Config) (sr : Byte) (honoured : Bool) : Memory → Nat → List Byte → Memory
  | m, _, [] => m
  | m, a, v :: rest =>
    storeAll c sr honoured (if honoured && writeAllowed c sr a then m.write a v else m) (nextCell c a) rest

/-- The write data phase over a whole payload (R71): array and phase, all else as before. -/
theorem devRun_store (c : Config) (d : Device) (a : Nat) (payload : List Byte) (hc : c.composed = true)
    (ha : a < devSize c) (hd : d.dph = .dataIn a) :
    devRun c d payload =
      { d with
        mem := storeAll c d.sr d.dwr d.mem a payload
        dph := .dataIn (cellAfter c a payload.length) } := by
  induction payload generalizing d a with
  | nil =>
    have h0 : cellAfter c a 0 = a := by unfold cellAfter; rw [Nat.add_zero, Nat.mod_eq_of_lt ha]
    cases d; simp_all [storeAll]
  | cons v rest ih =>
    have hn : devNext c d v =
        { d with
          mem := if d.dwr && writeAllowed c d.sr a then d.mem.write a v else d.mem
          dph := .dataIn (nextCell c a) } := by
      simp only [devNext, hc, hd, if_true, devStore]
      split <;> simp [Device.memWrite]
    rw [devRun_cons, hn, ih _ (nextCell c a) (nextCell_lt c a) rfl]
    simp [storeAll, cellAfter_succ]

theorem storedByte_nil (c : Config) (a x : Nat) : storedByte c a [] x = none := rfl

/-- The first byte of a payload is what its cell holds unless a later byte comes round to it. -/
theorem storedByte_cons (c : Config) (a x : Nat) (v : Byte) (rest : List Byte) (ha : a < devSize c) :
    storedByte c a (v :: rest) x = (storedByte c (nextCell c a) rest x).or (if a = x then some v else none) := by
  have h0 : cellAfter c a 0 = a := by unfold cellAfter; rw [Nat.add_zero, Nat.mod_eq_of_lt ha]
  unfold storedByte
  rw [List.length_cons, List.range_succ_eq_map, List.reverse_cons, List.find?_append, ← List.map_reverse, List.find?_map]
  simp only [Function.comp_def, ← cellAfter_succ]
  cases hf : (List.range rest.length).reverse.find? fun j => cellAfter c (nextCell c a) j == x with
  | some j =>
    have hj : j < rest.length := by
      have := List.mem_of_find?_eq_some hf
      simpa using this
    simp [hj]
  | none =>
    by_cases hx : a = x
    · subst hx; simp [h0]
    · simp [h0, hx]

/-- What a cell holds after a payload is stored (R71, R181). -/
theorem storeAll_read (c : Config) (sr : Byte) (w : Bool) (m : Memory) (a : Nat) (payload : List Byte) (x : Nat)
    (hm : m.wf) (ha : a < devSize c) :
    (storeAll c sr w m a payload).wf ∧
    (storeAll c sr w m a payload).read x =
      if w && writeAllowed c sr x then (storedByte c a payload x).getD (m.read x) else m.read x := by
  induction payload generalizing m a with
  | nil => exact ⟨hm, by simp [storeAll, storedByte_nil]⟩
  | cons v rest ih =>
    have hm' : (if w && writeAllowed c sr a then m.write a v else m).wf := by
      split
      · exact Memory.write_wf m a v hm
      · exact hm
    obtain ⟨h1, h2⟩ := ih _ _ hm' (nextCell_lt c a)
    refine ⟨h1, ?_⟩
    rw [storeAll, h2, storedByte_cons c a x v rest ha]
    have hr := Memory.read_write m a x v hm
    by_cases hax : a = x
    · subst hax
      cases hw : (w && writeAllowed c sr a)
      · simp
      · simp only [if_true, hr]
        cases storedByte c (nextCell c a) rest a <;> simp
    · have : (if (w && writeAllowed c sr a) = true then m.write a v else m).read x = m.read x := by
        split <;> simp_all
      simp only [this, if_neg hax, Option.or_none]

/-- The read data phase (R70): whatever is sent, the cell moves on, all else as before. -/
theorem devRun_fetch (c : Config) (d : Device) (a : Nat) (bytes : List Byte) (hc : c.composed = true)
    (ha : a < devSize c) (hd : d.dph = .dataOut a) :
    devRun c d bytes = { d with dph := .dataOut (cellAfter c a bytes.length) } := by
  induction bytes generalizing d a with
  | nil =>
    have h0 : cellAfter c a 0 = a := by unfold cellAfter; rw [Nat.add_zero, Nat.mod_eq_of_lt ha]
    cases d; simp_all
  | cons o rest ih =>
    have hn : devNext c d o = { d with dph := .dataOut (nextCell c a) } := by simp [devNext, hc, hd]
    rw [devRun_cons, hn, ih _ (nextCell c a) (nextCell_lt c a) rfl]
    simp [cellAfter_succ]

theorem firstCell_lt (c : Config) (a : WireAddr) : firstCell c a < devSize c := by
  cases a <;> exact devCell_lt c _

/-- The device after a WRITE frame's bytes, before DESELECT (R68, R69, R71). -/
theorem devRun_writeFrame (c : Config) (d : Device) (a : WireAddr) (payload : List Byte) (hc : c.composed = true)
    (hw : widthBytes a.width = devWidth c) :
    devRun c (devSelect .active d) (opWRITE :: (a.bytes ++ payload)) =
      { d with
        mem := storeAll c d.sr d.wel d.mem (firstCell c a) payload
        dph := .dataIn (cellAfter c (firstCell c a) payload.length)
        dwr := d.wel } := by
  have h1 : devNext c (devSelect .active d) opWRITE = { d with dph := .addr .write 0 0, dwr := d.wel } := by
    simp [devNext, hc, devSelect, devOpcode, opWRITE, opREAD]
  rw [devRun_cons, devRun_append, h1, devRun_address c _ .write a hc hw rfl,
    devRun_store c _ (firstCell c a) payload hc (firstCell_lt c a) rfl]

/-- The device after a READ frame's address and further bytes exchanged (R68, R69, R70). -/
theorem devRun_readFrame (c : Config) (d : Device) (a : WireAddr) (bytes : List Byte) (hc : c.composed = true)
    (hw : widthBytes a.width = devWidth c) :
    devRun c (devSelect .active d) (opREAD :: (a.bytes ++ bytes)) =
      { d with dph := .dataOut (cellAfter c (firstCell c a) bytes.length), dwr := false } := by
  have h1 : devNext c (devSelect .active d) opREAD = { d with dph := .addr .read 0 0, dwr := false } := by
    simp [devNext, hc, devSelect, devOpcode, opREAD]
  rw [devRun_cons, devRun_append, h1, devRun_address c _ .read a hc hw rfl,
    devRun_fetch c _ (firstCell c a) bytes hc (firstCell_lt c a) rfl]

/-! ## Frames cut short, and frames of another width (R68, R69, R75) -/

/-- A two-byte address and one byte more are the three-byte address they make up (R69, R181). -/
theorem bytes_two_append (a : BitVec 16) (o : Byte) : (WireAddr.two a).bytes ++ [o] = (WireAddr.three (a ++ o)).bytes := by
  have h1 : (a ++ o).extractLsb' 16 8 = a.extractLsb' 8 8 := by
    apply BitVec.eq_of_getLsbD_eq
    intro i hi
    simp only [BitVec.getLsbD_extractLsb', BitVec.getLsbD_append]
    interval_cases i <;> simp
  have h2 : (a ++ o).extractLsb' 8 8 = a.extractLsb' 0 8 := by
    apply BitVec.eq_of_getLsbD_eq
    intro i hi
    simp only [BitVec.getLsbD_extractLsb', BitVec.getLsbD_append]
    interval_cases i <;> simp
  have h3 : (a ++ o).extractLsb' 0 8 = o := by
    apply BitVec.eq_of_getLsbD_eq
    intro i hi
    simp only [BitVec.getLsbD_extractLsb', BitVec.getLsbD_append]
    interval_cases i <;> simp
  simp only [WireAddr.bytes, List.cons_append, List.nil_append]
  rw [h1, h2, h3]

/-- A three-byte address is the two-byte address of its upper bytes and one byte more (R69, R181). -/
theorem bytes_three_split (a : BitVec 24) :
    (WireAddr.three a).bytes = (WireAddr.two (a.extractLsb' 8 16)).bytes ++ [a.extractLsb' 0 8] := by
  have h1 : (a.extractLsb' 8 16).extractLsb' 8 8 = a.extractLsb' 16 8 := by
    apply BitVec.eq_of_getLsbD_eq
    intro i hi
    interval_cases i <;> simp
  have h2 : (a.extractLsb' 8 16).extractLsb' 0 8 = a.extractLsb' 8 8 := by
    apply BitVec.eq_of_getLsbD_eq
    intro i hi
    interval_cases i <;> simp
  simp only [WireAddr.bytes, List.cons_append, List.nil_append]
  rw [h1, h2]

/-- Without the reference device no exchange changes the device. -/
theorem devAfter_uncomposed (c : Config) (d : Device) (bytes : List Byte) (hc : c.composed = false) :
    devAfter c d bytes = devSelect .active d := by
  have h : ∀ d' o, devNext c d' o = d' := fun d' o => by simp [devNext, hc]
  unfold devAfter devRun
  induction bytes with
  | nil => rfl
  | cons o rest ih => rw [List.foldl_cons, h]; exact ih

/-- Only bytes in the write data phase change the array: a frame that ends before it, or has none, does not (R71). -/
theorem devRun_address_mem (c : Config) (d : Device) (bytes : List Byte) (acc : BitVec 24) (n : Nat)
    (hc : c.composed = true) (hd : d.dph = .addr .write acc n) (hl : n + bytes.length ≤ devWidth c) :
    (devRun c d bytes).mem = d.mem ∧ (devRun c d bytes).dwr = d.dwr ∧
      ((∃ acc' n', (devRun c d bytes).dph = .addr .write acc' n') ∨ ∃ a, (devRun c d bytes).dph = .dataIn a) := by
  induction bytes generalizing d acc n with
  | nil => exact ⟨rfl, rfl, .inl ⟨_, _, hd⟩⟩
  | cons o rest ih =>
    simp only [List.length_cons] at hl
    by_cases hn : n + 1 = devWidth c
    · have : rest = [] := List.eq_nil_of_length_eq_zero (by omega)
      subst this
      have h1 : devNext c d o = { d with dph := .dataIn (devCell c ((acc <<< 8) ||| o.setWidth 24)) } := by
        simp [devNext, hc, hd, devAddress, hn]
      simp [h1]
    · have h1 : devNext c d o = { d with dph := .addr .write ((acc <<< 8) ||| o.setWidth 24) (n + 1) } := by
        simp [devNext, hc, hd, devAddress, hn]
      rw [devRun_cons, h1]
      exact ih _ _ (n + 1) rfl (by omega)

/-- The phase a WRITE frame's bytes leave, whatever their number: still the address or the data (R69, R71). -/
theorem devRun_write_phase (c : Config) (d : Device) (bytes : List Byte) (hc : c.composed = true)
    (hd : (∃ acc n, d.dph = .addr .write acc n) ∨ ∃ a, d.dph = .dataIn a) :
    (devRun c d bytes).dwr = d.dwr ∧
      ((∃ acc n, (devRun c d bytes).dph = .addr .write acc n) ∨ ∃ a, (devRun c d bytes).dph = .dataIn a) := by
  induction bytes generalizing d with
  | nil => exact ⟨rfl, hd⟩
  | cons o rest ih =>
    rw [devRun_cons]
    have h : (devNext c d o).dwr = d.dwr ∧
        ((∃ acc n, (devNext c d o).dph = .addr .write acc n) ∨ ∃ a, (devNext c d o).dph = .dataIn a) := by
      rcases hd with ⟨acc, n, hd⟩ | ⟨a, hd⟩
      · simp only [devNext, hc, hd, if_true, devAddress]
        split
        · exact ⟨rfl, .inr ⟨_, rfl⟩⟩
        · exact ⟨rfl, .inl ⟨_, _, rfl⟩⟩
      · simp only [devNext, hc, hd, if_true, devStore]
        split <;> exact ⟨rfl, .inr ⟨_, rfl⟩⟩
    obtain ⟨h1, h2⟩ := ih _ h.2
    exact ⟨h1.trans h.1, h2⟩

/-- Completing a WRITE transaction: the latch clears where it was honoured, all else as before (R75). -/
theorem devDeselect_write (c : Config) (d : Device)
    (hd : (∃ acc n, d.dph = .addr .write acc n) ∨ ∃ a, d.dph = .dataIn a) :
    devDeselect c d = { d with wel := d.wel && !d.dwr, dph := .idle, dwr := false } := by
  unfold devDeselect devComplete
  rcases hd with ⟨_, _, hd⟩ | ⟨_, hd⟩ <;> simp only [hd] <;> cases hw : d.dwr <;> simp

/-- The phases of a frame that writes neither array nor latch nor status register. -/
def Phase.Reads : Phase → Prop
  | .addr .read _ _ | .dataOut _ | .srOut | .idOut _ | .done .sleep => True
  | .idle | .opc | .addr .write _ _ | .dataIn _ | .srIn | .srDone _ | .done .wren | .done .wrdi | .wakeSel | .undef => False

/-- In such a phase an exchange changes the phase alone, and the next phase is such a phase. -/
theorem devNext_reads (c : Config) (d : Device) (o : Byte) (hd : d.dph.Reads) :
    ∃ p : Phase, p.Reads ∧ devNext c d o = { d with dph := p } := by
  by_cases hc : c.composed = true
  · simp only [devNext, hc, if_true]
    cases hp : d.dph <;> rw [hp] at hd <;> simp only [Phase.Reads] at hd
    case addr op acc n =>
      cases op
      · simp only [devAddress]
        split
        · exact ⟨.dataOut _, trivial, rfl⟩
        · exact ⟨.addr .read _ _, trivial, rfl⟩
      · cases hd
    case done op =>
      cases op <;> simp only at hd
      exact ⟨d.dph, by rw [hp]; trivial, rfl⟩
    case srOut => exact ⟨d.dph, by rw [hp]; trivial, rfl⟩
    case dataOut a => exact ⟨.dataOut (nextCell c a), trivial, rfl⟩
    case idOut k => exact ⟨.idOut (k + 1), trivial, rfl⟩
  · exact ⟨d.dph, hd, by simp [devNext, hc]⟩

theorem devRun_reads (c : Config) (d : Device) (bytes : List Byte) (hd : d.dph.Reads) :
    ∃ p : Phase, p.Reads ∧ devRun c d bytes = { d with dph := p } := by
  induction bytes generalizing d with
  | nil => exact ⟨d.dph, hd, rfl⟩
  | cons o rest ih =>
    obtain ⟨p, hp, h⟩ := devNext_reads c d o hd
    obtain ⟨q, hq, h'⟩ := ih (devNext c d o) (by rw [h]; exact hp)
    exact ⟨q, hq, by rw [devRun_cons, h', h]⟩

/-- A frame of READ, RDSR, RDID or SLEEP, cut anywhere after its opcode, is in such a phase (R68). -/
theorem devAfter_reads (c : Config) (d : Device) (op : Byte) (bytes : List Byte) (hc : c.composed = true)
    (ho : op ∈ [opREAD, opRDSR, opRDID, opSLEEP]) :
    ∃ p : Phase, p.Reads ∧ devAfter c d (op :: bytes) = { d with dph := p, dwr := false } := by
  have h1 : ∃ p : Phase, p.Reads ∧ devNext c (devSelect .active d) op = { d with dph := p, dwr := false } := by
    simp only [List.mem_cons, List.not_mem_nil, or_false] at ho
    rcases ho with rfl | rfl | rfl | rfl
    · exact ⟨.addr .read 0 0, trivial, by simp [devNext, hc, devSelect, devOpcode]⟩
    · exact ⟨.srOut, trivial, by
        simp [devNext, hc, devSelect, devOpcode, opREAD, opWRITE, opWREN, opWRDI, opRDSR]⟩
    · exact ⟨.idOut 0, trivial, by
        simp [devNext, hc, devSelect, devOpcode, opREAD, opWRITE, opWREN, opWRDI, opRDSR, opWRSR, opRDID]⟩
    · exact ⟨.done .sleep, trivial, by
        simp [devNext, hc, devSelect, devOpcode, opREAD, opWRITE, opWREN, opWRDI, opRDSR, opWRSR, opRDID, opSLEEP]⟩
  obtain ⟨p, hp, h⟩ := h1
  obtain ⟨q, hq, h'⟩ := devRun_reads c (devNext c (devSelect .active d) op) bytes (by rw [h]; exact hp)
  exact ⟨q, hq, by rw [devAfter, devRun_cons, h', h]⟩

/-- Completing such a transaction leaves latch and status register (R75). -/
theorem devDeselect_reads (c : Config) (d : Device) (hd : d.dph.Reads) :
    devDeselect c d = { d with dph := .idle, dwr := false } := by
  unfold devDeselect devComplete
  split <;> simp_all [Phase.Reads]
end Sys2Proof.Machine
end

