-- ==== Sys2Proof/Laws/PerInstr.lean ====
section
/-! SUPPORT. The statements made per instruction. -/

namespace Sys2Proof.Laws.CodeMatchesTable

/-- The code a word carries: its opcode byte on the wire (R81), or its CMD field (R88). -/
def codeOf : PortWord → Option Nat
  | .command h => some h.cmd.toNat
  | .frame f => f.out.head?.map BitVec.toNat

/-- The "match" value of an instruction's row in `spec/opcode_table.json`. -/
def tableMatch : Instr → Nat
  | .wireWren => 0x06
  | .wireWrdi => 0x04
  | .wireRdsr => 0x05
  | .wireWrsr _ => 0x01
  | .wireRead _ _ => 0x03
  | .wireWrite _ _ => 0x02
  | .wireRdid => 0x9F
  | .wireSleep => 0xB9
  | .hostInitialize => 0x1
  | .hostWriteEnable _ => 0x2
  | .hostWrite8 _ _ => 0x3
  | .hostWriteBlock _ _ => 0x4
  | .hostRead8 _ => 0x5
  | .hostReadBlock _ _ => 0x6
  | .hostGetDeviceID => 0x7
  | .hostGetStatusRegister => 0x8
  | .hostSetStatusRegister _ => 0x9
  | .hostSetAddressWidth _ => 0xA
  | .hostSleep => 0xB
  | .hostWake => 0xC
  | .reserved0 => 0x0
  | .reservedD => 0xD
  | .reservedE => 0xE
  | .reservedF => 0xF

/-- The encoder puts the table's code where the table has it. -/
def Statement (i : Instr) : Prop := codeOf (encode i) = some (tableMatch i)

theorem wireWren : Statement .wireWren := rfl
theorem wireWrdi : Statement .wireWrdi := rfl
theorem wireRdsr : Statement .wireRdsr := rfl
theorem wireWrsr (value : Byte) : Statement (.wireWrsr value) := rfl
theorem wireRead (addr : WireAddr) (count : Word) : Statement (.wireRead addr count) := rfl
theorem wireWrite (addr : WireAddr) (payload : List Byte) : Statement (.wireWrite addr payload) := rfl
theorem wireRdid : Statement .wireRdid := rfl
theorem wireSleep : Statement .wireSleep := rfl
theorem hostInitialize : Statement .hostInitialize := rfl
theorem hostWriteEnable (en : Bool) : Statement (.hostWriteEnable en) := rfl
theorem hostWrite8 (addr : Word) (value : Byte) : Statement (.hostWrite8 addr value) := rfl
theorem hostWriteBlock (addr : Word) (payload : List Byte) : Statement (.hostWriteBlock addr payload) := rfl
theorem hostRead8 (addr : Word) : Statement (.hostRead8 addr) := rfl
theorem hostReadBlock (addr count : Word) : Statement (.hostReadBlock addr count) := rfl
theorem hostGetDeviceID : Statement .hostGetDeviceID := rfl
theorem hostGetStatusRegister : Statement .hostGetStatusRegister := rfl
theorem hostSetStatusRegister (value : Byte) : Statement (.hostSetStatusRegister value) := rfl
theorem hostSetAddressWidth (width : Byte) : Statement (.hostSetAddressWidth width) := rfl
theorem hostSleep : Statement .hostSleep := rfl
theorem hostWake : Statement .hostWake := rfl
theorem reserved0 : Statement .reserved0 := rfl
theorem reservedD : Statement .reservedD := rfl
theorem reservedE : Statement .reservedE := rfl
theorem reservedF : Statement .reservedF := rfl

end Sys2Proof.Laws.CodeMatchesTable
end

