-- ==== Sys2Proof/Certificates/Slice0/Obligations.lean ====
section
/-! DEFINITION. The statements for the provers. -/

open Sys2Proof Sys2Proof.Machine

/-! ## Encodings -/

/-- A few words of R80, R82, R84, R88 and R90, written out, and the instructions they stand for. -/
def Obligations.SampleWordsDecode : Prop :=
  decode (.frame { width := .two, out := [0x03, 0x12, 0x34], nIn := 1 }) = .ok (.wireRead (.two 0x1234) 1) ∧
  decode (.frame { width := .three, out := [0x02, 0x01, 0x23, 0x45, 0xAB], nIn := 0 }) =
    .ok (.wireWrite (.three 0x012345) [0xAB]) ∧
  decode (.frame { width := .two, out := [0x9F], nIn := 4 }) = .ok .wireRdid ∧
  decode (.frame { width := .two, out := [0x01, 0x80], nIn := 0 }) = .ok (.wireWrsr 0x80) ∧
  decode (.frame { width := .two, out := [0x07], nIn := 0 }) = .error (.unknownOpcode 0x07) ∧
  decode (.command { cmd := 0x3, addr := 0x10, data := 0xAB }) = .ok (.hostWrite8 0x10 0xAB) ∧
  decode (.command { cmd := 0xC, data := 0xFF }) = .ok .hostWake ∧
  decode (.command { cmd := 0xE }) = .ok .reservedE

/-- Decoding the encoding of a well-formed instruction gives it back (R82, R86, R88). -/
def Obligations.EncodedInstructionsDecodeBack : Prop :=
  ∀ i : Instr, i.wellFormed = true → decode (encode i) = .ok i

/-- What decodes is well formed, and a frame is the only frame of its instruction: bytes out and bytes in come back
when the instruction is encoded; a command word's code comes back (R82, R88). -/
def Obligations.DecodedWordsEncodeBack : Prop :=
  (∀ (f : WireFrame) (i : Instr), decode (.frame f) = .ok i →
    i.wellFormed = true ∧ ∃ g : WireFrame, encode i = .frame g ∧ g.out = f.out ∧ g.nIn = f.nIn) ∧
  (∀ (h : HostWord) (i : Instr), decode (.command h) = .ok i →
    i.wellFormed = true ∧ ∃ g : HostWord, encode i = .command g ∧ g.cmd = h.cmd)

/-- `AddrBytes` (R83): for width 3 the bytes 23:16, 15:8, 7:0 of the address; otherwise 15:8, 7:0; and those bytes, most
significant first, are the address modulo 2^(8 w) (R42, R46). -/
def Obligations.AddressBytesAreTheTruncatedAddress : Prop :=
  ∀ addr : Word,
    addrBytes addr 3 = [addr.extractLsb' 16 8, addr.extractLsb' 8 8, addr.extractLsb' 0 8] ∧
    addrBytes addr 2 = [addr.extractLsb' 8 8, addr.extractLsb' 0 8] ∧
    (addrBytes addr 3).foldl (fun acc (b : Byte) => 256 * acc + b.toNat) 0 = addr.toNat % 2 ^ 24 ∧
    (addrBytes addr 2).foldl (fun acc (b : Byte) => 256 * acc + b.toNat) 0 = addr.toNat % 2 ^ 16

/-- R116: a memory command whose address has bits above the wire width does what it does with the truncated address:
the same end of the bus side, the same result, no error of its own. -/
def Obligations.HighAddressBitsAreDropped : Prop :=
  ∀ (s t : State) (a a' : Word), (s.aw = 2 ∨ s.aw = 3) → a'.toNat = a.toNat % 2 ^ (8 * s.aw.toNat) →
    (∀ v, exec (.hostWrite8 a v) s = .next t →
      ∃ t', exec (.hostWrite8 a' v) s = .next t' ∧ t'.bus = t.bus ∧ t'.result = t.result) ∧
    (∀ p, exec (.hostWriteBlock a p) s = .next t →
      ∃ t', exec (.hostWriteBlock a' p) s = .next t' ∧ t'.bus = t.bus ∧ t'.result = t.result) ∧
    (exec (.hostRead8 a) s = .next t →
      ∃ t', exec (.hostRead8 a') s = .next t' ∧ t'.bus = t.bus ∧ t'.result = t.result) ∧
    (∀ n, exec (.hostReadBlock a n) s = .next t →
      ∃ t', exec (.hostReadBlock a' n) s = .next t' ∧ t'.bus = t.bus ∧ t'.result = t.result)

/-- R93: `write8 a, v` issues the trace of `writeBlock a, [v]`, and `read8 a` that of `readBlock a, 1` with `v` in place of
`[v]` as result data. -/
def Obligations.ByteCommandsAreBlocksOfOne : Prop :=
  ∀ (s t : State) (a : Word),
    (∀ v, exec (.hostWrite8 a v) s = .next t →
      ∃ t', exec (.hostWriteBlock a [v]) s = .next t' ∧ t'.bus = t.bus ∧ t'.result = t.result) ∧
    (exec (.hostRead8 a) s = .next t →
      ∃ t', exec (.hostReadBlock a 1) s = .next t' ∧ t'.bus = t.bus ∧
        (t.seq = .idle →
          (∃ v, t.result = some { code := .ok, data := .byte v } ∧
            t'.result = some { code := .ok, data := .bytes [v] }) ∨
          (∃ code, code ≠ .ok ∧ t.result = some { code := code, data := .none } ∧ t'.result = t.result)))

/-- `DecodeID` (R85), on every four bytes. -/
def Obligations.IdDecoderDisambiguates : Prop :=
  ∀ a0 a1 a2 a3 : Byte,
    (decodeID a0 a1 a2 a3).1 = a0 ∧
    (decodeID a0 a1 a2 a3).2.toNat =
      if a1 = 0x7F then 256 * a2.toNat + a3.toNat else 256 * a1.toNat + a2.toNat

/-- `Lookup` (R100): the first entry whose two fields both match; with unique keys every descriptor is found at its own
index; a key of no entry is not found. -/
def Obligations.LookupFindsTheFirstExactMatch : Prop :=
  ∀ c : Config,
    (∀ m p i, lookup c m p = some i ↔
      (∃ d, c.table[i]? = some d ∧ d.manufacturerId = m ∧ d.productId = p) ∧
        ∀ j < i, ∀ d, c.table[j]? = some d → ¬(d.manufacturerId = m ∧ d.productId = p)) ∧
    (∀ m p, lookup c m p = none ↔ ∀ d ∈ c.table, ¬(d.manufacturerId = m ∧ d.productId = p)) ∧
    (c.UniqueKeys → ∀ i d, c.table[i]? = some d → lookup c d.manufacturerId d.productId = some i)

/-- `WidthFor` (R101). -/
def Obligations.WidthSplitsAt64KiB : Prop :=
  ∀ size : Word, (widthFor size = 2 ↔ size.toNat ≤ 65536) ∧ (widthFor size = 3 ↔ 65536 < size.toNat)

/-- CFG (R23): AW in bits 1:0, MV in bit 2, zeros in 7:3, MIDX in 15:8; 0x0000 after an engine reset.
Nothing is said of MIDX for an index past 255, which R23 leaves open (log entry 30). -/
def Obligations.CfgWordHasItsFields : Prop :=
  ∀ s : State,
    s.cfgWord.extractLsb' 0 2 = s.aw ∧
    s.cfgWord.extractLsb' 2 1 = (if s.matched.isSome then 1 else 0) ∧
    s.cfgWord.extractLsb' 3 5 = 0 ∧
    (∀ i, s.matched = some i → i < 256 → (s.cfgWord.extractLsb' 8 8).toNat = i) ∧
    (s.matched = none → s.cfgWord.extractLsb' 8 8 = 0) ∧
    s.engineReset.cfgWord = 0

/-! ## The step -/

/-- Where the word at the host port decodes to a well-formed instruction, the engine is Idle and no fault is recorded, a
step is `exec` of that instruction on the state whose port has moved past the word. -/
def Obligations.StepRunsTheDecodedInstruction : Prop :=
  ∀ (s : State) (w : PortWord) (rest : List PortItem) (i : Instr),
    s.bus.faults = [] → s.seq = .idle → s.port = .word w :: rest → decode w = .ok i → i.wellFormed = true →
      step s = exec i { s with port := rest }

/-- A step with nothing to run: under a TABLE with duplicate keys every step is refused, whatever else the state holds, an
engine reset at the port among it (R8, R145). Under any other: a recorded fault is final (R143, U24); an empty port waits
(R172, or R144 in a hang), and so does a word while SEQ is Busy; an engine reset is R170's; a word that decodes to nothing
is refused by the decoder's reason (the model's own refusal). -/
def Obligations.StepWithoutAnInstruction : Prop :=
  ∀ s : State,
    (¬s.cfg.UniqueKeys → step s = .refused .duplicateKeys) ∧
    (s.cfg.UniqueKeys →
      (∀ f fs, s.bus.faults = f :: fs → step s = .fault f) ∧
      (s.bus.faults = [] → s.port = [] → step s = .next s) ∧
      (∀ w rest, s.bus.faults = [] → s.seq ≠ .idle → s.port = .word w :: rest → step s = .next s) ∧
      (∀ rest, s.bus.faults = [] → s.port = .reset :: rest → step s = .next { s with port := rest }.engineReset) ∧
      (∀ w rest e, s.bus.faults = [] → s.seq = .idle → s.port = .word w :: rest → decode w = .error e →
        step s = .refused (.undecodable e)))

/-- The engine takes no command where the spec gives it no move: with duplicate keys in TABLE, whatever else the state holds
(R8); under any other TABLE after a fault (R143) and while SEQ is Busy (R87, R145). -/
def Obligations.ExecIsBarred : Prop :=
  ∀ (i : Instr) (s : State),
    (¬s.cfg.UniqueKeys → exec i s = .refused .duplicateKeys) ∧
    (s.cfg.UniqueKeys →
      (∀ f fs, s.bus.faults = f :: fs → exec i s = .fault f) ∧
      (s.bus.faults = [] → s.seq ≠ .idle → exec i s = .refused .commandWhileBusy))

/-- Engine reset (R170; its values for SEQ, CS, CLAIM and RESULT are the spec's decision D33): AW, MATCH, CFG, SEQ, CS, CLAIM
and RESULT at their reset values, and no event issued. -/
def Obligations.EngineResetWritesTheEngine : Prop :=
  ∀ s : State,
    s.engineReset.aw = 0 ∧ s.engineReset.matched = none ∧ s.engineReset.cfgWord = 0 ∧ s.engineReset.seq = .idle ∧
    s.engineReset.bus.cs = false ∧ s.engineReset.bus.claim = false ∧ s.engineReset.result = none ∧
    s.engineReset.bus.trace = s.bus.trace

/-- What an engine reset does not touch (R171): the Device Table (with every parameter), the array, the latch, the status
register, the phase, the write flag and the power state of the device, GP, FAULTS and TRACE. -/
def Obligations.EngineResetKeepsTheRest : Prop :=
  ∀ s : State,
    s.engineReset.cfg = s.cfg ∧ s.engineReset.cfg.table = s.cfg.table ∧ s.engineReset.bus.dev.mem = s.bus.dev.mem ∧
    s.engineReset.bus.dev.wel = s.bus.dev.wel ∧ s.engineReset.bus.dev.sr = s.bus.dev.sr ∧
    s.engineReset.bus.dev.dph = s.bus.dev.dph ∧ s.engineReset.bus.dev.dwr = s.bus.dev.dwr ∧
    s.engineReset.bus.gp = s.bus.gp ∧ s.engineReset.bus.faults = s.bus.faults ∧ s.engineReset.bus.trace = s.bus.trace

/-! ## Commands that touch no bus -/

/-- R90: a reserved code returns `(IllegalCommand, none)` at once, whatever GP is: RESULT is all that changes. -/
def Obligations.ReservedCodesAreIllegal : Prop :=
  ∀ s : State, s.Ready →
    ∀ i ∈ [Instr.reserved0, .reservedD, .reservedE, .reservedF],
      exec i s = .next { s with result := some { code := .illegalCommand, data := .none } }

/-- R104: widths 2 and 3 are written to AW, every other width is `InvalidWidth`; nothing else changes but RESULT, GP is
not looked at and no event is issued. -/
def Obligations.SetAddressWidthTakesTwoOrThree : Prop :=
  ∀ (s : State) (w : Byte), s.Ready →
    exec (.hostSetAddressWidth w) s =
      .next
        (if w = 2 then { s with aw := 2, result := some { code := .ok, data := .none } }
        else if w = 3 then { s with aw := 3, result := some { code := .ok, data := .none } }
        else { s with result := some { code := .invalidWidth, data := .none } })

/-- R110: a memory command with AW = 0 returns `UnsupportedDevice` with no event, whatever GP is; with AW ≠ 0 and GP ≠ Active
it records `F_ASLEEP_ACCESS` and returns nothing. -/
def Obligations.MemoryCommandsPassTheirGate : Prop :=
  ∀ (s : State) (i : Instr), s.Ready → isMemoryCommand i = true →
    (s.aw = 0 → exec i s = .next { s with result := some { code := .unsupportedDevice, data := .none } }) ∧
    (s.aw ≠ 0 → s.bus.gp ≠ .active →
      exec i s = .next { s with seq := .busy i 0, bus := { s.bus with faults := [.asleepAccess] } })

/-- R130, R146: every other command that runs `AwakeCheck` does the same once its earlier checks pass; `initialize` has
issued its handshake by then. -/
def Obligations.SleepingDeviceAccessFaults : Prop :=
  ∀ s : State, s.Ready → s.bus.gp ≠ .active →
    (∀ i, isWire i = false → i ≠ .hostInitialize → (frameOf s.aw i).isSome → s.PassesGate i →
      exec i s = .next { s with seq := .busy i 0, bus := { s.bus with faults := [.asleepAccess] } }) ∧
    (s.bus.answers.beginHead = true →
      ∃ t, exec .hostInitialize s = .next t ∧ t.bus.faults = [.asleepAccess] ∧ t.seq = .busy .hostInitialize 1 ∧
        t.bus.trace = s.bus.trace ++ [.tbegin true] ∧ t.result = s.result ∧ t.aw = s.aw ∧ t.matched = s.matched ∧
        t.bus.dev = s.bus.dev ∧ t.bus.gp = s.bus.gp ∧ t.bus.cs = s.bus.cs ∧ t.bus.claim = s.bus.claim)

/-- R131, R132: without a matched part that can sleep, `sleep` and `wake` return `NotSupported` with no event, whatever
GP is. -/
def Obligations.SleepAndWakeNeedASleepCapablePart : Prop :=
  ∀ s : State, s.Ready → ¬s.CanSleep →
    exec .hostSleep s = .next { s with result := some { code := .notSupported, data := .none } } ∧
    exec .hostWake s = .next { s with result := some { code := .notSupported, data := .none } }

/-! ## Transactions -/

/-- R58: a transaction that returns has put exactly one bracket on TRACE, with nothing but exchanges inside, and left CS
deasserted, the claim released and the device's phase Idle with DWR clear (R75); one that stops has issued no DESELECT and
no RELEASE, and at most one SELECT. -/
def Obligations.TransactionsReleaseOnEveryReturn : Prop :=
  ∀ (c : Config) (out : List Byte) (n : Nat) (b : Bus),
    (∀ r b', b.txn c out n = .done r b' →
      Bus.Released c b b' ∧ b'.dev.dph = .idle ∧ b'.dev.dwr = false ∧
      ∃ inner, b'.trace = b.trace ++ bracket c inner ∧
        ∀ e ∈ inner, (∃ o v, e = .xfer o v) ∨ ∃ o, e = .xferFail o) ∧
    (∀ b', b.txn c out n = .halt b' →
      ∃ ev, b'.trace = b.trace ++ ev ∧ Event.deselect ∉ ev ∧ Event.release ∉ ev ∧ ev.count .select ≤ 1)

/-- R57, R59, R80, R82: each wire frame runs as one transaction: its bytes out, its bytes in, one bracket; the engine's
registers and RESULT are as before; its DESELECT leaves the device's phase Idle with DWR clear (R75). What a raw frame
does at the engine is the model's choice (log entry 2). -/
def Obligations.WireFramesRunTheirTransaction : Prop :=
  ∀ (s : State) (i : Instr) (out : List Byte) (n : Nat), isWire i = true → frameOf s.aw i = some (out, n) →
    s.Ready → s.bus.gp = .active → s.Completes (out.length + n) →
    ∃ t r ev, exec i s = .next t ∧ r.length = n ∧ t.bus.trace = s.bus.trace ++ ev ∧ FrameTrace s.cfg out r ev ∧
      s.SameEngine t ∧ t.result = s.result ∧ Bus.Released s.cfg s.bus t.bus ∧
      t.bus.dev.dph = .idle ∧ t.bus.dev.dwr = false

/-- R57, R58, R140, R142: the first exchange that fails ends the frame: nothing is sent after it, the bracket is closed,
the host command returns `TransferFailed`, AW and MATCH are as before; a failed `sleep` leaves GP Unknown (R131); a
failed raw SLEEP leaves GP Asleep where the composed device took the opcode and as it was where it did not (R68, R75,
D38; raw frames are log entry 2's choice). What the failure leaves of the device's array, latch and status register is
the next statement's. -/
def Obligations.FailedExchangeEndsTheFrame : Prop :=
  ∀ (s : State) (i : Instr) (out : List Byte) (n j : Nat) (took : Bool), s.Ready → s.bus.gp = .active →
    frameOf s.aw i = some (out, n) → s.PassesGate i → j < out.length + n → s.StopsAt j (.fail took) →
    ∃ t ev, exec i s = .next t ∧ t.bus.trace = s.bus.trace ++ preludeOf i ++ ev ∧ FailedTrace s.cfg out n j ev ∧
      s.SameEngine t ∧ Bus.Released s.cfg s.bus t.bus ∧
      t.result = (if isWire i then s.result else some { code := .transferFailed, data := .none }) ∧
      (i = .hostSleep → t.bus.gp = .unknown) ∧
      (i = .wireSleep → t.bus.gp = if s.cfg.composed && took then .asleep else .active) ∧
      (i ≠ .hostSleep → i ≠ .wireSleep → t.bus.gp = s.bus.gp)

/-- R51, R68, R69, R75, D38: what a failed exchange leaves of the device. The DESELECT completes what the device took: the
exchanges before the failing one, and that one where the draw `took` says so. WREN and WRDI reach the latch and WRSR the
status register only where every byte was taken; a WRITE whose opcode was taken clears the latch, and stores nothing while
the device has taken no more than the opcode and its own number of address bytes; READ, RDSR, RDID and SLEEP leave array,
latch and status register. Without the reference device nothing of it changes but the phase. That the draw is a bit of the
transport's answer is log entry 7's choice, WRDI's effect is log entry 21's, raw frames are log entry 2's. -/
def Obligations.FailedExchangeLeavesTheDeviceAsTaken : Prop :=
  ∀ (s : State) (i : Instr) (out : List Byte) (n j : Nat) (took : Bool), s.Ready → s.bus.gp = .active →
    frameOf s.aw i = some (out, n) → s.PassesGate i → j < out.length + n → s.StopsAt j (.fail took) →
    ∃ t, exec i s = .next t ∧ t.bus.dev.dph = .idle ∧ t.bus.dev.dwr = false ∧
      (s.cfg.composed = false →
        t.bus.dev.mem = s.bus.dev.mem ∧ t.bus.dev.wel = s.bus.dev.wel ∧ t.bus.dev.sr = s.bus.dev.sr) ∧
      (s.cfg.composed = true →
        (∀ op ∈ ([0x03, 0x05, 0x9F, 0xB9] : List Byte), out.head? = some op →
          t.bus.dev.mem = s.bus.dev.mem ∧ t.bus.dev.wel = s.bus.dev.wel ∧ t.bus.dev.sr = s.bus.dev.sr) ∧
        (out = [0x06] →
          t.bus.dev.mem = s.bus.dev.mem ∧ t.bus.dev.wel = (took || s.bus.dev.wel) ∧ t.bus.dev.sr = s.bus.dev.sr) ∧
        (out = [0x04] →
          t.bus.dev.mem = s.bus.dev.mem ∧ t.bus.dev.wel = (!took && s.bus.dev.wel) ∧ t.bus.dev.sr = s.bus.dev.sr) ∧
        (∀ v, out = [0x01, v] →
          t.bus.dev.mem = s.bus.dev.mem ∧
          t.bus.dev.sr =
            (if j = 1 ∧ took = true ∧ (s.bus.dev.wel || !s.cfg.dev.wrsrNeedsWel) = true then
              srWrite s.cfg s.bus.dev.sr v
            else s.bus.dev.sr) ∧
          t.bus.dev.wel =
            (if j = 1 ∧ took = true ∧ s.cfg.dev.wrsrNeedsWel = true then false else s.bus.dev.wel)) ∧
        (out.head? = some 0x02 →
          t.bus.dev.sr = s.bus.dev.sr ∧
          t.bus.dev.wel = (if j = 0 ∧ took = false then s.bus.dev.wel else false) ∧
          ((if took then j + 1 else j) ≤ 1 + devWidth s.cfg → t.bus.dev.mem = s.bus.dev.mem)))

/-- Hangs (60_exceptions.md section 2, R144). That the hanging operation puts no event on TRACE and that k does not
count it is the model's choice (log entry 7), and so is what a raw frame does at the engine (log entry 2). An exchange
that never answers leaves SEQ Busy with the events issued so far, CS asserted, the claim held, RESULT as it was; a
`Claim` that never returns does the same before any event of the bracket; and every later step that meets no engine
reset leaves the state as it is. -/
def Obligations.HangsStopTheEngine : Prop :=
  (∀ (s : State) (i : Instr) (out : List Byte) (n j : Nat) (took : Bool), s.Ready → s.bus.gp = .active →
    frameOf s.aw i = some (out, n) → s.PassesGate i → j < out.length + n → s.StopsAt j (.hang took) →
    ∃ t ev, exec i s = .next t ∧ t.bus.trace = s.bus.trace ++ preludeOf i ++ ev ∧ HungTrace s.cfg out n j ev ∧
      t.seq = .busy i ((preludeOf i).length + ev.length) ∧ t.bus.cs = true ∧
      t.bus.claim = (if s.cfg.sharedBus then true else s.bus.claim) ∧ t.bus.faults = [] ∧
      t.result = s.result ∧ t.aw = s.aw ∧ t.matched = s.matched ∧ t.cfg = s.cfg ∧ t.port = s.port ∧
      (t.port.head? ≠ some .reset → step t = .next t)) ∧
  (∀ (s : State) (i : Instr), s.Ready → (isWire i = false → i ≠ .hostWake → s.bus.gp = .active) → s.PassesGate i →
    s.cfg.sharedBus = true → s.bus.answers.claimHead = false → ((frameOf s.aw i).isSome ∨ (i = .hostWake ∧ s.CanSleep)) →
    ∃ t, exec i s = .next t ∧ t.bus.trace = s.bus.trace ++ preludeOf i ∧ t.seq = .busy i (preludeOf i).length ∧
      t.bus.cs = s.bus.cs ∧ t.bus.claim = s.bus.claim ∧ t.bus.dev = s.bus.dev ∧ t.bus.gp = s.bus.gp ∧
      t.bus.faults = [] ∧ t.result = s.result ∧ t.aw = s.aw ∧ t.matched = s.matched ∧ t.port = s.port ∧
      (t.port.head? ≠ some .reset → step t = .next t))

/-- R74: a raw frame to a device that may be asleep records `F_ASLEEP_ACCESS` at its first exchange and stops there. -/
def Obligations.RawFrameToASleepingDeviceFaults : Prop :=
  ∀ (s : State) (i : Instr), isWire i = true → s.Ready → s.bus.gp ≠ .active → s.Completes 1 →
    ∃ t, exec i s = .next t ∧ t.bus.faults = [.asleepAccess] ∧ t.bus.cs = true ∧
      t.seq = .busy i (if s.cfg.sharedBus then 3 else 2) ∧ t.result = s.result ∧
      t.bus.dev.mem = s.bus.dev.mem ∧ t.bus.dev.wel = s.bus.dev.wel ∧ t.bus.dev.sr = s.bus.dev.sr ∧ t.bus.gp = s.bus.gp

/-! ## Identification -/

/-- R102: `getDeviceID` sends `[9F]`, reads four bytes and returns their decoding; AW and MATCH play no part. -/
def Obligations.GetDeviceIdReturnsTheDecodedId : Prop :=
  ∀ s : State, s.Ready → s.bus.gp = .active → s.Completes 5 →
    ∃ t a0 a1 a2 a3 ev, exec .hostGetDeviceID s = .next t ∧
      t.Returned .ok (.deviceId (decodeID a0 a1 a2 a3).1 (decodeID a0 a1 a2 a3).2) ∧
      t.bus.trace = s.bus.trace ++ ev ∧ FrameTrace s.cfg [0x9F] [a0, a1, a2, a3] ev ∧
      s.SameEngine t ∧ Bus.Released s.cfg s.bus t.bus ∧ Bus.SameDevice s.bus t.bus

/-- R45, R73: with the reference device composed, the four bytes every ID frame receives (`getDeviceID`, `initialize`, the
raw RDID of log entry 2) are the device's `DEV_ID`, as far as it goes: they stand on TRACE, `getDeviceID` returns their
decoding, and `initialize` looks their decoding up. -/
def Obligations.ComposedDeviceAnswersItsId : Prop :=
  ∀ (s : State) (i : Instr), s.Ready → s.bus.gp = .active → s.Completes 5 → s.cfg.composed = true →
    frameOf s.aw i = some ([0x9F], 4) → s.PassesGate i →
    ∃ t a0 a1 a2 a3 ev, exec i s = .next t ∧ t.bus.trace = s.bus.trace ++ preludeOf i ++ ev ∧
      FrameTrace s.cfg [0x9F] [a0, a1, a2, a3] ev ∧
      (∀ (k : Nat) (v : Byte), k < 4 → s.cfg.dev.idBytes[k]? = some v → [a0, a1, a2, a3][k]? = some v) ∧
      (i = .hostGetDeviceID →
        t.Returned .ok (.deviceId (decodeID a0 a1 a2 a3).1 (decodeID a0 a1 a2 a3).2)) ∧
      (i = .hostInitialize → t.matched = lookup s.cfg (decodeID a0 a1 a2 a3).1 (decodeID a0 a1 a2 a3).2) ∧
      (i = .wireRdid → t.result = s.result)

/-- R103, R105: `initialize` on a completed ID frame: the ID's table entry configures MATCH and AW and the command returns Ok;
an ID of no entry leaves MATCH none and AW 0 and the command returns `UnsupportedDevice`. -/
def Obligations.InitializeConfiguresFromTheTable : Prop :=
  ∀ s : State, s.Ready → s.bus.gp = .active → s.bus.answers.beginHead = true → s.Completes 5 →
    ∃ t a0 a1 a2 a3 ev, exec .hostInitialize s = .next t ∧
      t.bus.trace = s.bus.trace ++ [.tbegin true] ++ ev ∧ FrameTrace s.cfg [0x9F] [a0, a1, a2, a3] ev ∧
      (∀ i d, lookup s.cfg (decodeID a0 a1 a2 a3).1 (decodeID a0 a1 a2 a3).2 = some i → s.cfg.table[i]? = some d →
        t.matched = some i ∧ t.aw = widthFor d.sizeBytes ∧ t.Returned .ok .none) ∧
      (lookup s.cfg (decodeID a0 a1 a2 a3).1 (decodeID a0 a1 a2 a3).2 = none →
        t.matched = none ∧ t.aw = 0 ∧ t.Returned .unsupportedDevice .none) ∧
      t.cfg = s.cfg ∧ t.port = s.port ∧ t.bus.faults = [] ∧
      Bus.Released s.cfg s.bus t.bus ∧ Bus.SameDevice s.bus t.bus

/-- R103, R140, D12: a handshake answered false returns `BusUnavailable` with that one event and AW and MATCH as they were. -/
def Obligations.InitializeReportsTheUnavailableBus : Prop :=
  ∀ s : State, s.Ready → s.bus.answers.beginHead = false →
    ∃ t, exec .hostInitialize s = .next t ∧ t.Returned .busUnavailable .none ∧
      t.bus.trace = s.bus.trace ++ [.tbegin false] ∧ s.SameEngine t ∧ t.bus.dev = s.bus.dev ∧ t.bus.gp = s.bus.gp ∧
      t.bus.cs = s.bus.cs ∧ t.bus.claim = s.bus.claim

/-! ## Control -/

/-- R120, R75: `writeEnable` sends WREN or WRDI alone; with the device composed the latch becomes `en`. -/
def Obligations.WriteEnableSetsTheLatch : Prop :=
  ∀ (s : State) (en : Bool), s.Ready → s.bus.gp = .active → s.Completes 1 →
    ∃ t ev, exec (.hostWriteEnable en) s = .next t ∧ t.Returned .ok .none ∧
      t.bus.trace = s.bus.trace ++ ev ∧ FrameTrace s.cfg [if en then 0x06 else 0x04] [] ev ∧
      s.SameEngine t ∧ Bus.Released s.cfg s.bus t.bus ∧
      t.bus.dev.wel = (if s.cfg.composed then en else s.bus.dev.wel) ∧
      t.bus.dev.mem = s.bus.dev.mem ∧ t.bus.dev.sr = s.bus.dev.sr ∧ t.bus.gp = s.bus.gp

/-- R121, R72: `getStatusRegister` sends `[05]` and returns the byte received; with the device composed that is
`SR_READ(SR, WEL)`; the device is as before. -/
def Obligations.GetStatusRegisterReturnsTheByteReceived : Prop :=
  ∀ s : State, s.Ready → s.bus.gp = .active → s.Completes 2 →
    ∃ t v ev, exec .hostGetStatusRegister s = .next t ∧ t.Returned .ok (.byte v) ∧
      t.bus.trace = s.bus.trace ++ ev ∧ FrameTrace s.cfg [0x05] [v] ev ∧
      (s.cfg.composed = true → v = srRead s.cfg s.bus.dev.sr s.bus.dev.wel) ∧
      s.SameEngine t ∧ Bus.Released s.cfg s.bus t.bus ∧ Bus.SameDevice s.bus t.bus

/-- R122, R68, R75: `setStatusRegister` sends `[01, v]` and returns Ok; with the device composed the status register becomes
`SR_WRITE(SR, v)` where the latch is set or not needed, and the latch clears where it is needed. -/
def Obligations.SetStatusRegisterWritesWhenHonoured : Prop :=
  ∀ (s : State) (v : Byte), s.Ready → s.bus.gp = .active → s.Completes 2 →
    ∃ t ev, exec (.hostSetStatusRegister v) s = .next t ∧ t.Returned .ok .none ∧
      t.bus.trace = s.bus.trace ++ ev ∧ FrameTrace s.cfg [0x01, v] [] ev ∧
      s.SameEngine t ∧ Bus.Released s.cfg s.bus t.bus ∧
      t.bus.dev.mem = s.bus.dev.mem ∧ t.bus.gp = s.bus.gp ∧
      t.bus.dev.sr =
        (if s.cfg.composed && (s.bus.dev.wel || !s.cfg.dev.wrsrNeedsWel) then srWrite s.cfg s.bus.dev.sr v
        else s.bus.dev.sr) ∧
      t.bus.dev.wel = (if s.cfg.composed && s.cfg.dev.wrsrNeedsWel then false else s.bus.dev.wel)

/-! ## Memory access -/

/-- R111, R112: `write8` and `writeBlock` send one WRITE frame, address then payload, and return Ok whether or not the device
honours it; no engine register changes; with no reference device composed the device's state is as before. -/
def Obligations.WriteCommandsSendOneFrame : Prop :=
  ∀ (s : State) (addr : Word) (payload : List Byte), s.Ready → s.aw ≠ 0 → s.bus.gp = .active →
    s.Completes (1 + (addrBytes addr s.aw).length + payload.length) →
    (∃ t ev, exec (.hostWriteBlock addr payload) s = .next t ∧ t.Returned .ok .none ∧
      t.bus.trace = s.bus.trace ++ ev ∧ FrameTrace s.cfg (0x02 :: (addrBytes addr s.aw ++ payload)) [] ev ∧
      s.SameEngine t ∧ Bus.Released s.cfg s.bus t.bus ∧ t.bus.gp = s.bus.gp ∧ t.bus.dev.sr = s.bus.dev.sr ∧
      (s.cfg.composed = false → Bus.SameDevice s.bus t.bus)) ∧
    (∀ v, payload = [v] →
      ∃ t ev, exec (.hostWrite8 addr v) s = .next t ∧ t.Returned .ok .none ∧
        t.bus.trace = s.bus.trace ++ ev ∧ FrameTrace s.cfg (0x02 :: (addrBytes addr s.aw ++ [v])) [] ev ∧
        s.SameEngine t ∧ Bus.Released s.cfg s.bus t.bus ∧ t.bus.gp = s.bus.gp ∧ t.bus.dev.sr = s.bus.dev.sr ∧
        (s.cfg.composed = false → Bus.SameDevice s.bus t.bus))

/-- R113, R114: `read8` and `readBlock` send one READ frame and return the bytes received, in order; the device is as
before. -/
def Obligations.ReadCommandsReturnTheBytesReceived : Prop :=
  ∀ (s : State) (addr count : Word), s.Ready → s.aw ≠ 0 → s.bus.gp = .active →
    s.Completes (1 + (addrBytes addr s.aw).length + count.toNat) →
    (∃ t r ev, exec (.hostReadBlock addr count) s = .next t ∧ r.length = count.toNat ∧ t.Returned .ok (.bytes r) ∧
      t.bus.trace = s.bus.trace ++ ev ∧ FrameTrace s.cfg (0x03 :: addrBytes addr s.aw) r ev ∧
      s.SameEngine t ∧ Bus.Released s.cfg s.bus t.bus ∧ Bus.SameDevice s.bus t.bus) ∧
    (count = 1 →
      ∃ t v ev, exec (.hostRead8 addr) s = .next t ∧ t.Returned .ok (.byte v) ∧
        t.bus.trace = s.bus.trace ++ ev ∧ FrameTrace s.cfg (0x03 :: addrBytes addr s.aw) [v] ev ∧
        s.SameEngine t ∧ Bus.Released s.cfg s.bus t.bus ∧ Bus.SameDevice s.bus t.bus)

/-- R69, R71, R75, R181: what a completed WRITE frame does to the composed device, whoever sends it: reading the frame by the
device's own width, every cell holds the payload byte that went to it last where the latch was set and the cell may
be written, and what it held before otherwise; the latch is clear; nothing else of the device changes. -/
def Obligations.WriteFrameStoresItsPayload : Prop :=
  ∀ (s : State) (i : Instr) (a : WireAddr) (payload : List Byte), s.Ready → s.bus.gp = .active →
    s.cfg.composed = true → s.PassesGate i → frameOf s.aw i = some (0x02 :: (a.bytes ++ payload), 0) →
    widthBytes a.width = devWidth s.cfg → s.bus.dev.mem.wf →
    s.Completes (1 + a.bytes.length + payload.length) →
    ∃ t, exec i s = .next t ∧ t.bus.dev.wel = false ∧ t.bus.dev.sr = s.bus.dev.sr ∧ t.bus.gp = s.bus.gp ∧
      t.bus.dev.mem.wf ∧
      ∀ x, t.bus.dev.mem.read x =
        if s.bus.dev.wel && writeAllowed s.cfg s.bus.dev.sr x then
          (storedByte s.cfg (firstCell s.cfg a) payload x).getD (s.bus.dev.mem.read x)
        else s.bus.dev.mem.read x

/-- R69, R75, R181: a completed WRITE frame that ends before the device has its own number of address bytes stores
nothing; the latch is clear. -/
def Obligations.ShortWriteFrameStoresNothing : Prop :=
  ∀ (s : State) (i : Instr) (bytes : List Byte), s.Ready → s.bus.gp = .active → s.cfg.composed = true →
    s.PassesGate i → frameOf s.aw i = some (0x02 :: bytes, 0) → bytes.length < devWidth s.cfg →
    s.Completes (1 + bytes.length) →
    ∃ t, exec i s = .next t ∧ t.bus.dev.mem = s.bus.dev.mem ∧ t.bus.dev.wel = false ∧ t.bus.dev.sr = s.bus.dev.sr ∧
      t.bus.gp = s.bus.gp

/-- R51, R71, R112, D38: a WRITE frame that fails in its payload has stored the bytes before the failing one, and the
failing one if the device took it, under the same conditions; the latch is clear. -/
def Obligations.FailedWriteStoresAPrefix : Prop :=
  ∀ (s : State) (i : Instr) (a : WireAddr) (payload : List Byte) (j : Nat) (took : Bool), s.Ready →
    s.bus.gp = .active → s.cfg.composed = true → s.PassesGate i →
    frameOf s.aw i = some (0x02 :: (a.bytes ++ payload), 0) → widthBytes a.width = devWidth s.cfg →
    s.bus.dev.mem.wf → j < payload.length → s.StopsAt (1 + a.bytes.length + j) (.fail took) →
    ∃ t, exec i s = .next t ∧ t.bus.dev.wel = false ∧ t.bus.dev.sr = s.bus.dev.sr ∧
      ∀ x, t.bus.dev.mem.read x =
        if s.bus.dev.wel && writeAllowed s.cfg s.bus.dev.sr x then
          (storedByte s.cfg (firstCell s.cfg a) (payload.take (if took then j + 1 else j)) x).getD
            (s.bus.dev.mem.read x)
        else s.bus.dev.mem.read x

/-- R69, R70, R52: a completed READ frame on the composed device receives the array's bytes from the addressed cell on,
one cell a byte, which `read8` and `readBlock` return, and leaves the device as it was. The frame is of the device's own
width; the next statement is about the other two cases. -/
def Obligations.ReadFrameReturnsTheArray : Prop :=
  ∀ (s : State) (i : Instr) (a : WireAddr) (n : Nat), s.Ready → s.bus.gp = .active → s.cfg.composed = true →
    s.PassesGate i → frameOf s.aw i = some (0x03 :: a.bytes, n) → widthBytes a.width = devWidth s.cfg →
    s.Completes (1 + a.bytes.length + n) →
    ∃ t ev, exec i s = .next t ∧ t.bus.trace = s.bus.trace ++ ev ∧
      FrameTrace s.cfg (0x03 :: a.bytes)
        ((List.range n).map fun j => s.bus.dev.mem.read (cellAfter s.cfg (firstCell s.cfg a) j)) ev ∧
      (∀ x c, i = .hostReadBlock x c →
        t.Returned .ok
          (.bytes ((List.range n).map fun j => s.bus.dev.mem.read (cellAfter s.cfg (firstCell s.cfg a) j)))) ∧
      (∀ x, i = .hostRead8 x → t.Returned .ok (.byte (s.bus.dev.mem.read (firstCell s.cfg a)))) ∧
      Bus.SameDevice s.bus t.bus

/-- R69, R70, R181, D43: a completed READ frame of another width than the composed device's. Two address bytes to a
device that takes three: the device takes the first FILL byte as its last address byte (what is received in that
exchange is a draw), and the bytes after it are the array's from the cell so addressed. Three address bytes to a device
that takes two: the first two are the address, the third already moves the cell on, so the bytes received begin one cell
further. The device is as it was in both. -/
def Obligations.ReadFrameOfAnotherWidthReturnsShiftedBytes : Prop :=
  (∀ (s : State) (i : Instr) (a : BitVec 16) (n : Nat), s.Ready → s.bus.gp = .active → s.cfg.composed = true →
    s.PassesGate i → frameOf s.aw i = some (0x03 :: (WireAddr.two a).bytes, n) → devWidth s.cfg = 3 →
    s.Completes (3 + n) →
    ∃ t r ev, exec i s = .next t ∧ r.length = n ∧ t.bus.trace = s.bus.trace ++ ev ∧
      FrameTrace s.cfg (0x03 :: (WireAddr.two a).bytes) r ev ∧
      (∀ k, k + 1 < n → r[k + 1]? = some (s.bus.dev.mem.read (cellAfter s.cfg (devCell s.cfg (a ++ s.cfg.fill)) k))) ∧
      (∀ x c, i = .hostReadBlock x c → t.Returned .ok (.bytes r)) ∧
      (∀ x v, i = .hostRead8 x → r = [v] → t.Returned .ok (.byte v)) ∧
      Bus.SameDevice s.bus t.bus) ∧
  (∀ (s : State) (i : Instr) (a : BitVec 24) (n : Nat), s.Ready → s.bus.gp = .active → s.cfg.composed = true →
    s.PassesGate i → frameOf s.aw i = some (0x03 :: (WireAddr.three a).bytes, n) → devWidth s.cfg = 2 →
    s.Completes (4 + n) →
    ∃ t r ev, exec i s = .next t ∧ t.bus.trace = s.bus.trace ++ ev ∧
      r = ((List.range n).map fun k =>
        s.bus.dev.mem.read (cellAfter s.cfg (devCell s.cfg ((a.extractLsb' 8 16).setWidth 24)) (k + 1))) ∧
      FrameTrace s.cfg (0x03 :: (WireAddr.three a).bytes) r ev ∧
      (∀ x c, i = .hostReadBlock x c → t.Returned .ok (.bytes r)) ∧
      (∀ x v, i = .hostRead8 x → r = [v] → t.Returned .ok (.byte v)) ∧
      Bus.SameDevice s.bus t.bus)

/-- R78, R43, C2: the round trip. On an awake composed device of the engine's width, after `writeEnable true`, a
`writeBlock` into writable cells that fit the array followed by a `readBlock` of as many bytes returns the bytes. -/
def Obligations.RoundTripReturnsTheBytes : Prop :=
  ∀ (s : State) (addr : Word) (payload : List Byte), s.Ready → s.bus.gp = .active → s.cfg.composed = true →
    (s.aw = 2 ∨ s.aw = 3) → devWidth s.cfg = s.aw.toNat → s.bus.dev.mem.wf → payload.length < 2 ^ 32 →
    firstCell s.cfg (wireAddr addr s.aw) + payload.length ≤ devSize s.cfg →
    (∀ j < payload.length,
      writeAllowed s.cfg s.bus.dev.sr (cellAfter s.cfg (firstCell s.cfg (wireAddr addr s.aw)) j) = true) →
    (s.cfg.sharedBus = true → (s.bus.answers.claims.take 3).all id = true) →
    (s.bus.answers.xfers.take (1 + 2 * (1 + s.aw.toNat + payload.length))).all XferAnswer.isByte = true →
    ∃ t u v, exec (.hostWriteEnable true) s = .next t ∧ exec (.hostWriteBlock addr payload) t = .next u ∧
      exec (.hostReadBlock addr (BitVec.ofNat 32 payload.length)) u = .next v ∧
      t.Returned .ok .none ∧ u.Returned .ok .none ∧ v.Returned .ok (.bytes payload)

/-! ## Power -/

/-- R131: on an awake part that can sleep, `sleep` sends `[B9]` with no delay and leaves GP Asleep. -/
def Obligations.SleepPutsThePartToSleep : Prop :=
  ∀ s : State, s.Ready → s.CanSleep → s.bus.gp = .active → s.Completes 1 →
    ∃ t ev, exec .hostSleep s = .next t ∧ t.Returned .ok .none ∧ t.bus.gp = .asleep ∧
      t.bus.trace = s.bus.trace ++ ev ∧ FrameTrace s.cfg [0xB9] [] ev ∧
      s.SameEngine t ∧ Bus.Released s.cfg s.bus t.bus ∧
      t.bus.dev.mem = s.bus.dev.mem ∧ t.bus.dev.wel = s.bus.dev.wel ∧ t.bus.dev.sr = s.bus.dev.sr

/-- R75: a completed raw SLEEP frame puts the composed device to sleep; raw WREN and WRDI set and clear its latch; a raw RDSR
and RDID change nothing of it; a raw WRSR does what R75 says. -/
def Obligations.RawFramesReachTheDevice : Prop :=
  ∀ s : State, s.Ready → s.bus.gp = .active → s.cfg.composed = true → s.Completes 5 →
    (∃ t, exec .wireSleep s = .next t ∧ t.bus.gp = .asleep ∧ t.bus.dev.mem = s.bus.dev.mem ∧
      t.bus.dev.wel = s.bus.dev.wel ∧ t.bus.dev.sr = s.bus.dev.sr) ∧
    (∃ t, exec .wireWren s = .next t ∧ t.bus.dev.wel = true ∧ t.bus.dev.mem = s.bus.dev.mem ∧
      t.bus.dev.sr = s.bus.dev.sr ∧ t.bus.gp = s.bus.gp) ∧
    (∃ t, exec .wireWrdi s = .next t ∧ t.bus.dev.wel = false ∧ t.bus.dev.mem = s.bus.dev.mem ∧
      t.bus.dev.sr = s.bus.dev.sr ∧ t.bus.gp = s.bus.gp) ∧
    (∃ t, exec .wireRdsr s = .next t ∧ Bus.SameDevice s.bus t.bus) ∧
    (∃ t, exec .wireRdid s = .next t ∧ Bus.SameDevice s.bus t.bus) ∧
    (∀ v, ∃ t, exec (.wireWrsr v) s = .next t ∧ t.bus.dev.mem = s.bus.dev.mem ∧ t.bus.gp = s.bus.gp ∧
      t.bus.dev.sr =
        (if s.bus.dev.wel || !s.cfg.dev.wrsrNeedsWel then srWrite s.cfg s.bus.dev.sr v else s.bus.dev.sr) ∧
      t.bus.dev.wel = (if s.cfg.dev.wrsrNeedsWel then false else s.bus.dev.wel))

/-- R132: on a part that can sleep, whatever GP is, `wake` claims, selects, holds 300 µs, deselects, releases, waits 100
µs, and 50 µs more for an `EXT_WAKE` part, and leaves GP Active, the device's phase Idle and DWR clear (R75). -/
def Obligations.WakeRunsItsTimedSequence : Prop :=
  ∀ (s : State) (d : DeviceDescriptor), s.Ready → s.matchedDescriptor = some d → d.supportsSleep = true →
    (s.cfg.sharedBus = true → s.bus.answers.claimHead = true) →
    ∃ t, exec .hostWake s = .next t ∧ t.Returned .ok .none ∧ t.bus.gp = .active ∧
      t.bus.trace = s.bus.trace ++ bracket s.cfg [.delay 300] ++ [.delay 100] ++
        (if extWake s.cfg d then [.delay 50] else []) ∧
      s.SameEngine t ∧ Bus.Released s.cfg s.bus t.bus ∧ t.bus.dev.dph = .idle ∧ t.bus.dev.dwr = false ∧
      t.bus.dev.mem = s.bus.dev.mem ∧ t.bus.dev.wel = s.bus.dev.wel ∧ t.bus.dev.sr = s.bus.dev.sr

/-- R134: the DELAY arguments of a `wake` that returns Ok sum to 450 for an `EXT_WAKE` part and to 400 otherwise. -/
def Obligations.WakeDelaysSumTo450Or400 : Prop :=
  ∀ (s t : State) (d : DeviceDescriptor) (ev : List Event), exec .hostWake s = .next t →
    s.matchedDescriptor = some d → t.Returned .ok .none → t.bus.trace = s.bus.trace ++ ev →
    delaySum ev = if extWake s.cfg d then 450 else 400

/-- R133: the default extended-wake predicate: manufacturer 0x04 and low product byte 0x0B. -/
def Obligations.DefaultExtendedWakePredicate : Prop :=
  ∀ (c : Config) (d : DeviceDescriptor), c.extWake = none →
    (extWake c d = true ↔ d.manufacturerId = 0x04 ∧ d.productId.toNat % 256 = 0x0B)

/-! ## Rules over all instructions -/

/-- R21, R22, R28: only `initialize` and `setAddressWidth` write AW, only `initialize` writes MATCH, no instruction writes the
parameters (TABLE among them). -/
def Obligations.OnlyConfigurationCommandsWriteAwAndMatch : Prop :=
  ∀ (i : Instr) (s t : State), exec i s = .next t →
    t.cfg = s.cfg ∧ t.port = s.port ∧ (i ≠ .hostInitialize → t.matched = s.matched) ∧
    (i ≠ .hostInitialize → (∀ w, i ≠ .hostSetAddressWidth w) → t.aw = s.aw)

/-- R142, R140: after an error return the data is none; AW and MATCH are as before but after `UnsupportedDevice` from
`initialize`, which leaves none and 0; a `TransferFailed` from `sleep` leaves GP Unknown; CS and CLAIM are 0. -/
def Obligations.ErrorsLeaveTheStateUnchanged : Prop :=
  ∀ (i : Instr) (s t : State) (code : ResultCode) (data : ResultData), s.Inv → isWire i = false →
    exec i s = .next t → t.Returned code data → code ≠ .ok →
    data = .none ∧ t.bus.cs = false ∧ t.bus.claim = false ∧
    (if i = .hostInitialize ∧ code = .unsupportedDevice then t.matched = none ∧ t.aw = 0
      else t.matched = s.matched ∧ t.aw = s.aw) ∧
    (i = .hostSleep → code = .transferFailed → t.bus.gp = .unknown)

/-- R140: which error codes the commands return, and on which causes: BusUnavailable from `initialize` on a handshake answered
false; UnsupportedDevice from `initialize` on an ID received that is not in TABLE, and from a memory command with AW = 0;
NotSupported from `sleep` and `wake` without a capable part; TransferFailed from a command with a frame, an exchange having
failed; InvalidWidth from `setAddressWidth` of another width; IllegalCommand from the reserved codes. Each cause of a
returned command gives its code as well. -/
def Obligations.ResultCodesComeFromTheirCommands : Prop :=
  ∀ (i : Instr) (s t : State) (code : ResultCode) (data : ResultData), isWire i = false → exec i s = .next t →
    t.Returned code data →
    (code = .busUnavailable ↔ i = .hostInitialize ∧ s.bus.answers.beginHead = false) ∧
    (code = .unsupportedDevice ↔
      (i = .hostInitialize ∧ ∃ a0 a1 a2 a3 ev, t.bus.trace = s.bus.trace ++ [.tbegin true] ++ ev ∧
        FrameTrace s.cfg [0x9F] [a0, a1, a2, a3] ev ∧
        lookup s.cfg (decodeID a0 a1 a2 a3).1 (decodeID a0 a1 a2 a3).2 = none) ∨
      (isMemoryCommand i = true ∧ s.aw = 0)) ∧
    (code = .notSupported ↔ (i = .hostSleep ∨ i = .hostWake) ∧ ¬s.CanSleep) ∧
    (code = .transferFailed ↔
      (frameOf s.aw i).isSome ∧ ∃ ev o, t.bus.trace = s.bus.trace ++ ev ∧ Event.xferFail o ∈ ev) ∧
    (code = .invalidWidth ↔ ∃ w, i = .hostSetAddressWidth w ∧ w ≠ 2 ∧ w ≠ 3) ∧
    (code = .illegalCommand ↔ i ∈ [Instr.reserved0, .reservedD, .reservedE, .reservedF])

/-- R27, R87, R145: the host's read of RESULT: the last pair returned; before the first return, and after an engine reset
until the next, it has no move (the refusal is the model's form of that); under a TABLE with duplicate keys it has no
meaning (R8). A command that returns makes RESULT readable; one that stops, and a raw frame (log entry 2), leave it as it
was. -/
def Obligations.ResultIsReadableAfterTheFirstReturn : Prop :=
  State.reset.readResult = .error .resultNotReady ∧
  ∀ s : State,
    (¬s.cfg.UniqueKeys → s.readResult = .error .duplicateKeys) ∧
    (s.cfg.UniqueKeys →
      (∀ r, s.readResult = .ok r ↔ s.result = some r) ∧
      (s.readResult = .error .resultNotReady ↔ s.result = none) ∧
      s.engineReset.readResult = .error .resultNotReady) ∧
    ∀ (i : Instr) (t : State), exec i s = .next t →
      (isWire i = false → t.seq = .idle → ∃ code data, t.readResult = .ok { code := code, data := data } ∧
        t.Returned code data) ∧
      (isWire i = true ∨ t.seq ≠ .idle → t.readResult = s.readResult)

/-- R130: GP is written by `sleep`, `wake` and the SLEEP frame only; a `sleep` that returns leaves it as it was, Asleep or
Unknown; a `wake` that returns leaves it as it was or Active; one that stops in a hang or a fault leaves it as it was. A
raw SLEEP frame (log entry 2) leaves it as it was or, its transaction ended, takes Active to Asleep (R75). -/
def Obligations.OnlySleepAndWakeChangePower : Prop :=
  ∀ (i : Instr) (s t : State), exec i s = .next t →
    (i ≠ .hostSleep → i ≠ .hostWake → i ≠ .wireSleep → t.bus.gp = s.bus.gp) ∧
    (i = .hostSleep → t.seq = .idle →
      t.bus.gp = s.bus.gp ∧ t.Returned .notSupported .none ∨
      s.bus.gp = .active ∧ t.bus.gp = .asleep ∧ t.Returned .ok .none ∨
      s.bus.gp = .active ∧ t.bus.gp = .unknown ∧ t.Returned .transferFailed .none) ∧
    (i = .hostWake → t.seq = .idle →
      t.bus.gp = s.bus.gp ∧ t.Returned .notSupported .none ∨ t.bus.gp = .active ∧ t.Returned .ok .none) ∧
    (i = .wireSleep →
      t.bus.gp = s.bus.gp ∨ s.bus.gp = .active ∧ t.bus.gp = .asleep ∧ t.seq = .idle) ∧
    (t.seq ≠ .idle → t.bus.gp = s.bus.gp)

/-- R79, R115: no instruction but `write8`, `writeBlock` and the WRITE frame changes the array, and those only with the
latch set. -/
def Obligations.OnlyHonouredWritesChangeTheArray : Prop :=
  ∀ (i : Instr) (s t : State), exec i s = .next t →
    ((∀ a v, i ≠ .hostWrite8 a v) ∧ (∀ a p, i ≠ .hostWriteBlock a p) ∧ (∀ a p, i ≠ .wireWrite a p) ∨
      s.bus.dev.wel = false) →
    t.bus.dev.mem = s.bus.dev.mem

/-- R24, R59: a host command issues at most `7 + AW + L` events (10 for `initialize`), among them at most one SELECT,
and as many DESELECT as SELECT once it has returned. -/
def Obligations.CommandsIssueBoundedEvents : Prop :=
  ∀ (i : Instr) (s t : State) (ev : List Event), isWire i = false → exec i s = .next t →
    t.bus.trace = s.bus.trace ++ ev →
    ev.length ≤ eventBound s.aw i ∧ ev.count .select ≤ 1 ∧ (t.seq = .idle → ev.count .deselect = ev.count .select)

/-- R29, R81, R91: the first byte any instruction exchanges is one of the eight opcodes. -/
def Obligations.FramesBeginWithAWireOpcode : Prop :=
  ∀ (i : Instr) (s t : State) (ev : List Event) (o : Byte), exec i s = .next t →
    t.bus.trace = s.bus.trace ++ ev → firstSent ev = some o →
    o ∈ ([0x06, 0x04, 0x05, 0x01, 0x03, 0x02, 0x9F, 0xB9] : List Byte)

/-- R31, R32: a step only appends to TRACE and never clears a fault. -/
def Obligations.TraceAndFaultsOnlyGrow : Prop :=
  ∀ s t : State, step s = .next t → s.bus.trace <+: t.bus.trace ∧ s.bus.faults <+: t.bus.faults

/-- Every step keeps the machine's invariant. -/
def Obligations.StepKeepsTheInvariant : Prop :=
  ∀ s t : State, s.Inv → step s = .next t → t.Inv

/-- The invariant holds at reset, and at launch under every configuration whose initial array is canonical and inside the
device. -/
def Obligations.ResetMeetsTheInvariant : Prop :=
  State.reset.Inv ∧
    ∀ c : Config, Memory.wf c.dev.mem0 → (∀ x ∈ c.dev.mem0, x.1 < devSize c) → (State.launch c).Inv
end

