-- ==== Sys2Proof/Tests/Slice0.lean ====
section
/-! SUPPORT. The model's own tests. Expected values are the spec's: the tables of 30_encoding.md and the vectors of
95_test_vectors.md, named in each docstring. -/

namespace Sys2Proof.Tests

open Sys2Proof.Machine

/-! ## Well-formed and ill-formed instructions (R50, R88) -/

theorem test_wellFormed_longest_payload :
    (Instr.hostWriteBlock 0 (List.replicate 0xFFFFFFFF 0)).wellFormed = true ∧
      (Instr.wireWrite (.two 0) (List.replicate 0xFFFFFFFF 0)).wellFormed = true := by
  simp only [Instr.wellFormed, List.length_replicate]
  decide

theorem test_illFormed_writeBlock : (Instr.hostWriteBlock 0 (List.replicate 0x100000000 0)).wellFormed = false := by
  simp only [Instr.wellFormed, List.length_replicate]
  decide

theorem test_illFormed_wireWrite :
    (Instr.wireWrite (.two 0) (List.replicate 0x100000000 0)).wellFormed = false := by
  simp only [Instr.wellFormed, List.length_replicate]
  decide

/-! ## Decoding: words written out from R80, R82 and R88 -/

/-- A frame as it stands on the wire. -/
def wire (width : AddrWidth) (out : List Byte) (nIn : Nat) : PortWord := .frame { width := width, out := out, nIn := nIn }

/-- R80's opcode bytes bit by bit, R82's frames of one or two bytes. -/
theorem test_decode_plain_frames :
    decode (wire .two [0b00000110] 0) = .ok .wireWren ∧ decode (wire .two [0b00000100] 0) = .ok .wireWrdi ∧
    decode (wire .two [0b00000101] 1) = .ok .wireRdsr ∧ decode (wire .two [0b10011111] 4) = .ok .wireRdid ∧
    decode (wire .two [0b10111001] 0) = .ok .wireSleep ∧
    decode (wire .two [0b00000001, 0x80] 0) = .ok (.wireWrsr 0x80) := by decide

/-- S6 and S7: the READ frames of address 0x1234 at width 2 and 0x123456 at width 3; a WRITE frame. -/
theorem test_decode_memory_frames :
    decode (wire .two [0b00000011, 0x12, 0x34] 1) = .ok (.wireRead (.two 0x1234) 1) ∧
    decode (wire .three [0b00000011, 0x12, 0x34, 0x56] 0) = .ok (.wireRead (.three 0x123456) 0) ∧
    decode (wire .two [0b00000010, 0x1F, 0xFE, 1, 2, 3] 0) = .ok (.wireWrite (.two 0x1FFE) [1, 2, 3]) := by decide

/-- R86: the same bytes read at the other width are another frame; R91: no other first byte is a frame. -/
theorem test_decode_width_and_unknown :
    decode (wire .three [0x02, 0x00, 0x00, 0x10, 0xAB] 0) = .ok (.wireWrite (.three 0x000010) [0xAB]) ∧
    decode (wire .two [0x02, 0x00, 0x00, 0x10, 0xAB] 0) = .ok (.wireWrite (.two 0x0000) [0x10, 0xAB]) ∧
    decode (wire .two [0x9E] 0) = .error (.unknownOpcode 0x9E) ∧ decode (wire .two [] 0) = .error .emptyFrame ∧
    decode (wire .two [0x06, 0x00] 0) = .error (.wrongFrameLength 0x06) := by decide

/-- R88's codes bit by bit, identification and control. -/
theorem test_decode_control_commands :
    decode (.command { cmd := 0b0001 }) = .ok .hostInitialize ∧
    decode (.command { cmd := 0b0010, en := true }) = .ok (.hostWriteEnable true) ∧
    decode (.command { cmd := 0b0111 }) = .ok .hostGetDeviceID ∧
    decode (.command { cmd := 0b1000 }) = .ok .hostGetStatusRegister ∧
    decode (.command { cmd := 0b1001, data := 0x80 }) = .ok (.hostSetStatusRegister 0x80) ∧
    decode (.command { cmd := 0b1010, width := 4 }) = .ok (.hostSetAddressWidth 4) ∧
    decode (.command { cmd := 0b1011 }) = .ok .hostSleep ∧ decode (.command { cmd := 0b1100 }) = .ok .hostWake := by decide

/-- R88's codes bit by bit, memory access (the encodings of programs P1 and P2). -/
theorem test_decode_memory_commands :
    decode (.command { cmd := 0b0011, addr := 0x00000010, data := 0xAB }) = .ok (.hostWrite8 0x10 0xAB) ∧
    decode (.command { cmd := 0b0100, addr := 0x01012345, payload := [0x11, 0x22, 0x33] }) =
      .ok (.hostWriteBlock 0x01012345 [0x11, 0x22, 0x33]) ∧
    decode (.command { cmd := 0b0101, addr := 0x00000010 }) = .ok (.hostRead8 0x10) ∧
    decode (.command { cmd := 0b0110, addr := 0x00012345, count := 3 }) = .ok (.hostReadBlock 0x012345 3) := by decide

/-- R90's reserved codes. -/
theorem test_decode_reserved :
    decode (.command { cmd := 0b0000 }) = .ok .reserved0 ∧ decode (.command { cmd := 0b1101 }) = .ok .reservedD ∧
    decode (.command { cmd := 0b1110 }) = .ok .reservedE ∧ decode (.command { cmd := 0b1111 }) = .ok .reservedF := by decide

/-- The opcode table's bytes: 0x9F is RDID, 0x07 is `getDeviceID` (notes/assumptions/20.md). -/
theorem test_decodeTableWord :
    decodeTableWord 8 0x9F = some .wireRdid ∧ decodeTableWord 8 0xB9 = some .wireSleep ∧
      decodeTableWord 8 0x07 = some .hostGetDeviceID ∧ decodeTableWord 8 0x0D = some .reservedD := by decide

/-! ## Operand forms -/

/-- V1. -/
theorem test_addrBytes :
    addrBytes 0x00123456 2 = [0x34, 0x56] ∧ addrBytes 0xFF00ABCD 3 = [0x00, 0xAB, 0xCD] ∧
      addrBytes 0x00010000 2 = [0x00, 0x00] ∧ addrBytes 0xFFFFFFFF 3 = [0xFF, 0xFF, 0xFF] := by decide

/-- V2. -/
theorem test_decodeID :
    decodeID 0x04 0x7F 0x03 0x02 = (0x04, 0x0302) ∧ decodeID 0xAE 0x83 0x05 0x00 = (0xAE, 0x8305) ∧
      decodeID 0x12 0x80 0x7F 0x00 = (0x12, 0x807F) ∧ decodeID 0x7F 0x12 0x34 0x56 = (0x7F, 0x1234) := by decide

/-- V3. -/
theorem test_widthFor : widthFor 0 = 2 ∧ widthFor 65536 = 2 ∧ widthFor 65537 = 3 ∧ widthFor 0xFFFFFFFF = 3 := by decide

/-! ## Fixtures: TEST_TABLE and its devices (95_test_vectors.md section 2) -/

/-- TEST_TABLE. -/
def table : List DeviceDescriptor :=
  [⟨0x04, 0x0302, 8192, false⟩, ⟨0xAE, 0x8305, 8192, false⟩, ⟨0x04, 0x2303, 8192, true⟩,
    ⟨0x04, 0x4803, 262144, false⟩, ⟨0x04, 0x490B, 524288, true⟩, ⟨0x11, 0x0001, 65536, false⟩,
    ⟨0x11, 0x0002, 65537, true⟩, ⟨0x05, 0x000B, 8192, true⟩, ⟨0x7F, 0x7F7F, 32768, false⟩]

/-- The engine at launch beside a device of the given last cell, width and ID; `WRITE_ALLOWED` true on the cells the
vectors write; MEM[0x1234] is 0x5C; the transport answers 0xEE to every one of the next exchanges. -/
def at_ (lastCell : Nat) (width : AddrWidth) (id : List Byte) : State :=
  let s := State.launch
    { table := table
      sharedBus := true
      fill := 0xFF
      extWake := none
      initialPower := .active
      composed := true
      dev :=
        { lastCell := lastCell
          width := width
          idBytes := id
          addrPoints := []
          srReadPoints := [((0x00, false), 0x00)]
          srWritePoints := [((0x00, 0x80), 0x80)]
          writeAllowedPoints :=
            [((0, 0), true), ((0, 1), true), ((0, 0x10), true), ((0, 0x1234), true), ((0, 0x1FFE), true),
              ((0, 0x1FFF), true), ((0, 0x012345), true), ((0, 0x012346), true), ((0, 0x012347), true)]
          wrsrNeedsWel := true
          mem0 := [(0x1234, 0x5C)]
          wel0 := false
          sr0 := 0 } }
  { s with bus := { s.bus with answers := { s.bus.answers with xfers := List.replicate 16 (.byte 0xEE) } } }

/-- The device of entry 0. -/
def entry0 : State := at_ 8191 .two [0x04, 0x7F, 0x03, 0x02]
/-- The device of entry 3. -/
def entry3 : State := at_ 262143 .three [0x04, 0x7F, 0x48, 0x03]
/-- AW = 2. -/
def ready2 : State := { entry0 with aw := 2 }
/-- AW = 3, on the device of entry 3. -/
def ready3 : State := { entry3 with aw := 3 }
/-- The latch set. -/
def latched (s : State) : State := { s with bus := { s.bus with dev := { s.bus.dev with wel := true } } }
/-- GP written. -/
def powered (p : Power) (s : State) : State := { s with bus := { s.bus with gp := p } }
/-- MATCH written. -/
def matching (i : Nat) (s : State) : State := { s with matched := some i }
/-- SHARED_BUS false. -/
def unshared (s : State) : State := { s with cfg := { s.cfg with sharedBus := false } }
/-- The transport answers `j` exchanges and gives the next one `last`. -/
def stopping (j : Nat) (last : XferAnswer) (s : State) : State :=
  { s with
    bus := { s.bus with answers := { s.bus.answers with xfers := List.replicate j (.byte 0xEE) ++ [last] } } }
/-- The next `Claim` never returns. -/
def stuckClaim (s : State) : State :=
  { s with bus := { s.bus with answers := { s.bus.answers with claims := [false] } } }
/-- `TBegin` answers `ok`. -/
def begins (ok : Bool) (s : State) : State :=
  { s with bus := { s.bus with answers := { s.bus.answers with begins := [ok] } } }
/-- A fault recorded. -/
def faulted (s : State) : State := { s with bus := { s.bus with faults := [.asleepAccess] } }

/-- Every key of TABLE twice. -/
def doubled (s : State) : State := { s with cfg := { s.cfg with table := s.cfg.table ++ s.cfg.table } }

/-- What a test looks at in the state an instruction leaves. -/
def seen {α : Type} (i : Instr) (s : State) (f : State → α) : Option α :=
  match exec i s with
  | .next t => some (f t)
  | .fault _ => none
  | .refused _ => none

/-- TRACE and RESULT. -/
def view (t : State) : List Event × Option Result := (t.bus.trace, t.result)

/-- A result. -/
def res (code : ResultCode) (data : ResultData := .none) : Option Result := some { code := code, data := data }

/-- V4, V5. -/
theorem test_lookup_and_extWake :
    lookup entry0.cfg 0x7F 0x7F7F = some 8 ∧ lookup entry0.cfg 0x11 0x0002 = some 6 ∧
      lookup entry0.cfg 0x03 0x0302 = none ∧ lookup entry0.cfg 0x04 0x0B49 = none ∧
      table.map (extWake entry0.cfg) = [false, false, false, false, true, false, false, false, false] := by decide

/-! ## The host commands -/

/-- I2. -/
theorem test_initialize_configures :
    seen .hostInitialize (begins true entry0) (fun t => (view t, t.matched, t.aw)) =
      some
        (([.tbegin true, .claim, .select, .xfer 0x9F 0xEE, .xfer 0xFF 0x04, .xfer 0xFF 0x7F, .xfer 0xFF 0x03,
            .xfer 0xFF 0x02, .deselect, .release], res .ok), some 0, 2) := by decide

/-- I5: an ID outside TEST_TABLE deconfigures. I8: an unavailable bus, asleep. -/
theorem test_initialize_errors :
    seen .hostInitialize (matching 3 { at_ 8191 .two [0x04, 0x7F, 0x03, 0x03] with aw := 3 })
        (fun t => (t.result, t.matched, t.aw)) = some (res .unsupportedDevice, none, 0) ∧
      seen .hostInitialize (powered .asleep (begins false entry0)) (fun t => (view t, t.bus.faults)) =
        some (([.tbegin false], res .busUnavailable), []) := by decide

/-- C1 and C2. -/
theorem test_writeEnable :
    seen (.hostWriteEnable true) entry0 (fun t => (view t, t.bus.dev.wel)) =
        some (([.claim, .select, .xfer 0x06 0xEE, .deselect, .release], res .ok), true) ∧
      seen (.hostWriteEnable false) (latched entry0) (fun t => (view t, t.bus.dev.wel)) =
        some (([.claim, .select, .xfer 0x04 0xEE, .deselect, .release], res .ok), false) := by decide

/-- C7: both outcomes of the draw. -/
theorem test_writeEnable_failure :
    ([false, true].map fun took =>
        seen (.hostWriteEnable true) (stopping 0 (.fail took) entry0) fun t => (view t, t.bus.dev.wel)) =
      [false, true].map fun wel =>
        some (([.claim, .select, .xferFail 0x06, .deselect, .release], res .transferFailed), wel) := by decide

/-- M3, M4, and M18: the engine frames three address bytes, the device takes two. -/
theorem test_write8 :
    seen (.hostWrite8 0x1234 0xAB) (latched ready2) (fun t => (view t, t.bus.dev.mem, t.bus.dev.wel)) =
        some
          (([.claim, .select, .xfer 0x02 0xEE, .xfer 0x12 0xEE, .xfer 0x34 0xEE, .xfer 0xAB 0xEE, .deselect, .release],
            res .ok), [(0x1234, 0xAB)], false) ∧
      seen (.hostWrite8 0x1234 0xCD) ready2 (fun t => (t.result, t.bus.dev.mem)) =
        some (res .ok, [(0x1234, 0x5C)]) ∧
      seen (.hostWrite8 0x000010 0xAB) (latched { entry0 with aw := 3 }) (fun t => (t.result, t.bus.dev.mem)) =
        some (res .ok, [(0x0000, 0x10), (0x0001, 0xAB), (0x1234, 0x5C)]) := by decide

/-- M6: the device's increment wraps. M9: an empty payload consumes the latch. -/
theorem test_writeBlock :
    seen (.hostWriteBlock 0x1FFE [1, 2, 3]) (latched ready2) (fun t => t.bus.dev.mem) =
        some [(0x0000, 3), (0x1234, 0x5C), (0x1FFE, 1), (0x1FFF, 2)] ∧
      seen (.hostWriteBlock 0x0010 []) (latched ready2) (fun t => (view t, t.bus.dev.wel)) =
        some (([.claim, .select, .xfer 0x02 0xEE, .xfer 0x00 0xEE, .xfer 0x10 0xEE, .deselect, .release], res .ok),
          false) := by decide

/-- M13: the second payload byte's exchange fails, untaken. -/
theorem test_writeBlock_failure :
    seen (.hostWriteBlock 0x0010 [1, 2, 3]) (stopping 4 (.fail false) (latched ready2))
        (fun t => (view t, t.bus.dev.mem, t.bus.dev.wel)) =
      some
        (([.claim, .select, .xfer 0x02 0xEE, .xfer 0x00 0xEE, .xfer 0x10 0xEE, .xfer 0x01 0xEE, .xferFail 0x02,
            .deselect, .release], res .transferFailed), [(0x0010, 1), (0x1234, 0x5C)], false) := by decide

/-- M5's frame, on the fixture's byte. M10: a truncated address on a device that reduces it. -/
theorem test_read8 :
    seen (.hostRead8 0x1234) ready2 view =
        some ([.claim, .select, .xfer 0x03 0xEE, .xfer 0x12 0xEE, .xfer 0x34 0xEE, .xfer 0xFF 0x5C, .deselect, .release],
          res .ok (.byte 0x5C)) ∧
      seen (.hostRead8 0x00013234) ready2 (fun t => t.result) = some (res .ok (.byte 0x5C)) := by decide

/-- M2: AW is tested before GP. M16: then GP. -/
theorem test_memory_gate :
    seen (.hostRead8 0) (powered .asleep entry0) (fun t => (view t, t.bus.faults)) =
        some (([], res .unsupportedDevice), []) ∧
      seen (.hostWrite8 0x10 0xAB) (powered .asleep ready2) (fun t => (view t, t.bus.faults)) =
        some (([], none), [.asleepAccess]) := by decide

/-- M7's wrap, on the fixture's array. M8: an empty read. -/
theorem test_readBlock :
    seen (.hostReadBlock 0x1233 3) ready2 (fun t => t.result) = some (res .ok (.bytes [0x00, 0x5C, 0x00])) ∧
      seen (.hostReadBlock 0x0010 0) ready2 view =
        some ([.claim, .select, .xfer 0x03 0xEE, .xfer 0x00 0xEE, .xfer 0x10 0xEE, .deselect, .release],
          res .ok (.bytes [])) := by decide

/-- G1's rule on entry 3 (P2 step 6). G4: asleep. -/
theorem test_getDeviceID :
    seen .hostGetDeviceID entry3 (fun t => (t.result, t.aw, t.matched)) =
        some (res .ok (.deviceId 0x04 0x4803), 0, none) ∧
      seen .hostGetDeviceID (powered .unknown entry3) (fun t => (view t, t.bus.faults)) =
        some (([], none), [.asleepAccess]) := by decide

/-- C4. -/
theorem test_getStatusRegister :
    seen .hostGetStatusRegister entry0 view =
      some ([.claim, .select, .xfer 0x05 0xEE, .xfer 0xFF 0x00, .deselect, .release], res .ok (.byte 0x00)) := by decide

/-- C5 and C6. -/
theorem test_setStatusRegister :
    seen (.hostSetStatusRegister 0x80) (latched entry0) (fun t => (view t, t.bus.dev.sr, t.bus.dev.wel)) =
        some (([.claim, .select, .xfer 0x01 0xEE, .xfer 0x80 0xEE, .deselect, .release], res .ok), 0x80, false) ∧
      seen (.hostSetStatusRegister 0x80) entry0 (fun t => (t.result, t.bus.dev.sr)) = some (res .ok, 0x00) := by decide

/-- C9: both outcomes of the draw. -/
theorem test_setStatusRegister_failure :
    ([false, true].map fun took =>
        seen (.hostSetStatusRegister 0x80) (stopping 1 (.fail took) (latched entry0)) fun t => (view t, t.bus.dev.sr)) =
      [0x00, 0x80].map fun sr =>
        some (([.claim, .select, .xfer 0x01 0xEE, .xferFail 0x80, .deselect, .release], res .transferFailed), sr) := by
  decide

/-- A2 and A3. -/
theorem test_setAddressWidth :
    ([0, 1, 4, 255].map fun w => seen (.hostSetAddressWidth w) ready2 fun t => (view t, t.aw)) =
        List.replicate 4 (some (([], res .invalidWidth), 2)) ∧
      seen (.hostSetAddressWidth 3) (powered .asleep ready2) (fun t => (view t, t.aw)) = some (([], res .ok), 3) := by decide

/-- W3, and W8 with the failing exchange untaken. -/
theorem test_sleep :
    seen .hostSleep (matching 2 entry0) (fun t => (view t, t.bus.gp)) =
        some (([.claim, .select, .xfer 0xB9 0xEE, .deselect, .release], res .ok), .asleep) ∧
      seen .hostSleep (stopping 0 (.fail false) (matching 2 entry0)) (fun t => (view t, t.bus.gp)) =
        some (([.claim, .select, .xferFail 0xB9, .deselect, .release], res .transferFailed), .unknown) := by decide

/-- W12: the capability test comes first. W9: then GP. -/
theorem test_sleep_gates :
    seen .hostSleep (powered .asleep (matching 0 entry0)) (fun t => (view t, t.bus.faults)) =
        some (([], res .notSupported), []) ∧
      seen .hostSleep (powered .asleep (matching 2 entry0)) (fun t => (view t, t.bus.faults)) =
        some (([], none), [.asleepAccess]) := by decide

/-- W5 and W11. -/
theorem test_wake :
    seen .hostWake (powered .asleep (matching 4 entry0)) (fun t => (view t, t.bus.gp)) =
        some (([.claim, .select, .delay 300, .deselect, .release, .delay 100, .delay 50], res .ok), .active) ∧
      seen .hostWake (unshared (matching 2 entry0)) view =
        some ([.select, .delay 300, .deselect, .delay 100], res .ok) := by decide

/-- X1. -/
theorem test_reserved :
    ([Instr.reserved0, .reservedD, .reservedE, .reservedF].map fun i =>
        seen i (powered .asleep entry0) fun t => decide (t = { powered .asleep entry0 with result := res .illegalCommand })) =
      List.replicate 4 (some true) := by decide

/-! ## The wire frames (R82 with R68 to R75) -/

/-- R75: WREN, WRDI and SLEEP. -/
theorem test_wire_commands :
    seen .wireWren entry0 (fun t => (view t, t.bus.dev.wel)) =
        some (([.claim, .select, .xfer 0x06 0xEE, .deselect, .release], none), true) ∧
      seen .wireWrdi (latched entry0) (fun t => t.bus.dev.wel) = some false ∧
      seen .wireSleep entry0 (fun t => t.bus.gp) = some .asleep := by decide

/-- R72, R73, R75: RDSR, RDID and WRSR. -/
theorem test_wire_registers :
    seen .wireRdsr entry0 (fun t => t.bus.trace) =
        some [.claim, .select, .xfer 0x05 0xEE, .xfer 0xFF 0x00, .deselect, .release] ∧
      seen .wireRdid entry0 (fun t => t.bus.trace.length) = some 9 ∧
      seen (.wireWrsr 0x80) (latched entry0) (fun t => (t.bus.dev.sr, t.bus.dev.wel)) = some (0x80, false) := by decide

/-- R70, R71: READ and WRITE (M11's cells). -/
theorem test_wire_memory :
    seen (.wireRead (.two 0x1234) 1) entry0 (fun t => t.bus.trace) =
        some [.claim, .select, .xfer 0x03 0xEE, .xfer 0x12 0xEE, .xfer 0x34 0xEE, .xfer 0xFF 0x5C, .deselect, .release] ∧
      seen (.wireWrite (.three 0x012345) [1, 2, 3]) (latched entry3) (fun t => t.bus.dev.mem) =
        some [(0x1234, 0x5C), (0x012345, 1), (0x012346, 2), (0x012347, 3)] := by decide

/-! ## The step -/

/-- The opcode table's word runs as the first instruction after reset. -/
theorem test_first_step :
    step (State.reset.withFetchWord 8 0x0B) =
      .next { State.reset with result := res .notSupported } := rfl

/-- R8: no step has a meaning, with an empty port, an engine reset, a command, a fault recorded, or in a hang. -/
theorem test_duplicate_keys_refused :
    ([doubled entry0, { doubled entry0 with port := [.reset] },
        { doubled entry0 with port := [.word (.command { cmd := 0xF })] }, faulted (doubled entry0),
        { doubled entry0 with seq := .busy .hostWake 0, port := [.reset] }].map fun s =>
      match step s with
      | .refused r => decide (r = .duplicateKeys)
      | _ => false) = List.replicate 5 true := by decide

/-- R170 during a hang; R144 without a reset. -/
theorem test_reset_ends_a_hang :
    (match exec .hostGetDeviceID (stopping 2 (.hang true) entry0) with
      | .next t =>
        (match step t, step { t with port := [.reset] } with
          | .next u, .next v => decide (u = t ∧ t.bus.cs = true ∧ t.seq = .busy .hostGetDeviceID 4 ∧
              v.seq = .idle ∧ v.bus.cs = false ∧ v.bus.claim = false ∧ v.bus.trace = t.bus.trace)
          | _, _ => false)
      | _ => false) = true := by decide

/-! ## Witnesses: a state and operands that meet each statement's hypotheses together -/

/-- An instruction answers a next state. -/
abbrev Answers (i : Instr) (s : State) : Prop := (seen i s fun _ => ()) = some ()

theorem answers_iff (i : Instr) (s : State) : Answers i s ↔ ∃ t, exec i s = .next t := by
  unfold Answers seen
  cases exec i s <;> simp

theorem exec_next_of {i : Instr} {s : State} (h : Answers i s) : ∃ t, exec i s = .next t := (answers_iff i s).mp h

/-- Most statements: the engine is Ready, the device awake, the transport complete; also at `State.reset`. -/
theorem witness_ready :
    State.reset.Ready ∧ State.reset.bus.gp = .active ∧ State.reset.Completes 5 ∧ State.reset.cfg.composed = true ∧
      State.reset.bus.answers.beginHead = true ∧ entry0.Ready ∧ entry0.Completes 16 := by decide

theorem witness_EncodedInstructionsDecodeBack : (Instr.wireRead (.three 0xFFFFFF) 0xFFFFFFFF).wellFormed = true := rfl

theorem witness_DecodedWordsEncodeBack :
    decode (wire .three [0x02, 0xFF, 0xFF, 0xFF] 0) = .ok (.wireWrite (.three 0xFFFFFF) []) ∧
      decode (.command { cmd := 0xF }) = .ok .reservedF := by decide

/-- Both widths, the address at the first truncated value. -/
theorem witness_HighAddressBitsAreDropped :
    (ready2.aw = 2 ∧ (0 : Word).toNat = (0x00010000 : Word).toNat % 2 ^ (8 * ready2.aw.toNat)) ∧
      (ready3.aw = 3 ∧ (0 : Word).toNat = (0x01000000 : Word).toNat % 2 ^ (8 * ready3.aw.toNat)) ∧
      Answers (.hostWrite8 0x00010000 1) ready2 ∧ Answers (.hostWriteBlock 0x00010000 []) ready2 ∧
      Answers (.hostRead8 0x01000000) ready3 ∧ Answers (.hostReadBlock 0x01000000 0) ready3 := by decide

/-- Both results of `read8`: Ok and an error. -/
theorem witness_ByteCommandsAreBlocksOfOne :
    Answers (.hostWrite8 0xFFFFFFFF 1) ready2 ∧
      seen (.hostRead8 0x1234) ready2 (fun t => (t.seq, t.result)) = some (.idle, res .ok (.byte 0x5C)) ∧
      seen (.hostRead8 0) entry0 (fun t => (t.seq, t.result)) = some (.idle, res .unsupportedDevice) := by decide

theorem witness_LookupFindsTheFirstExactMatch :
    entry0.cfg.UniqueKeys ∧ entry0.cfg.table[8]? = some ⟨0x7F, 0x7F7F, 32768, false⟩ := by decide

/-- The last index MIDX has room for, and no match. -/
theorem witness_CfgWordHasItsFields :
    (matching 255 entry0).matched = some 255 ∧ 255 < 256 ∧ entry0.matched = none := by decide

/-- The port holds a word, a reset, a word that decodes to nothing, or nothing. -/
theorem witness_StepRunsTheDecodedInstruction :
    entry0.bus.faults = [] ∧ entry0.seq = .idle ∧
      ({ entry0 with port := [.word (.command { cmd := 0x1 }), .reset] } : State).port =
        .word (.command { cmd := 0x1 }) :: [.reset] ∧
      decode (.command { cmd := 0x1 }) = .ok .hostInitialize ∧ Instr.hostInitialize.wellFormed = true := by decide

theorem witness_StepWithoutAnInstruction :
    ¬(doubled entry0).cfg.UniqueKeys ∧ entry0.cfg.UniqueKeys ∧
      ({ entry0 with seq := .busy .hostWake 0 } : State).seq ≠ .idle ∧ (faulted entry0).bus.faults = .asleepAccess :: [] ∧ (entry0.bus.faults = [] ∧ entry0.port = []) ∧
      ({ entry0 with port := [.reset] } : State).port = .reset :: [] ∧
      ({ entry0 with port := [.word (wire .two [] 0)] } : State).port = .word (wire .two [] 0) :: [] ∧
      decode (wire .two [] 0) = .error .emptyFrame := by decide

theorem witness_ExecIsBarred :
    (faulted entry0).bus.faults = .asleepAccess :: [] ∧
      (({ entry0 with seq := .busy .hostWake 0 } : State).bus.faults = [] ∧
        ({ entry0 with seq := .busy .hostWake 0 } : State).seq ≠ .idle) ∧
      ¬(doubled entry0).cfg.UniqueKeys ∧ entry0.cfg.UniqueKeys := by decide

/-- AW = 0; AW ≠ 0 with the device Asleep and Unknown. -/
theorem witness_MemoryCommandsPassTheirGate :
    (entry0.Ready ∧ entry0.aw = 0 ∧ isMemoryCommand (.hostReadBlock 0 0) = true) ∧
      ((powered .asleep ready2).Ready ∧ (powered .asleep ready2).aw ≠ 0 ∧
        (powered .asleep ready2).bus.gp ≠ .active) ∧
      (powered .unknown ready2).bus.gp ≠ .active := by decide

theorem passes (s : State) (i : Instr) (h1 : isMemoryCommand i = true → s.aw ≠ 0) (h2 : i ≠ .hostSleep)
    (h3 : i ≠ .hostInitialize) : s.PassesGate i :=
  ⟨h1, fun h => absurd h h2, fun h => absurd h h3⟩

theorem canSleep2 (s : State) (h : s.matchedDescriptor = some ⟨0x04, 0x2303, 8192, true⟩) : s.CanSleep := ⟨_, h, rfl⟩

theorem witness_SleepingDeviceAccessFaults :
    (powered .asleep entry0).Ready ∧ (powered .asleep entry0).bus.gp ≠ .active ∧
      (frameOf 0 .hostGetDeviceID).isSome = true ∧ (powered .asleep entry0).PassesGate .hostGetDeviceID ∧
      (powered .asleep (matching 2 entry0)).PassesGate .hostSleep ∧
      (powered .asleep entry0).bus.answers.beginHead = true :=
  ⟨by decide, by decide, rfl, passes _ _ (by decide) (by decide) (by decide),
    ⟨by decide, fun _ => canSleep2 _ rfl, fun h => absurd h (by decide)⟩, rfl⟩

/-- No match, and a matched part that cannot sleep. -/
theorem witness_SleepAndWakeNeedASleepCapablePart :
    entry0.Ready ∧ ¬entry0.CanSleep ∧ ¬(matching 0 entry0).CanSleep := by
  refine ⟨by decide, ?_, ?_⟩
  · rintro ⟨d, hd, -⟩
    simp [State.matchedDescriptor, entry0, at_, State.launch] at hd
  · rintro ⟨d, hd, hs⟩
    have : (matching 0 entry0).matchedDescriptor = some ⟨0x04, 0x0302, 8192, false⟩ := rfl
    rw [this] at hd
    cases hd
    cases hs

/-- A transaction that returns, one that fails, one that stops in its exchanges, one that stops at its claim. -/
theorem witness_TransactionsReleaseOnEveryReturn :
    (∃ r b, entry0.bus.txn entry0.cfg [0x06] 0 = .done (some r) b) ∧
      (∃ b, (stopping 0 (.fail true) entry0).bus.txn entry0.cfg [0x06] 0 = .done none b) ∧
      (∃ b, (stopping 0 (.hang true) entry0).bus.txn entry0.cfg [0x06] 0 = .halt b) ∧
      ∃ b, (stuckClaim entry0).bus.txn entry0.cfg [0x06] 0 = .halt b :=
  ⟨⟨_, _, rfl⟩, ⟨_, rfl⟩, ⟨_, rfl⟩, ⟨_, rfl⟩⟩

theorem witness_WireFramesRunTheirTransaction :
    isWire (.wireWrite (.two 0) []) = true ∧
      frameOf entry0.aw (.wireWrite (.two 0) []) = some ([0x02, 0x00, 0x00], 0) ∧
      entry0.Ready ∧ entry0.bus.gp = .active ∧ entry0.Completes (3 + 0) := by decide

/-- The first and the last exchange of a frame, taken and untaken. -/
theorem witness_FailedExchangeEndsTheFrame :
    frameOf 0 .hostGetDeviceID = some ([0x9F], 4) ∧ entry0.PassesGate .hostGetDeviceID ∧
      (stopping 0 (.fail true) entry0).Ready ∧ (stopping 0 (.fail true) entry0).StopsAt 0 (.fail true) ∧
      (stopping 4 (.fail false) entry0).StopsAt 4 (.fail false) ∧
      (matching 2 entry0).PassesGate .hostSleep ∧ (begins true entry0).PassesGate .hostInitialize :=
  ⟨by decide, passes _ _ (by decide) (by decide) (by decide), by decide, by decide, by decide,
    ⟨by decide, fun _ => canSleep2 _ rfl, fun h => absurd h (by decide)⟩,
    ⟨by decide, fun h => absurd h (by decide), fun _ => rfl⟩⟩

/-- WREN, WRDI, WRSR at either byte, READ, RDSR, RDID, SLEEP, and WRITE at its opcode and at its last address byte; also without
the reference device. -/
theorem witness_FailedExchangeLeavesTheDeviceAsTaken :
    (entry0.cfg.composed = true ∧ frameOf 0 (.hostWriteEnable true) = some ([0x06], 0) ∧
      frameOf 0 (.hostWriteEnable false) = some ([0x04], 0) ∧ frameOf 0 (.wireWrsr 0x80) = some ([0x01, 0x80], 0) ∧
      frameOf 0 (.wireRead (.two 0) 1) = some ([0x03, 0x00, 0x00], 1) ∧ frameOf 0 .wireRdsr = some ([0x05], 1) ∧
      frameOf 0 .wireRdid = some ([0x9F], 4) ∧ frameOf 0 .wireSleep = some ([0xB9], 0) ∧
      frameOf 2 (.hostWrite8 0x10 0xAB) = some ([0x02, 0x00, 0x10, 0xAB], 0)) ∧
      ((stopping 0 (.fail true) (latched ready2)).Ready ∧ (stopping 0 (.fail true) (latched ready2)).StopsAt 0 (.fail true) ∧
        (stopping 0 (.fail false) (latched ready2)).StopsAt 0 (.fail false) ∧
        (stopping 1 (.fail true) (latched ready2)).StopsAt 1 (.fail true) ∧
        (stopping 2 (.fail true) (latched ready2)).StopsAt 2 (.fail true) ∧ 2 + 1 ≤ 1 + devWidth ready2.cfg) ∧
      (({ ready2 with cfg := { ready2.cfg with composed := false } } : State).cfg.composed = false) ∧
      ready2.PassesGate (.hostWrite8 0x10 0xAB) ∧ ready2.PassesGate (.wireWrsr 0x80) :=
  ⟨by decide, by decide, rfl, passes _ _ (by decide) (by decide) (by decide),
    passes _ _ (by decide) (by decide) (by decide)⟩

theorem witness_HangsStopTheEngine_exchange :
    (stopping 0 (.hang true) entry0).Ready ∧ (stopping 0 (.hang true) entry0).StopsAt 0 (.hang true) ∧
      (stopping 4 (.hang false) entry0).StopsAt 4 (.hang false) ∧
      (stopping 4 (.hang false) entry0).PassesGate .hostGetDeviceID :=
  ⟨by decide, by decide, by decide, passes _ _ (by decide) (by decide) (by decide)⟩

/-- A host command, a raw frame to a sleeping device, and `wake`. -/
theorem witness_HangsStopTheEngine_claim :
    (stuckClaim entry0).Ready ∧ (stuckClaim entry0).cfg.sharedBus = true ∧
      (stuckClaim entry0).bus.answers.claimHead = false ∧ (stuckClaim entry0).PassesGate .hostGetDeviceID ∧
      (frameOf 0 .wireSleep).isSome = true ∧ isWire .wireSleep = true ∧
      (stuckClaim (matching 2 entry0)).CanSleep ∧ (stuckClaim (matching 2 entry0)).PassesGate .hostWake :=
  ⟨by decide, rfl, rfl, passes _ _ (by decide) (by decide) (by decide), rfl, rfl, canSleep2 _ rfl,
    passes _ _ (by decide) (by decide) (by decide)⟩

theorem witness_RawFrameToASleepingDeviceFaults :
    isWire .wireRdid = true ∧ (powered .unknown entry0).Ready ∧ (powered .unknown entry0).bus.gp ≠ .active ∧
      (powered .unknown entry0).Completes 1 := by decide

/-- The three instructions with an ID frame; the first and the last byte of `DEV_ID`. -/
theorem witness_ComposedDeviceAnswersItsId :
    (entry0.Ready ∧ entry0.Completes 5 ∧ entry0.cfg.composed = true ∧
      entry0.cfg.dev.idBytes[0]? = some 0x04 ∧ entry0.cfg.dev.idBytes[3]? = some 0x02 ∧
      frameOf entry0.aw .hostGetDeviceID = some ([0x9F], 4) ∧ frameOf entry0.aw .hostInitialize = some ([0x9F], 4) ∧
      frameOf entry0.aw .wireRdid = some ([0x9F], 4)) ∧
      entry0.PassesGate .hostGetDeviceID ∧ entry0.PassesGate .hostInitialize ∧ entry0.PassesGate .wireRdid :=
  ⟨by decide, passes _ _ (by decide) (by decide) (by decide),
    ⟨by decide, fun h => absurd h (by decide), fun _ => rfl⟩, passes _ _ (by decide) (by decide) (by decide)⟩

/-- An ID of the table and an ID of no entry. -/
theorem witness_InitializeConfiguresFromTheTable :
    lookup entry0.cfg (decodeID 0x04 0x7F 0x03 0x02).1 (decodeID 0x04 0x7F 0x03 0x02).2 = some 0 ∧
      entry0.cfg.table[0]? = some ⟨0x04, 0x0302, 8192, false⟩ ∧
      lookup entry0.cfg (decodeID 0x04 0x7F 0x03 0x03).1 (decodeID 0x04 0x7F 0x03 0x03).2 = none := by decide

theorem witness_InitializeReportsTheUnavailableBus :
    (begins false entry0).Ready ∧ (begins false entry0).bus.answers.beginHead = false := by decide

/-- An empty payload, and one byte; width 2 and width 3. -/
theorem witness_WriteCommandsSendOneFrame :
    (ready2.Ready ∧ ready2.aw ≠ 0 ∧ ready2.bus.gp = .active ∧
      ready2.Completes (1 + (addrBytes 0 ready2.aw).length + ([] : List Byte).length)) ∧
      (ready3.Ready ∧ ready3.aw ≠ 0 ∧ ready3.Completes (1 + (addrBytes 0 ready3.aw).length + [(0 : Byte)].length)) ∧
      ({ ready2 with cfg := { ready2.cfg with composed := false } } : State).cfg.composed = false := by decide

theorem witness_ReadCommandsReturnTheBytesReceived :
    ready2.Completes (1 + (addrBytes 0 ready2.aw).length + (0 : Word).toNat) ∧
      ready3.Completes (1 + (addrBytes 0 ready3.aw).length + (1 : Word).toNat) := by decide

/-- A host command and a raw frame, the latch set and clear, widths 2 and 3. -/
theorem witness_WriteFrameStoresItsPayload :
    ((latched ready2).Ready ∧ (latched ready2).cfg.composed = true ∧
      frameOf (latched ready2).aw (.hostWrite8 0x1234 0xAB) =
        some (0x02 :: ((WireAddr.two 0x1234).bytes ++ [0xAB]), 0) ∧
      widthBytes (WireAddr.two 0x1234).width = devWidth (latched ready2).cfg ∧ (latched ready2).bus.dev.mem.wf ∧
      (latched ready2).Completes (1 + (WireAddr.two 0x1234).bytes.length + 1)) ∧
      (frameOf entry3.aw (.wireWrite (.three 0x012345) []) = some (0x02 :: ((WireAddr.three 0x012345).bytes ++ []), 0) ∧
        widthBytes (WireAddr.three 0x012345).width = devWidth entry3.cfg ∧ entry3.bus.dev.mem.wf) := by decide

/-- The engine frames two address bytes, the device takes three. -/
theorem witness_ShortWriteFrameStoresNothing :
    ({ entry3 with aw := 2 } : State).Ready ∧ frameOf 2 (.hostWriteBlock 0x10 []) = some ([0x02, 0x00, 0x10], 0) ∧
      [(0x00 : Byte), 0x10].length < devWidth entry3.cfg ∧ entry3.Completes (1 + [(0x00 : Byte), 0x10].length) := by decide

/-- The first and the last byte of the payload. -/
theorem witness_FailedWriteStoresAPrefix :
    (stopping 3 (.fail true) (latched ready2)).Ready ∧
      (stopping 3 (.fail true) (latched ready2)).StopsAt (1 + (WireAddr.two 0x10).bytes.length + 0) (.fail true) ∧
      (stopping 4 (.fail false) (latched ready2)).StopsAt (1 + (WireAddr.two 0x10).bytes.length + 1) (.fail false) ∧
      frameOf ready2.aw (.hostWriteBlock 0x10 [1, 2]) = some (0x02 :: ((WireAddr.two 0x10).bytes ++ [1, 2]), 0) := by
  decide

theorem witness_ReadFrameReturnsTheArray :
    frameOf ready2.aw (.hostReadBlock 0x1233 3) = some (0x03 :: (WireAddr.two 0x1233).bytes, 3) ∧
      frameOf entry3.aw (.wireRead (.three 0) 0) = some (0x03 :: (WireAddr.three 0).bytes, 0) ∧
      widthBytes (WireAddr.two 0x1233).width = devWidth ready2.cfg ∧
      widthBytes (WireAddr.three 0).width = devWidth entry3.cfg ∧
      ready2.Completes (1 + (WireAddr.two 0x1233).bytes.length + 3) := by decide

/-- Two address bytes to the device of three, three to the device of two; a host command and a raw frame. The second reads
from the cell after 0x1234 (R181). -/
theorem witness_ReadFrameOfAnotherWidthReturnsShiftedBytes :
    (frameOf 2 (.hostReadBlock 0x0012 3) = some (0x03 :: (WireAddr.two 0x0012).bytes, 3) ∧
      ({ entry3 with aw := 2 } : State).Ready ∧ devWidth entry3.cfg = 3 ∧
      ({ entry3 with aw := 2 } : State).Completes (3 + 3) ∧
      frameOf 0 (.wireRead (.three 0x123400) 0) = some (0x03 :: (WireAddr.three 0x123400).bytes, 0) ∧
      entry0.Ready ∧ devWidth entry0.cfg = 2 ∧ entry0.Completes (4 + 0) ∧
      seen (.hostReadBlock 0x123300 2) { entry0 with aw := 3 } (fun t => t.result) =
        some (res .ok (.bytes [0x5C, 0x00]))) ∧
      ({ entry3 with aw := 2 } : State).PassesGate (.hostReadBlock 0x0012 3) ∧
      entry0.PassesGate (.wireRead (.three 0x123400) 0) :=
  ⟨by decide, passes _ _ (by decide) (by decide) (by decide), passes _ _ (by decide) (by decide) (by decide)⟩

/-- The last two cells of the device, and an empty payload. -/
theorem witness_RoundTripReturnsTheBytes :
    ready2.Ready ∧ ready2.bus.gp = .active ∧ ready2.cfg.composed = true ∧ (ready2.aw = 2 ∨ ready2.aw = 3) ∧
      devWidth ready2.cfg = ready2.aw.toNat ∧ ready2.bus.dev.mem.wf ∧
      firstCell ready2.cfg (wireAddr 0x1FFE ready2.aw) + 2 ≤ devSize ready2.cfg ∧
      (∀ j < 2, writeAllowed ready2.cfg ready2.bus.dev.sr
        (cellAfter ready2.cfg (firstCell ready2.cfg (wireAddr 0x1FFE ready2.aw)) j) = true) ∧
      (ready2.cfg.sharedBus = true → (ready2.bus.answers.claims.take 3).all id = true) ∧
      (ready2.bus.answers.xfers.take (1 + 2 * (1 + ready2.aw.toNat + 2))).all XferAnswer.isByte = true := by decide

theorem witness_SleepPutsThePartToSleep :
    (matching 2 entry0).Ready ∧ (matching 2 entry0).CanSleep ∧ (matching 2 entry0).bus.gp = .active ∧
      (matching 2 entry0).Completes 1 := ⟨by decide, canSleep2 _ rfl, rfl, by decide⟩

theorem witness_RawFramesReachTheDevice :
    entry0.Ready ∧ entry0.bus.gp = .active ∧ entry0.cfg.composed = true ∧ entry0.Completes 5 := by decide

theorem witness_WakeRunsItsTimedSequence :
    (powered .asleep (matching 4 entry0)).Ready ∧
      (powered .asleep (matching 4 entry0)).matchedDescriptor = some ⟨0x04, 0x490B, 524288, true⟩ ∧
      (matching 2 entry0).matchedDescriptor = some ⟨0x04, 0x2303, 8192, true⟩ ∧
      (powered .asleep (matching 4 entry0)).bus.answers.claimHead = true := by decide

theorem witness_WakeDelaysSumTo450Or400 :
    seen .hostWake (matching 2 entry0) (fun t => (decide (t.seq = .idle), view t)) =
      some (true, [.claim, .select, .delay 300, .deselect, .release, .delay 100], res .ok) := by decide

theorem witness_DefaultExtendedWakePredicate : State.reset.cfg.extWake = none := rfl

/-- An instruction that runs its frame, one that returns early, one that faults, one that hangs. -/
theorem witness_rules_over_all_instructions :
    Answers (.wireRead (.two 0) 1) entry0 ∧ Answers .reserved0 entry0 ∧
      Answers .hostGetDeviceID (powered .asleep entry0) ∧ Answers .hostWake (stuckClaim (matching 2 entry0)) := by decide

/-- An error of a command that returned, in a state of the invariant; and the one that writes MATCH. -/
theorem witness_ErrorsLeaveTheStateUnchanged :
    (ready2.Inv ∧ seen (.hostSetAddressWidth 4) ready2 (fun t => (t.seq, t.result)) = some (.idle, res .invalidWidth)) ∧
      ((at_ 8191 .two [0x04, 0x7F, 0x03, 0x03]).Inv ∧
        seen .hostInitialize (at_ 8191 .two [0x04, 0x7F, 0x03, 0x03]) (fun t => (t.seq, t.result)) =
          some (.idle, res .unsupportedDevice)) ∧
      ((stopping 0 (.fail true) (matching 2 entry0)).Inv ∧
        seen .hostSleep (stopping 0 (.fail true) (matching 2 entry0)) (fun t => (t.seq, t.result)) =
          some (.idle, res .transferFailed)) :=
  ⟨⟨by decide, by decide⟩, ⟨by decide, by decide⟩, ⟨by decide, by decide⟩⟩

/-- Each error code returned, UnsupportedDevice on both of its causes. -/
theorem witness_ResultCodesComeFromTheirCommands :
    (seen .hostInitialize (begins false entry0) fun t => (t.seq, t.result)) = some (.idle, res .busUnavailable) ∧
      (seen .hostInitialize (at_ 8191 .two [0x04, 0x7F, 0x03, 0x03]) fun t => (t.seq, t.result)) =
        some (.idle, res .unsupportedDevice) ∧
      (seen (.hostRead8 0) entry0 fun t => (t.seq, t.result)) = some (.idle, res .unsupportedDevice) ∧
      (seen .hostWake entry0 fun t => (t.seq, t.result)) = some (.idle, res .notSupported) ∧
      (seen .hostGetDeviceID (stopping 4 (.fail false) entry0) fun t => (t.seq, t.result)) =
        some (.idle, res .transferFailed) ∧
      (seen (.hostSetAddressWidth 4) entry0 fun t => (t.seq, t.result)) = some (.idle, res .invalidWidth) ∧
      (seen .reservedF entry0 fun t => (t.seq, t.result)) = some (.idle, res .illegalCommand) := by decide

/-- A command that returns, one that hangs, one that faults, a raw frame; no result before, and one after. -/
theorem witness_ResultIsReadableAfterTheFirstReturn :
    entry0.result = none ∧ (seen .reserved0 entry0 fun t => (t.seq, t.result)) = some (.idle, res .illegalCommand) ∧
      (seen .hostWake (stuckClaim (matching 2 entry0)) fun t => t.seq) = some (.busy .hostWake 0) ∧
      (seen .hostGetDeviceID (powered .asleep entry0) fun t => t.seq) = some (.busy .hostGetDeviceID 0) ∧
      Answers .wireRdid entry0 ∧ isWire .wireRdid = true ∧ entry0.cfg.UniqueKeys ∧ ¬(doubled entry0).cfg.UniqueKeys := by
  decide

/-- Both outcomes of `sleep`, of `wake` and of the SLEEP frame; a `sleep` that faults, a `sleep` and a `wake` that hang. -/
theorem witness_OnlySleepAndWakeChangePower :
    (seen .hostSleep entry0 (fun t => t.seq) = some .idle ∧ seen .hostSleep (matching 2 entry0) (fun t => t.seq) = some .idle ∧
      seen .hostWake entry0 (fun t => t.seq) = some .idle ∧
      seen .hostWake (matching 2 entry0) (fun t => t.seq) = some .idle) ∧
      (seen .wireSleep (stopping 0 (.fail false) entry0) (fun t => t.bus.gp) = some .active ∧
        seen .wireSleep entry0 (fun t => t.bus.gp) = some .asleep) ∧
      (seen .hostSleep (powered .asleep (matching 2 entry0)) (fun t => decide (t.seq = .idle)) = some false ∧
        seen .hostSleep (stopping 0 (.hang true) (matching 2 entry0)) (fun t => decide (t.seq = .idle)) = some false ∧
        seen .hostWake (stuckClaim (matching 2 entry0)) (fun t => decide (t.seq = .idle)) = some false) := by decide

/-- A write with the latch clear; another instruction with the latch set. -/
theorem witness_OnlyHonouredWritesChangeTheArray :
    Answers (.hostWrite8 0x1234 0xCD) ready2 ∧ ready2.bus.dev.wel = false ∧
      Answers (.hostSetStatusRegister 0x80) (latched ready2) := by decide

theorem witness_CommandsIssueBoundedEvents :
    seen .hostInitialize entry0 (fun t => (t.bus.trace.length, decide (t.seq = .idle))) = some (10, true) ∧
      seen .hostWake (matching 4 entry0) (fun t => t.bus.trace.length) = some 7 := by decide

theorem witness_FramesBeginWithAWireOpcode :
    (seen .hostInitialize entry0 fun t => firstSent t.bus.trace) = some (some 0x9F) ∧
      (seen .wireSleep (stopping 0 (.fail true) entry0) fun t => firstSent t.bus.trace) = some (some 0xB9) := by decide

theorem witness_TraceAndFaultsOnlyGrow :
    ∃ t, step { powered .asleep entry0 with port := [.word (.command { cmd := 0x7 })] } = .next t ∧
      t.bus.faults = [.asleepAccess] := ⟨_, rfl, rfl⟩

theorem witness_StepKeepsTheInvariant :
    State.reset.Inv ∧ (matching 8 ready2).Inv ∧ (latched ready3).Inv ∧ ¬(matching 9 ready2).Inv ∧
      step State.reset = .next State.reset := ⟨by decide, by decide, by decide, by decide, rfl⟩

theorem witness_ResetMeetsTheInvariant :
    Memory.wf entry0.cfg.dev.mem0 ∧ ∀ x ∈ entry0.cfg.dev.mem0, x.1 < devSize entry0.cfg := by decide

end Sys2Proof.Tests
end

section
/-! SUPPORT. The first byte a trace has sent, through the exchanges, the bracket and the commands (R91); the address
bytes (R83); the ID decoder (R85). -/

namespace Sys2Proof.Machine

/-! ## The first byte sent -/

theorem firstSent_append (xs ys : List Event) : firstSent (xs ++ ys) = (firstSent xs).or (firstSent ys) :=
  List.findSome?_append

/-- The bus has extended the trace `tr`, and the first exchange of the extension sends `f` (none: no exchange yet). -/
def Bus.SentFirst (tr : List Event) (f : Option Byte) (b : Bus) : Prop :=
  ∃ ev, b.trace = tr ++ ev ∧ firstSent ev = f

theorem Bus.SentFirst.refl (b : Bus) : b.SentFirst b.trace none := ⟨[], by simp, rfl⟩

/-- More events: what was sent first stays first. -/
theorem Bus.SentFirst.append {tr es : List Event} {f : Option Byte} {b b' : Bus} (h : b.SentFirst tr f)
    (ht : b'.trace = b.trace ++ es) : b'.SentFirst tr (f.or (firstSent es)) := by
  obtain ⟨ev, hev, rfl⟩ := h
  exact ⟨ev ++ es, by rw [ht, hev, List.append_assoc], firstSent_append ev es⟩

/-- Events without an exchange. -/
theorem Bus.SentFirst.silent {tr es : List Event} {f : Option Byte} {b b' : Bus} (h : b.SentFirst tr f)
    (ht : b'.trace = b.trace ++ es) (hs : firstSent es = none) : b'.SentFirst tr f := by
  simpa [hs] using h.append ht

theorem Bus.SentFirst.congr {tr : List Event} {f : Option Byte} {b b' : Bus} (h : b.SentFirst tr f)
    (ht : b'.trace = b.trace) : b'.SentFirst tr f := h.silent (es := []) (by simpa using ht) rfl

/-- The trace determines the first byte sent. -/
theorem Bus.SentFirst.eq {tr ev : List Event} {f : Option Byte} {b : Bus} (h : b.SentFirst tr f)
    (ht : b.trace = tr ++ ev) : firstSent ev = f := by
  obtain ⟨ev', hev, rfl⟩ := h
  rw [List.append_cancel_left (ht.symm.trans hev)]

/-- Once a byte has been sent, no exchange changes which was the first. -/
theorem Bus.sentFirst_some_kept (c : Config) (tr : List Event) (o : Byte) :
    Bus.KeptByExchange c (Bus.SentFirst tr (some o)) where
  answers _ _ h := h
  take _ _ h := h.congr (by simp)
  xfer _ _ _ h := h.append rfl
  xferFail _ _ h := h.append rfl

/-- The bus has extended the trace `tr`, and a first byte sent since is one of the eight opcodes (R91). -/
def Bus.SentOpcode (tr : List Event) (b : Bus) : Prop :=
  ∃ f, b.SentFirst tr f ∧ ∀ o, f = some o → o ∈ wireOpcodes

theorem Bus.sentOpcode_of_none {tr : List Event} (b : Bus) (h : b.SentFirst tr none) : b.SentOpcode tr :=
  ⟨none, h, by simp⟩

theorem Bus.sentOpcode_of_some {tr : List Event} {o : Byte} (ho : o ∈ wireOpcodes) (b : Bus)
    (h : b.SentFirst tr (some o)) : b.SentOpcode tr := ⟨some o, h, by simp [ho]⟩

theorem Bus.SentOpcode.congr {tr : List Event} {b b' : Bus} (h : b.SentOpcode tr) (ht : b'.trace = b.trace) :
    b'.SentOpcode tr := by
  obtain ⟨f, hf, ho⟩ := h
  exact ⟨f, hf.congr ht, ho⟩

/-! ## The transaction -/

/-- A piece of a command stops only at a bus in `H` and goes on only from one in `D`. -/
def Flow.Ends {α : Type} (H D : Bus → Prop) : Flow α → Prop
  | .done _ b => D b
  | .halt b => H b

theorem Flow.Ends.andThen {α β : Type} {H D E : Bus → Prop} {x : Flow α} {k : α → Bus → Flow β} (hx : x.Ends H D)
    (hk : ∀ a b, D b → (k a b).Ends H E) : (x.andThen k).Ends H E := by
  cases x with
  | done a b => exact hk a b hx
  | halt b => exact hx

theorem Flow.Ends.of_bus {α : Type} {H D : Bus → Prop} {x : Flow α} (hDH : ∀ b, D b → H b) (hx : D x.bus) :
    x.Ends H D := by
  cases x with
  | done a b => exact hx
  | halt b => exact hDH b hx

theorem Flow.Ends.bus {α : Type} {H D : Bus → Prop} {x : Flow α} (hDH : ∀ b, D b → H b) (hx : x.Ends H D) :
    H x.bus := by
  cases x with
  | done a b => exact hDH b hx
  | halt b => exact hx

/-- Claim and select exchange nothing (R57). -/
theorem Bus.openTxn_sentFirst {tr : List Event} {f : Option Byte} {b : Bus} (c : Config) (h : b.SentFirst tr f) :
    (b.openTxn c).bus.SentFirst tr f := by
  have hc : (b.doClaim c).bus.SentFirst tr f := by
    unfold Bus.doClaim
    split
    · split
      · exact h.silent (es := [.claim]) rfl rfl
      · exact h
    · exact h
  exact Flow.andThen_bus _ _ _ hc fun _ b1 h1 => h1.silent (es := [.select]) rfl rfl

/-- Deselect and release exchange nothing (R57). -/
theorem Bus.closeTxn_sentFirst {tr : List Event} {f : Option Byte} {b : Bus} (c : Config) (h : b.SentFirst tr f) :
    (b.closeTxn c).SentFirst tr f := by
  refine h.silent ((b.closeTxn_trace c).trans (List.append_assoc ..)) ?_
  split <;> rfl

/-- The first exchange: an answer, a failure and a fault leave its byte on TRACE, a hang leaves nothing. -/
theorem Bus.doXfer_sends_first {tr : List Event} {b : Bus} {o : Byte} (c : Config) (ho : o ∈ wireOpcodes)
    (h : b.SentFirst tr none) : (b.doXfer c o).Ends (Bus.SentOpcode tr) (Bus.SentFirst tr (some o)) := by
  unfold Bus.doXfer
  cases b.answers.xferHead with
  | byte draw =>
    exact .of_bus (Bus.sentOpcode_of_some ho) (h.append (es := [.xfer o ((devMiso c b.dev).getD draw)]) (by simp))
  | fail took => exact .of_bus (Bus.sentOpcode_of_some ho) (h.append (es := [.xferFail o]) (by simp))
  | hang took => exact Bus.sentOpcode_of_none _ (h.congr (by simp))

/-- The exchanges of a frame send its opcode first (R60, R81). -/
theorem Bus.exchangeAll_sends_first {tr : List Event} {b : Bus} {o : Byte} (c : Config) (rest : List Byte) (n : Nat)
    (ho : o ∈ wireOpcodes) (h : b.SentFirst tr none) :
    (b.exchangeAll c (o :: rest) n).Ends (Bus.SentOpcode tr) (Bus.SentFirst tr (some o)) := by
  have hkept := Bus.sentFirst_some_kept c tr o
  have hsend : (b.sendAll c (o :: rest)).Ends (Bus.SentOpcode tr) (Bus.SentFirst tr (some o)) := by
    refine (Bus.doXfer_sends_first c ho h).andThen fun r b1 h1 => ?_
    cases r with
    | none => exact h1
    | some v => exact .of_bus (Bus.sentOpcode_of_some ho) (hkept.sendAll rest b1 h1)
  refine hsend.andThen fun ok b1 h1 => ?_
  cases ok
  · exact h1
  · exact .of_bus (Bus.sentOpcode_of_some ho) (hkept.recvAll n b1 h1)

/-- A transaction sends its frame's opcode first, however it ends (R57, R91). -/
theorem Bus.txn_sentOpcode {tr : List Event} {b : Bus} {o : Byte} (c : Config) (rest : List Byte) (n : Nat)
    (ho : o ∈ wireOpcodes) (h : b.SentFirst tr none) : (b.txn c (o :: rest) n).bus.SentOpcode tr := by
  have hopen : (b.openTxn c).Ends (Bus.SentOpcode tr) (Bus.SentFirst tr none) :=
    .of_bus Bus.sentOpcode_of_none (Bus.openTxn_sentFirst c h)
  have htxn : (b.txn c (o :: rest) n).Ends (Bus.SentOpcode tr) (Bus.SentFirst tr (some o)) :=
    hopen.andThen fun _ _ h1 =>
      (Bus.exchangeAll_sends_first c rest n ho h1).andThen fun _ _ h2 => Bus.closeTxn_sentFirst c h2
  exact htxn.bus (Bus.sentOpcode_of_some ho)

/-- The select-only bracket of `wake` exchanges nothing (R132). -/
theorem Bus.wakeSequence_sentFirst {tr : List Event} {f : Option Byte} {b : Bus} (c : Config) (extra : Bool)
    (h : b.SentFirst tr f) : (b.wakeSequence c extra).bus.SentFirst tr f := by
  have hdelay : ∀ n (b' : Bus), b'.SentFirst tr f → (b'.doDelay n).SentFirst tr f := fun n _ h' =>
    h'.silent (es := [.delay n]) rfl rfl
  refine Flow.andThen_bus _ _ _ (Bus.openTxn_sentFirst c h) fun _ b1 h1 => ?_
  have h2 := hdelay wakeSettleUs _ (Bus.closeTxn_sentFirst c (hdelay wakeHoldUs b1 h1))
  cases extra
  · exact h2
  · exact hdelay wakeExtraUs _ h2

/-! ## The instructions -/

/-- The handshake of `initialize` exchanges nothing (R103). -/
theorem State.busAtFrame_sentFirst (s : State) (i : Instr) : (s.busAtFrame i).SentFirst s.bus.trace none := by
  unfold State.busAtFrame
  split
  · exact (Bus.SentFirst.refl s.bus).silent (es := [.tbegin s.bus.answers.beginHead]) rfl rfl
  · exact .refl s.bus

theorem State.afterFailure_trace (s : State) (i : Instr) (b : Bus) : (s.afterFailure i b).bus.trace = b.trace := by
  by_cases h : i = .hostSleep
  · subst h; rfl
  · rw [State.afterFailure_bus s i b h]

theorem State.afterFrame_trace (s : State) (i : Instr) (b : Bus) (r : List Byte) :
    (s.afterFrame i b r).bus.trace = b.trace := by
  by_cases h : i = .hostSleep
  · subst h; rfl
  · rw [State.afterFrame_bus s i b r h]

/-- TRACE where an instruction's frame ends is TRACE where its transaction ends. -/
theorem State.frameEnd_trace (s : State) (i : Instr) (out : List Byte) (n : Nat) :
    (s.frameEnd i out n).bus.trace = ((s.busAtFrame i).txn s.cfg out n).bus.trace := by
  unfold State.frameEnd
  rcases (s.busAtFrame i).txn s.cfg out n with ⟨_ | r, b⟩ | b
  · exact State.afterFailure_trace s i b
  · exact State.afterFrame_trace s i b r
  · rfl

theorem State.wakeEnd_trace (s : State) (d : DeviceDescriptor) :
    (s.wakeEnd d).bus.trace = (s.bus.wakeSequence s.cfg (extWake s.cfg d)).bus.trace := by
  unfold State.wakeEnd
  cases s.bus.wakeSequence s.cfg (extWake s.cfg d) <;> rfl

/-- An instruction that answers a next state has exchanged nothing, or one of the eight opcodes first (R91). -/
theorem exec_sentOpcode {i : Instr} {s t : State} (h : exec i s = .next t) : t.bus.SentOpcode s.bus.trace := by
  have hstart := s.busAtFrame_sentFirst i
  obtain ⟨-, hcases⟩ := exec_next h
  rcases hcases with
    ⟨_, _, -, rfl⟩ | ⟨-, -, ⟨-, -, -, rfl⟩ | ⟨out, n, -, hf, rfl⟩ | ⟨d, -, -, -, rfl⟩⟩
  · exact Bus.sentOpcode_of_none _ hstart
  · exact Bus.sentOpcode_of_none _ (hstart.congr rfl)
  · obtain ⟨o, rest, rfl, ho⟩ := frameOf_opcode hf
    exact (Bus.txn_sentOpcode s.cfg rest n ho hstart).congr (s.frameEnd_trace i _ n)
  · have hwake := Bus.wakeSequence_sentFirst s.cfg (extWake s.cfg d) (.refl s.bus)
    exact Bus.sentOpcode_of_none _ (hwake.congr (s.wakeEnd_trace d))

/-! ## Address bytes and IDs -/

/-- The address bytes at width 3 (R83). -/
theorem addrBytes_three (addr : Word) :
    addrBytes addr 3 = [addr.extractLsb' 16 8, addr.extractLsb' 8 8, addr.extractLsb' 0 8] := by
  have hlow : ∀ k, k + 8 ≤ 24 → (addr.setWidth 24).extractLsb' k 8 = addr.extractLsb' k 8 := fun _ =>
    BitVec.extractLsb'_setWidth_of_le
  simp [addrBytes, wireAddr, WireAddr.bytes, hlow]

/-- The address bytes at width 2 (R83). -/
theorem addrBytes_two (addr : Word) : addrBytes addr 2 = [addr.extractLsb' 8 8, addr.extractLsb' 0 8] := by
  have hlow : ∀ k, k + 8 ≤ 16 → (addr.setWidth 16).extractLsb' k 8 = addr.extractLsb' k 8 := fun _ =>
    BitVec.extractLsb'_setWidth_of_le
  simp [addrBytes, wireAddr, WireAddr.bytes, hlow]

/-- Two bytes side by side, as a number. -/
theorem toNat_byte_append (hi lo : Byte) : (hi ++ lo : Half).toNat = 256 * hi.toNat + lo.toNat := by
  have hlo : lo.toNat < 2 ^ 8 := lo.isLt
  rw [BitVec.toNat_append, ← Nat.shiftLeft_add_eq_or_of_lt hlo, Nat.shiftLeft_eq]
  omega

theorem decodeID_fst (a0 a1 a2 a3 : Byte) : (decodeID a0 a1 a2 a3).1 = a0 := by
  unfold decodeID; split <;> rfl

theorem decodeID_snd (a0 a1 a2 a3 : Byte) :
    (decodeID a0 a1 a2 a3).2 = if a1 = 0x7F then a2 ++ a3 else a1 ++ a2 := by
  unfold decodeID; split <;> rfl

end Sys2Proof.Machine
end

section
/-! SUPPORT. The statements of the encodings, settled. -/

namespace Sys2Proof.Proofs

open Sys2Proof Sys2Proof.Machine

/-- Settles O51: the first byte since the instruction began is determined by TRACE, and every way to end leaves it an
opcode. -/
theorem framesBeginWithAWireOpcode : Obligations.FramesBeginWithAWireOpcode := by
  intro i s t ev o hexec htrace hfirst
  obtain ⟨f, hf, hop⟩ := exec_sentOpcode hexec
  exact hop o ((hf.eq htrace).symm.trans hfirst)

/-- Settles O4: the bytes of the truncated address are fields of the address itself, and weigh 2^16, 2^8 and 1. -/
theorem addressBytesAreTheTruncatedAddress : Obligations.AddressBytesAreTheTruncatedAddress := by
  intro addr
  refine ⟨addrBytes_three addr, addrBytes_two addr, ?_, ?_⟩
  · simp only [addrBytes_three, List.foldl_cons, List.foldl_nil, BitVec.extractLsb'_toNat, Nat.shiftRight_eq_div_pow]
    omega
  · simp only [addrBytes_two, List.foldl_cons, List.foldl_nil, BitVec.extractLsb'_toNat, Nat.shiftRight_eq_div_pow]
    omega

/-- Settles O7: in both branches the product is two of the bytes side by side. -/
theorem idDecoderDisambiguates : Obligations.IdDecoderDisambiguates := by
  intro a0 a1 a2 a3
  refine ⟨decodeID_fst a0 a1 a2 a3, ?_⟩
  rw [decodeID_snd]
  split
  · exact toNat_byte_append a2 a3
  · exact toNat_byte_append a1 a2

end Sys2Proof.Proofs
end

section
/-! SUPPORT. What `Lookup` (R100) and `WidthFor` (R101) answer. -/

namespace Sys2Proof.Machine

theorem key_eq_iff {d : DeviceDescriptor} {m : Byte} {p : Half} :
    d.key = (m, p) ↔ d.manufacturerId = m ∧ d.productId = p := Prod.mk_inj

/-- The scan is the library's search for a key, its answer shifted by the index the scan begins at. -/
theorem lookupFrom_eq_idxOf? (m : Byte) (p : Half) (i : Nat) (l : List DeviceDescriptor) :
    lookupFrom m p i l = ((l.map DeviceDescriptor.key).idxOf? (m, p)).map (i + ·) := by
  induction l generalizing i with
  | nil => rfl
  | cons d rest ih =>
    rw [lookupFrom, List.map_cons, List.idxOf?_cons, ih]
    by_cases hd : d.key = (m, p)
    · simp [hd, key_eq_iff.mp hd]
    · simp [hd, mt key_eq_iff.mpr hd, Function.comp_def, Nat.add_assoc, Nat.add_comm 1]

theorem lookup_eq_idxOf? (c : Config) (m : Byte) (p : Half) :
    lookup c m p = (c.table.map DeviceDescriptor.key).idxOf? (m, p) := by
  simp [lookup, lookupFrom_eq_idxOf?]

/-- Both fields matched, entry by entry: no index up to the answer is past the end of the table. -/
theorem lookup_eq_some_iff {c : Config} {m : Byte} {p : Half} {i : Nat} :
    lookup c m p = some i ↔
      (∃ d, c.table[i]? = some d ∧ d.key = (m, p)) ∧ ∀ j < i, ∀ d, c.table[j]? = some d → d.key ≠ (m, p) := by
  rw [lookup_eq_idxOf?, List.idxOf?_eq_some_iff]
  simp only [List.length_map, List.getElem_map, List.getElem?_eq_some_iff]
  constructor
  · rintro ⟨hi, hkey, hbefore⟩
    refine ⟨⟨_, ⟨hi, rfl⟩, hkey⟩, ?_⟩
    rintro j hj _ ⟨-, rfl⟩
    exact hbefore j hj
  · rintro ⟨⟨_, ⟨hi, rfl⟩, hkey⟩, hbefore⟩
    exact ⟨hi, hkey, fun j hj => hbefore j hj _ ⟨hj.trans hi, rfl⟩⟩

theorem lookup_eq_none_iff {c : Config} {m : Byte} {p : Half} :
    lookup c m p = none ↔ ∀ d ∈ c.table, d.key ≠ (m, p) := by
  simp [lookup_eq_idxOf?]

/-- With unique keys (R8) a descriptor is found at its own index: an earlier entry with its key would be at that index
too. -/
theorem lookup_own_key {c : Config} (hu : c.UniqueKeys) {i : Nat} {d : DeviceDescriptor}
    (hd : c.table[i]? = some d) : lookup c d.manufacturerId d.productId = some i := by
  refine lookup_eq_some_iff.mpr ⟨⟨d, hd, rfl⟩, fun j hj e he hkey => ?_⟩
  have hsame : (c.table.map DeviceDescriptor.key)[i]? = (c.table.map DeviceDescriptor.key)[j]? := by
    rw [List.getElem?_map, List.getElem?_map, hd, he]
    exact congrArg some hkey.symm
  have hi : i < (c.table.map DeviceDescriptor.key).length := by
    simpa using (List.getElem?_eq_some_iff.mp hd).1
  exact hj.ne' ((List.getElem?_inj hi hu).mp hsame)

theorem widthFor_eq_two_iff {size : Word} : widthFor size = 2 ↔ size.toNat ≤ 65536 := by
  unfold widthFor
  split
  case isTrue h => simpa using h
  case isFalse h => simpa using h

theorem widthFor_eq_three_iff {size : Word} : widthFor size = 3 ↔ 65536 < size.toNat := by
  unfold widthFor
  split
  case isTrue h => simpa using h
  case isFalse h => simpa using h

end Sys2Proof.Machine
end

section
/-! SUPPORT. The statements of the identification, settled. -/

namespace Sys2Proof.Proofs

open Sys2Proof Sys2Proof.Machine

/-- Settles O8: `Lookup` is the library's index of a key, and a key is the pair of the two fields. -/
theorem lookupFindsTheFirstExactMatch : Obligations.LookupFindsTheFirstExactMatch := by
  intro c
  refine ⟨fun m p i => ?_, fun m p => ?_, fun hu i d hd => lookup_own_key hu hd⟩
  · simp only [lookup_eq_some_iff, ne_eq, key_eq_iff]
  · simp only [lookup_eq_none_iff, ne_eq, key_eq_iff]

/-- Settles O9: the two widths are different values, so each is answered on its own side of 65536. -/
theorem widthSplitsAt64KiB : Obligations.WidthSplitsAt64KiB :=
  fun _ => ⟨widthFor_eq_two_iff, widthFor_eq_three_iff⟩

end Sys2Proof.Proofs
end

section
/-! SUPPORT. The statements of the reset and the hazards, settled. -/

namespace Sys2Proof.Proofs

open Sys2Proof Sys2Proof.Machine

/-- Settles O15: of the configuration and the bus, a reset writes only the bus's `cs` and `claim`, and R171 lists
neither. -/
theorem engineResetKeepsTheRest : Obligations.EngineResetKeepsTheRest := by
  intro s
  simp only [State.engineReset_cfg, State.engineReset_bus, and_self]

end Sys2Proof.Proofs
end

section
/-! SUPPORT. The decoder against the encoder: an address's bytes read back, and what the words that decode encode to (R82,
R86, R88). -/

namespace Sys2Proof

/-- The bytes of an address, whatever follows them, are read back as that address. -/
@[simp] theorem splitAddr_bytes (a : WireAddr) (rest : List Byte) :
    splitAddr a.width (a.bytes ++ rest) = some (a, rest) := by
  cases a with
  | two x =>
    have hx : (x.extractLsb' 8 8 ++ x.extractLsb' 0 8 : BitVec 16) = x :=
      (BitVec.extractLsb'_append_extractLsb'_eq_extractLsb' (start₁ := 0) (len₁ := 8) (by rfl)).trans
        BitVec.extractLsb'_eq_self
    simpa [splitAddr, WireAddr.width, WireAddr.bytes] using hx
  | three x =>
    have hx : (x.extractLsb' 16 8 ++ x.extractLsb' 8 8 ++ x.extractLsb' 0 8 : BitVec 24) = x := by
      have hhi : x.extractLsb' 16 8 ++ x.extractLsb' 8 8 = x.extractLsb' 8 16 :=
        BitVec.extractLsb'_append_extractLsb'_eq_extractLsb' (by rfl)
      rw [hhi]
      exact (BitVec.extractLsb'_append_extractLsb'_eq_extractLsb' (start₁ := 0) (len₁ := 8) (by rfl)).trans
        BitVec.extractLsb'_eq_self
    simpa [splitAddr, WireAddr.width, WireAddr.bytes] using hx

/-- An address and nothing after it. -/
@[simp] theorem splitAddr_bytes_nil (a : WireAddr) : splitAddr a.width a.bytes = some (a, []) := by
  simpa using splitAddr_bytes a []

/-- Bytes an address was read off begin with the bytes of that address. -/
theorem bytes_of_splitAddr {w : AddrWidth} {bytes rest : List Byte} {a : WireAddr}
    (h : splitAddr w bytes = some (a, rest)) : bytes = a.bytes ++ rest := by
  unfold splitAddr at h
  split at h
  next b1 b0 rest' =>
    cases h
    have h1 : (b1 ++ b0 : BitVec 16).extractLsb' 8 8 = b1 := BitVec.extractLsb'_append_eq_left
    have h0 : (b1 ++ b0 : BitVec 16).extractLsb' 0 8 = b0 :=
      (BitVec.extractLsb'_append_eq_of_add_le le_rfl).trans BitVec.extractLsb'_eq_self
    rw [WireAddr.bytes, h1, h0]
    rfl
  next b2 b1 b0 rest' =>
    cases h
    rw [← Machine.bytes_two_append (b2 ++ b1) b0]
    have h1 : (b2 ++ b1 : BitVec 16).extractLsb' 8 8 = b2 := BitVec.extractLsb'_append_eq_left
    have h0 : (b2 ++ b1 : BitVec 16).extractLsb' 0 8 = b1 :=
      (BitVec.extractLsb'_append_eq_of_add_le le_rfl).trans BitVec.extractLsb'_eq_self
    rw [WireAddr.bytes, h1, h0]
    rfl
  next => cases h

/-- A host command's word decodes to the command (R88). -/
theorem decode_encode_host (i : Instr) (h : HostWord) (hi : encode i = .command h) (hw : i.wellFormed = true) :
    decodeCommand h = .ok i := by
  cases i <;> simp only [encode, plainFrame, PortWord.command.injEq, reduceCtorEq] at hi <;> subst hi
  case hostWriteBlock a p => exact if_pos (by simpa [Instr.wellFormed] using hw)
  all_goals rfl

/-- A raw frame decodes to its instruction (R82, R86). -/
theorem decode_encode_frame (i : Instr) (f : WireFrame) (hi : encode i = .frame f) (hw : i.wellFormed = true) :
    decodeFrame f = .ok i := by
  cases i <;> simp only [encode, plainFrame, PortWord.frame.injEq, reduceCtorEq] at hi <;> subst hi
  case wireRead a n =>
    have hn : n.toNat < 4294967296 := n.isLt
    simp [decodeFrame, opREAD, opWREN, opWRDI, opRDSR, opRDID, opSLEEP, opWRSR, hn]
  case wireWrite a p =>
    have hp : p.length < 4294967296 := by simpa [Instr.wellFormed] using hw
    simp [decodeFrame, opREAD, opWREN, opWRDI, opRDSR, opRDID, opSLEEP, opWRSR, opWRITE, hp]
  all_goals rfl

/-- A command word that decodes is well formed, and its instruction's word has its code (R88, R90). -/
theorem encode_of_decodeCommand {h : HostWord} {i : Instr} (hd : decodeCommand h = .ok i) :
    i.wellFormed = true ∧ ∃ g : HostWord, encode i = .command g ∧ g.cmd = h.cmd := by
  have hcode : ∀ n : BitVec 4, h.cmd.toNat = n.toNat → n = h.cmd := fun n hn => BitVec.eq_of_toNat_eq hn.symm
  unfold decodeCommand at hd
  split at hd
  case h_4 hn =>
    split at hd
    next hp =>
      cases hd
      exact ⟨by simpa [Instr.wellFormed] using hp, _, rfl, hcode _ hn⟩
    next => cases hd
  case h_16 h1 h2 h3 h4 h5 h6 h7 h8 h9 h10 h11 h12 h13 h14 h15 =>
    have hlt : h.cmd.toNat < 16 := h.cmd.isLt
    simp only [imp_false] at h1 h2 h3 h4 h5 h6 h7 h8 h9 h10 h11 h12 h13 h14 h15
    have hn : h.cmd.toNat = 0 := by omega
    cases hd
    exact ⟨rfl, _, rfl, hcode _ hn⟩
  all_goals
    next hn =>
      cases hd
      exact ⟨rfl, _, rfl, hcode _ hn⟩

/-- A frame of the opcode alone, accepted: its bytes out and its number of bytes in. -/
theorem eq_of_shortFrame {f : WireFrame} {n : Nat} {op : Byte} {rest : List Byte} {i j : Instr}
    (hout : f.out = op :: rest) (h : shortFrame f n op j = .ok i) : i = j ∧ f.out = [op] ∧ f.nIn = n := by
  unfold shortFrame at h
  split at h
  next hc =>
    cases h
    obtain ⟨hl, hn⟩ := hc
    have hrest : rest = [] := by simpa [hout] using hl
    exact ⟨rfl, by rw [hout, hrest], hn⟩
  next => cases h

/-- A frame that decodes is well formed, and its instruction's frame has its bytes (R82, R86). -/
theorem encode_of_decodeFrame {f : WireFrame} {i : Instr} (hd : decodeFrame f = .ok i) :
    i.wellFormed = true ∧ ∃ g : WireFrame, encode i = .frame g ∧ g.out = f.out ∧ g.nIn = f.nIn := by
  unfold decodeFrame at hd
  split at hd
  next => cases hd
  next op rest hout =>
    have hshort : ∀ {n j}, shortFrame f n op j = .ok i → j.wellFormed = true → encode j = plainFrame [op] n →
        i.wellFormed = true ∧ ∃ g : WireFrame, encode i = .frame g ∧ g.out = f.out ∧ g.nIn = f.nIn :=
      fun h hw he => by
        obtain ⟨rfl, ho, hn⟩ := eq_of_shortFrame hout h
        exact ⟨hw, _, he, ho.symm, hn.symm⟩
    by_cases h : op = opWREN
    · rw [if_pos h] at hd
      exact hshort hd rfl (by rw [h]; rfl)
    rw [if_neg h] at hd
    by_cases h : op = opWRDI
    · rw [if_pos h] at hd
      exact hshort hd rfl (by rw [h]; rfl)
    rw [if_neg h] at hd
    by_cases h : op = opRDSR
    · rw [if_pos h] at hd
      exact hshort hd rfl (by rw [h]; rfl)
    rw [if_neg h] at hd
    by_cases h : op = opRDID
    · rw [if_pos h] at hd
      exact hshort hd rfl (by rw [h]; rfl)
    rw [if_neg h] at hd
    by_cases h : op = opSLEEP
    · rw [if_pos h] at hd
      exact hshort hd rfl (by rw [h]; rfl)
    rw [if_neg h] at hd
    by_cases h : op = opWRSR
    · rw [if_pos h] at hd
      split at hd
      next v =>
        split at hd
        next hn =>
          cases hd
          exact ⟨rfl, _, rfl, by rw [hout, h], hn.symm⟩
        next => cases hd
      next => cases hd
    rw [if_neg h] at hd
    by_cases h : op = opREAD
    · rw [if_pos h] at hd
      split at hd
      next a hs =>
        split at hd
        next hn =>
          cases hd
          refine ⟨rfl, _, rfl, ?_, by simpa using hn⟩
          rw [hout, h, bytes_of_splitAddr hs, List.append_nil]
        next => cases hd
      next => cases hd
    rw [if_neg h] at hd
    by_cases h : op = opWRITE
    · rw [if_pos h] at hd
      split at hd
      next a p hs =>
        split at hd
        next hn =>
          split at hd
          next hp =>
            cases hd
            refine ⟨by simpa [Instr.wellFormed] using hp, _, rfl, ?_, hn.symm⟩
            rw [hout, h, bytes_of_splitAddr hs]
          next => cases hd
        next => cases hd
      next => cases hd
    rw [if_neg h] at hd
    cases hd

end Sys2Proof
end

section
/-! SUPPORT. The statements of the decoder, settled. -/

namespace Sys2Proof.Proofs

open Sys2Proof

/-- Settles O2: an instruction's word is a frame or a command, and each decoder gives back what was encoded. -/
theorem encodedInstructionsDecodeBack : Obligations.EncodedInstructionsDecodeBack := by
  intro i hw
  cases hi : encode i with
  | command h => exact decode_encode_host i h hi hw
  | frame f => exact decode_encode_frame i f hi hw

/-- Settles O3: each decoder's answer is well formed and encodes to the bytes, or to the code, it was read off. -/
theorem decodedWordsEncodeBack : Obligations.DecodedWordsEncodeBack :=
  ⟨fun _ _ => encode_of_decodeFrame, fun _ _ => encode_of_decodeCommand⟩

/-- Settles O1: the eight words, decoded. -/
theorem sampleWordsDecode : Obligations.SampleWordsDecode := by
  refine ⟨?_, ?_, ?_, ?_, ?_, ?_, ?_, ?_⟩ <;> decide

end Sys2Proof.Proofs
end

section
/-! SUPPORT. What exchanges and a transaction can do, whatever the transport answers and however they end: the bytes the
device took, the events on TRACE, and what is left as it was (R57, R58, D38). -/

namespace Sys2Proof.Machine

/-! ## Exchanges -/

/-- An event of an exchange (R55). -/
def Event.IsExchange (e : Event) : Prop := (∃ o v, e = .xfer o v) ∨ ∃ o, e = .xferFail o

/-- From `b` to `b'` the device took `bytes`, at most `m` exchanges were put on TRACE, and no fault was cleared. -/
structure Bus.Exchanged (c : Config) (bytes : List Byte) (m : Nat) (b b' : Bus) : Prop where
  dev : b'.dev = devRun c b.dev bytes
  gp : b'.gp = b.gp
  claim : b'.claim = b.claim
  trace : ∃ inner, b'.trace = b.trace ++ inner ∧ inner.length ≤ m ∧ ∀ e ∈ inner, e.IsExchange
  faults : b.faults <+: b'.faults
  nodup : b.faults.Nodup → b'.faults.Nodup

theorem Bus.Exchanged.refl (c : Config) (b : Bus) : Bus.Exchanged c [] 0 b b :=
  ⟨rfl, rfl, rfl, ⟨[], by simp⟩, List.prefix_rfl, id⟩

theorem Bus.Exchanged.trans {c : Config} {xs ys : List Byte} {m n : Nat} {b b1 b2 : Bus}
    (h1 : Bus.Exchanged c xs m b b1) (h2 : Bus.Exchanged c ys n b1 b2) : Bus.Exchanged c (xs ++ ys) (m + n) b b2 := by
  obtain ⟨in1, t1, l1, e1⟩ := h1.trace
  obtain ⟨in2, t2, l2, e2⟩ := h2.trace
  refine ⟨?_, h2.gp.trans h1.gp, h2.claim.trans h1.claim, ⟨in1 ++ in2, ?_, ?_, ?_⟩, h1.faults.trans h2.faults,
    fun h => h2.nodup (h1.nodup h)⟩
  · rw [h2.dev, h1.dev, devRun_append]
  · rw [t2, t1, List.append_assoc]
  · rw [List.length_append]; omega
  · exact fun e he => (List.mem_append.mp he).elim (e1 e) (e2 e)

theorem Bus.Exchanged.mono {c : Config} {xs : List Byte} {m n : Nat} {b b' : Bus} (h : Bus.Exchanged c xs m b b')
    (hmn : m ≤ n) : Bus.Exchanged c xs n b b' := by
  obtain ⟨inner, ht, hl, he⟩ := h.trace
  exact { h with trace := ⟨inner, ht, hl.trans hmn, he⟩ }

/-- The device takes a byte: no event, and at most a fault recorded. -/
theorem Bus.devTake_exchanged (c : Config) (out : Byte) (b : Bus) : Bus.Exchanged c [out] 0 b (b.devTake c out) := by
  unfold Bus.devTake
  cases devFault c b.dev out with
  | none => exact ⟨rfl, rfl, rfl, ⟨[], by simp⟩, List.prefix_rfl, id⟩
  | some f =>
    refine ⟨rfl, rfl, rfl, ⟨[], by simp⟩, ?_, fun hn => ?_⟩
    · simp only [Bus.raise]
      split
      · exact List.prefix_rfl
      · exact ⟨[f], rfl⟩
    · simp only [Bus.raise]
      split
      case isTrue => exact hn
      case isFalse hf => exact hn.append (List.nodup_singleton f) (by simpa using hf)

theorem Bus.emit_exchanged (c : Config) (e : Event) (he : e.IsExchange) (b : Bus) :
    Bus.Exchanged c [] 1 b (b.emit e) :=
  ⟨rfl, rfl, rfl, ⟨[e], rfl, le_rfl, by simpa using he⟩, List.prefix_rfl, id⟩

/-- A piece of a frame that is to send `bytes`: wherever it ends the device took some first part of them, and all of them
where the value answered is a `full` one. -/
def Flow.Takes {α : Type} (c : Config) (bytes : List Byte) (full : α → Bool) (b : Bus) : Flow α → Prop
  | .done a b' => ∃ pre, pre <+: bytes ∧ (full a = true → pre = bytes) ∧ Bus.Exchanged c pre bytes.length b b'
  | .halt b' => ∃ pre, pre <+: bytes ∧ Bus.Exchanged c pre bytes.length b b'

/-- Where a piece ends, whichever way, the device took some first part of the bytes. -/
theorem Flow.Takes.bus {α : Type} {c : Config} {bytes : List Byte} {full : α → Bool} {b : Bus} {x : Flow α}
    (h : x.Takes c bytes full b) : ∃ pre, pre <+: bytes ∧ Bus.Exchanged c pre bytes.length b x.bus := by
  cases x with
  | done a b' =>
    obtain ⟨pre, hp, -, hx⟩ := h
    exact ⟨pre, hp, hx⟩
  | halt b' => exact h

/-- Bytes in two parts: the second part is begun only where the first was taken in full. -/
theorem Flow.Takes.andThen {α β : Type} {c : Config} {xs ys : List Byte} {full : α → Bool} {full' : β → Bool} {b : Bus}
    {x : Flow α} {k : α → Bus → Flow β} (hx : x.Takes c xs full b)
    (hgo : ∀ a b1, full a = true → (k a b1).Takes c ys full' b1)
    (hstop : ∀ a b1, full a = false → ∃ r, k a b1 = .done r b1 ∧ full' r = false) :
    (x.andThen k).Takes c (xs ++ ys) full' b := by
  have hle : xs.length ≤ (xs ++ ys).length := by simp
  cases x with
  | halt b1 =>
    obtain ⟨pre, hp, h1⟩ := hx
    exact ⟨pre, hp.trans ⟨ys, rfl⟩, h1.mono hle⟩
  | done a b1 =>
    obtain ⟨pre, hp, hfull, h1⟩ := hx
    rw [Flow.andThen_done]
    cases ha : full a with
    | false =>
      obtain ⟨r, hr, hf⟩ := hstop a b1 ha
      rw [hr]
      exact ⟨pre, hp.trans ⟨ys, rfl⟩, by simp [hf], h1.mono hle⟩
    | true =>
      have hgo := hgo a b1 ha
      rw [hfull ha] at h1
      cases hk : k a b1 with
      | halt b2 =>
        rw [hk] at hgo
        obtain ⟨pre', hp', h2⟩ := hgo
        exact ⟨xs ++ pre', (List.prefix_append_right_inj xs).mpr hp', by simpa using h1.trans h2⟩
      | done r b2 =>
        rw [hk] at hgo
        obtain ⟨pre', hp', hf', h2⟩ := hgo
        exact ⟨xs ++ pre', (List.prefix_append_right_inj xs).mpr hp', fun h => by rw [hf' h],
          by simpa using h1.trans h2⟩

/-- One exchange (R56, D38). -/
theorem Bus.doXfer_takes (c : Config) (out : Byte) (b : Bus) : (b.doXfer c out).Takes c [out] Option.isSome b := by
  have hans : ∀ a, Bus.Exchanged c [] 0 b { b with answers := a } := fun a =>
    ⟨rfl, rfl, rfl, ⟨[], by simp⟩, List.prefix_rfl, id⟩
  have hmay : ∀ took a, ∃ pre, pre <+: [out] ∧
      Bus.Exchanged c pre 0 b (Bus.devMayTake c took out { b with answers := a }) := fun took a => by
    cases took
    · exact ⟨[], ⟨[out], rfl⟩, hans a⟩
    · exact ⟨[out], List.prefix_rfl, (hans a).trans (Bus.devTake_exchanged c out _)⟩
  have hends : ∀ {a : Option Byte} {b' : Bus} {pre}, pre <+: [out] → (a.isSome = true → pre = [out]) →
      Bus.Exchanged c pre 1 b b' → (b'.unlessFaulted a).Takes c [out] Option.isSome b := fun hp hf hx => by
    unfold Bus.unlessFaulted
    split
    · exact ⟨_, hp, hf, hx⟩
    · exact ⟨_, hp, hx⟩
  unfold Bus.doXfer
  cases b.answers.xferHead with
  | byte draw =>
    have htake := (hans b.answers.xferRest).trans (Bus.devTake_exchanged c out _)
    exact hends List.prefix_rfl (fun _ => rfl)
      (by simpa using htake.trans (Bus.emit_exchanged c (.xfer out _) (.inl ⟨_, _, rfl⟩) _))
  | fail took =>
    obtain ⟨pre, hp, hx⟩ := hmay took b.answers.xferRest
    exact hends hp (fun h => by cases h)
      (by simpa using hx.trans (Bus.emit_exchanged c (.xferFail out) (.inr ⟨_, rfl⟩) _))
  | hang took =>
    obtain ⟨pre, hp, hx⟩ := hmay took b.answers.xferRest
    exact ⟨pre, hp, hx.mono (Nat.zero_le _)⟩

theorem Bus.sendAll_takes (c : Config) (out : List Byte) (b : Bus) : (b.sendAll c out).Takes c out id b := by
  induction out generalizing b with
  | nil => exact ⟨[], List.prefix_rfl, fun _ => rfl, .refl c b⟩
  | cons o rest ih =>
    refine Flow.Takes.andThen (xs := [o]) (Bus.doXfer_takes c o b) (fun r b1 hr => ?_) fun r b1 hr => ?_
    · obtain ⟨v, rfl⟩ := Option.isSome_iff_exists.mp hr
      exact ih b1
    · cases r with
      | none => exact ⟨false, rfl, rfl⟩
      | some v => cases hr

theorem Bus.recvAll_takes (c : Config) (n : Nat) (b : Bus) :
    (b.recvAll c n).Takes c (List.replicate n c.fill) Option.isSome b := by
  induction n generalizing b with
  | zero => exact ⟨[], List.prefix_rfl, fun _ => rfl, .refl c b⟩
  | succ n ih =>
    refine Flow.Takes.andThen (xs := [c.fill]) (Bus.doXfer_takes c c.fill b) (fun r b1 hr => ?_) fun r b1 hr => ?_
    · obtain ⟨v, rfl⟩ := Option.isSome_iff_exists.mp hr
      have hrest := ih b1
      simp only
      cases hx : b1.recvAll c n with
      | halt b2 => rw [hx] at hrest; exact hrest
      | done vs b2 =>
        rw [hx] at hrest
        obtain ⟨pre, hp, hf, h2⟩ := hrest
        exact ⟨pre, hp, fun h => hf (by simpa using h), h2⟩
    · cases r with
      | none => exact ⟨none, rfl, rfl⟩
      | some v => cases hr

/-- The exchanges of a frame (R60). -/
theorem Bus.exchangeAll_takes (c : Config) (out : List Byte) (n : Nat) (b : Bus) :
    (b.exchangeAll c out n).Takes c (wireBytes c out n) Option.isSome b := by
  refine Flow.Takes.andThen (Bus.sendAll_takes c out b) (fun ok b1 hok => ?_) fun ok b1 hok => ?_
  · cases ok
    · cases hok
    · exact Bus.recvAll_takes c n b1
  · cases ok
    · exact ⟨none, rfl, rfl⟩
    · cases hok

@[simp] theorem wireBytes_length (c : Config) (out : List Byte) (n : Nat) :
    (wireBytes c out n).length = out.length + n := by simp [wireBytes]

/-! ## The bracket -/

/-- The events that open a bracket (R57). -/
def opening (c : Config) : List Event := (if c.sharedBus then [.claim] else []) ++ [.select]

theorem opening_counts (c : Config) :
    (opening c).count .select = 1 ∧ Event.deselect ∉ opening c ∧ Event.release ∉ opening c ∧
      (opening c).length = if c.sharedBus then 2 else 1 := by
  unfold opening
  split <;> simp

theorem Bus.opened_trace (c : Config) (b : Bus) : (b.opened c).trace = b.trace ++ opening c := rfl

theorem Bus.opened_claim (c : Config) (b : Bus) :
    (b.opened c).claim = if c.sharedBus then true else b.claim := rfl

/-- Claim and select: either the claim never returns, or the bracket is open. -/
theorem Bus.openTxn_cases (c : Config) (b : Bus) :
    (c.sharedBus = true ∧ b.openTxn c = .halt { b with answers := b.answers.claimRest }) ∨
      b.openTxn c = .done () (b.opened c) := by
  by_cases hc : c.sharedBus = true → b.answers.claimHead = true
  · exact .inr (Bus.openTxn_completes c b hc)
  · push Not at hc
    exact .inl ⟨hc.1, Bus.openTxn_hangs c b hc.1 (by simpa using hc.2)⟩

/-- Everything a transaction can do: its claim never returns, or in the open bracket the device takes some first part of
the frame's bytes, and then the transaction stops there or closes the bracket and returns. -/
theorem Bus.txn_cases (c : Config) (out : List Byte) (n : Nat) (b : Bus) :
    (c.sharedBus = true ∧ b.txn c out n = .halt { b with answers := b.answers.claimRest }) ∨
      ∃ pre b2, pre <+: wireBytes c out n ∧ Bus.Exchanged c pre (out.length + n) (b.opened c) b2 ∧
        (b.txn c out n = .halt b2 ∨ ∃ r, b.txn c out n = .done r (b2.closeTxn c)) := by
  rcases b.openTxn_cases c with ⟨hs, ho⟩ | ho
  · exact .inl ⟨hs, by rw [Bus.txn, ho, Flow.andThen_halt]⟩
  · obtain ⟨pre, hp, hx⟩ := (Bus.exchangeAll_takes c out n (b.opened c)).bus
    rw [wireBytes_length] at hx
    refine .inr ⟨pre, _, hp, hx, ?_⟩
    rw [Bus.txn, ho, Flow.andThen_done]
    cases (b.opened c).exchangeAll c out n with
    | halt b2 => exact .inl rfl
    | done r b2 => exact .inr ⟨r, rfl⟩

/-- The bracket that a transaction's exchanges stand in once it has returned (R57). -/
theorem Bus.Exchanged.closeTxn_trace {c : Config} {bytes : List Byte} {m : Nat} {b b2 : Bus}
    (h : Bus.Exchanged c bytes m (b.opened c) b2) :
    ∃ inner, (b2.closeTxn c).trace = b.trace ++ bracket c inner ∧ inner.length ≤ m ∧ ∀ e ∈ inner, e.IsExchange := by
  obtain ⟨inner, ht, hl, he⟩ := h.trace
  refine ⟨inner, ?_, hl, he⟩
  rw [Bus.closeTxn_trace, ht, Bus.opened_trace]
  simp [bracket, opening]

/-- Once a transaction has returned the select line and the claim are released (R58). -/
theorem Bus.Exchanged.released {c : Config} {bytes : List Byte} {m : Nat} {b b2 : Bus}
    (h : Bus.Exchanged c bytes m (b.opened c) b2) : Bus.Released c b (b2.closeTxn c) := by
  refine ⟨Bus.closeTxn_cs c b2, ?_⟩
  rw [Bus.closeTxn_claim, h.claim, Bus.opened_claim]
  split <;> rfl

/-! ## The select-only bracket of `wake` -/

/-- The bus after the sequence of `wake` (R132). -/
def Bus.awoken (c : Config) (extra : Bool) (b : Bus) : Bus :=
  let b2 := (((b.opened c).doDelay wakeHoldUs).closeTxn c).doDelay wakeSettleUs
  if extra then b2.doDelay wakeExtraUs else b2

/-- Selecting and deselecting the device exchanges nothing: only its phase and its write flag are written (R67, R75). -/
theorem devDeselect_devSelect (c : Config) (gp : Power) (d : Device) :
    devDeselect c (devSelect gp d) = { d with dph := .idle, dwr := false } := by
  unfold devSelect
  split <;> rfl

theorem Bus.awoken_trace (c : Config) (extra : Bool) (b : Bus) :
    (b.awoken c extra).trace =
      b.trace ++ bracket c [.delay 300] ++ [.delay 100] ++ if extra then [.delay 50] else [] := by
  cases extra <;>
    simp [Bus.awoken, Bus.doDelay, Bus.opened_trace, opening, bracket, wakeHoldUs, wakeSettleUs, wakeExtraUs]

theorem Bus.awoken_dev (c : Config) (extra : Bool) (b : Bus) :
    (b.awoken c extra).dev = { b.dev with dph := .idle, dwr := false } := by
  cases extra <;> simp [Bus.awoken, Bus.doDelay, devDeselect_devSelect]

theorem Bus.awoken_faults (c : Config) (extra : Bool) (b : Bus) : (b.awoken c extra).faults = b.faults := by
  cases extra <;> simp [Bus.awoken, Bus.doDelay]

theorem Bus.awoken_released (c : Config) (extra : Bool) (b : Bus) : Bus.Released c b (b.awoken c extra) := by
  have hclaim : (if c.sharedBus then false else (b.opened c).claim) = if c.sharedBus then false else b.claim := by
    rw [Bus.opened_claim]
    split <;> rfl
  cases extra <;> exact ⟨by simp [Bus.awoken, Bus.doDelay], by simpa [Bus.awoken, Bus.doDelay] using hclaim⟩

/-- The sequence of `wake`: either its claim never returns, or it ends. -/
theorem Bus.wakeSequence_cases (c : Config) (extra : Bool) (b : Bus) :
    (c.sharedBus = true ∧ b.wakeSequence c extra = .halt { b with answers := b.answers.claimRest }) ∨
      b.wakeSequence c extra = .done () (b.awoken c extra) := by
  unfold Bus.wakeSequence
  rcases b.openTxn_cases c with ⟨hs, ho⟩ | ho <;> rw [ho]
  · exact .inl ⟨hs, rfl⟩
  · exact .inr rfl

end Sys2Proof.Machine
end

section
/-! SUPPORT. What an instruction leaves, however it ends: the engine's registers, the bus side, and what a command that
returned has returned. -/

namespace Sys2Proof.Machine

/-! ## Kinds of instructions -/

/-- The raw wire frames (R80). -/
theorem eq_of_isWire {i : Instr} (h : isWire i = true) :
    i = .wireWren ∨ i = .wireWrdi ∨ i = .wireRdsr ∨ (∃ v, i = .wireWrsr v) ∨ (∃ a n, i = .wireRead a n) ∨
      (∃ a p, i = .wireWrite a p) ∨ i = .wireRdid ∨ i = .wireSleep := by
  cases i <;> simp [isWire] at h ⊢

/-- The memory commands (R110). -/
theorem eq_of_isMemoryCommand {i : Instr} (h : isMemoryCommand i = true) :
    (∃ a v, i = .hostWrite8 a v) ∨ (∃ a p, i = .hostWriteBlock a p) ∨ (∃ a, i = .hostRead8 a) ∨
      ∃ a n, i = .hostReadBlock a n := by
  cases i <;> simp [isMemoryCommand] at h ⊢

theorem isWire_hasFrame {i : Instr} (h : isWire i = true) (aw : BitVec 2) : ∃ out n, frameOf aw i = some (out, n) := by
  rcases eq_of_isWire h with rfl | rfl | rfl | ⟨_, rfl⟩ | ⟨_, _, rfl⟩ | ⟨_, _, rfl⟩ | rfl | rfl <;> exact ⟨_, _, rfl⟩

/-- Raw frames make no check of the engine's own, and their instruction ends with the frame (log entry 2). -/
theorem State.earlyReturn_wire {i : Instr} (h : isWire i = true) (s : State) : s.earlyReturn i = none := by
  rcases eq_of_isWire h with rfl | rfl | rfl | ⟨_, rfl⟩ | ⟨_, _, rfl⟩ | ⟨_, _, rfl⟩ | rfl | rfl <;> rfl

theorem State.afterFrame_wire {i : Instr} (h : isWire i = true) (s : State) (b : Bus) (r : List Byte) :
    s.afterFrame i b r = { s with bus := b } := by
  rcases eq_of_isWire h with rfl | rfl | rfl | ⟨_, rfl⟩ | ⟨_, _, rfl⟩ | ⟨_, _, rfl⟩ | rfl | rfl <;> rfl

theorem passesGate_of_isWire {i : Instr} (h : isWire i = true) (s : State) : s.PassesGate i :=
  State.passesGate_of_early (State.earlyReturn_wire h s)

/-! ## The engine's registers -/

theorem widthFor_ne_one (size : Word) : widthFor size ≠ 1 := by
  unfold widthFor
  split <;> decide

/-- `t` has the parameters, the words to come and the SEQ of `s`, and its AW and MATCH but where the instruction may
write them (R21, R22, R28). -/
structure State.RegistersKept (i : Instr) (s t : State) : Prop where
  cfg : t.cfg = s.cfg
  port : t.port = s.port
  matched : t.matched = s.matched ∨ i = .hostInitialize ∧ t.matched.all (· < s.cfg.table.length) = true
  aw : t.aw = s.aw ∨ (i = .hostInitialize ∨ ∃ w, i = .hostSetAddressWidth w) ∧ t.aw ≠ 1

theorem State.RegistersKept.of_bus {i : Instr} {s t : State} (h1 : t.cfg = s.cfg) (h2 : t.port = s.port)
    (h3 : t.matched = s.matched) (h4 : t.aw = s.aw) : s.RegistersKept i t := ⟨h1, h2, .inl h3, .inl h4⟩

@[simp] theorem State.afterFailure_cfg (s : State) (i : Instr) (b : Bus) : (s.afterFailure i b).cfg = s.cfg := by
  unfold State.afterFailure; split <;> rfl
@[simp] theorem State.afterFailure_aw (s : State) (i : Instr) (b : Bus) : (s.afterFailure i b).aw = s.aw := by
  unfold State.afterFailure; split <;> rfl
@[simp] theorem State.afterFailure_matched (s : State) (i : Instr) (b : Bus) :
    (s.afterFailure i b).matched = s.matched := by
  unfold State.afterFailure; split <;> rfl
@[simp] theorem State.afterFailure_seq (s : State) (i : Instr) (b : Bus) : (s.afterFailure i b).seq = s.seq := by
  unfold State.afterFailure; split <;> rfl
@[simp] theorem State.afterFailure_port (s : State) (i : Instr) (b : Bus) : (s.afterFailure i b).port = s.port := by
  unfold State.afterFailure; split <;> rfl

/-- What a completed `initialize` leaves, as the lookup of the ID answers (R103): an index of the table configures AW and
MATCH, no index clears both. -/
theorem State.afterFrame_initialize (s : State) (b : Bus) (r : List Byte) :
    (∃ k d, lookup s.cfg (decodeIDBytes r).1 (decodeIDBytes r).2 = some k ∧ s.cfg.table[k]? = some d ∧
        s.afterFrame .hostInitialize b r =
          { s with
            bus := b
            matched := some k
            aw := widthFor d.sizeBytes
            result := some { code := .ok, data := .none } }) ∨
      lookup s.cfg (decodeIDBytes r).1 (decodeIDBytes r).2 = none ∧
        s.afterFrame .hostInitialize b r =
          { s with
            bus := b
            matched := none
            aw := 0
            result := some { code := .unsupportedDevice, data := .none } } := by
  cases hl : lookup s.cfg (decodeIDBytes r).1 (decodeIDBytes r).2 with
  | none => exact .inr ⟨rfl, by simp [State.afterFrame, hl]⟩
  | some k =>
    obtain ⟨⟨d, hd, -⟩, -⟩ := lookup_eq_some_iff.mp hl
    exact .inl ⟨k, d, rfl, hd, by simp [State.afterFrame, hl, hd]⟩

@[simp] theorem State.afterFrame_seq (s : State) (i : Instr) (b : Bus) (r : List Byte) :
    (s.afterFrame i b r).seq = s.seq := by
  cases i
  case hostInitialize => rcases s.afterFrame_initialize b r with ⟨_, _, -, -, h⟩ | ⟨-, h⟩ <;> rw [h]
  all_goals rfl

theorem State.afterFrame_registers (s : State) (i : Instr) (b : Bus) (r : List Byte) :
    s.RegistersKept i (s.afterFrame i b r) := by
  by_cases hi : i = .hostInitialize
  · subst hi
    rcases s.afterFrame_initialize b r with ⟨k, d, -, hd, h⟩ | ⟨-, h⟩ <;> rw [h]
    · have hk : k < s.cfg.table.length := (List.getElem?_eq_some_iff.mp hd).1
      exact ⟨rfl, rfl, .inr ⟨rfl, by simpa using hk⟩, .inr ⟨.inl rfl, widthFor_ne_one _⟩⟩
    · exact ⟨rfl, rfl, .inr ⟨rfl, rfl⟩, .inr ⟨.inl rfl, (by decide : (0 : BitVec 2) ≠ 1)⟩⟩
  · cases i
    case hostInitialize => exact absurd rfl hi
    all_goals exact .of_bus rfl rfl rfl rfl

/-- Where a frame ends: the transaction stopped, failed or completed. -/
theorem State.frameEnd_cases (s : State) (i : Instr) (out : List Byte) (n : Nat) :
    (∃ b, (s.busAtFrame i).txn s.cfg out n = .halt b ∧
        s.frameEnd i out n = { s with bus := b, seq := .busy i (eventsSince s.bus b) }) ∨
      (∃ b, (s.busAtFrame i).txn s.cfg out n = .done none b ∧ s.frameEnd i out n = s.afterFailure i b) ∨
      ∃ r b, (s.busAtFrame i).txn s.cfg out n = .done (some r) b ∧ s.frameEnd i out n = s.afterFrame i b r := by
  unfold State.frameEnd
  cases (s.busAtFrame i).txn s.cfg out n with
  | halt b => exact .inl ⟨b, rfl, rfl⟩
  | done r b =>
    cases r with
    | none => exact .inr (.inl ⟨b, rfl, rfl⟩)
    | some r => exact .inr (.inr ⟨r, b, rfl, rfl⟩)

/-- Where `wake` ends: its claim never returns, or its sequence ended. -/
theorem State.wakeEnd_cases (s : State) (d : DeviceDescriptor) :
    (∃ b, s.cfg.sharedBus = true ∧ b = { s.bus with answers := s.bus.answers.claimRest } ∧
        s.wakeEnd d = { s with bus := b, seq := .busy .hostWake (eventsSince s.bus b) }) ∨
      s.wakeEnd d =
        { s with
          bus := { s.bus.awoken s.cfg (extWake s.cfg d) with gp := .active }
          result := some { code := .ok, data := .none } } := by
  unfold State.wakeEnd
  rcases s.bus.wakeSequence_cases s.cfg (extWake s.cfg d) with ⟨hs, h⟩ | h <;> rw [h]
  · exact .inl ⟨_, hs, rfl, rfl⟩
  · exact .inr rfl

/-- The AW that an early return leaves: only `setAddressWidth` writes it (R104). -/
theorem State.earlyReturn_aw {s : State} {i : Instr} {code : ResultCode} {aw : BitVec 2}
    (h : s.earlyReturn i = some (code, aw)) : aw = s.aw ∨ (∃ w, i = .hostSetAddressWidth w) ∧ code = .ok ∧ aw ≠ 1 := by
  cases i <;> simp only [State.earlyReturn, reduceCtorEq] at h
  case hostSetAddressWidth w =>
    split at h
    next hw =>
      cases h
      refine .inr ⟨⟨w, rfl⟩, rfl, ?_⟩
      rcases hw with rfl | rfl <;> decide
    next => cases h; exact .inl rfl
  case reserved0 | reservedD | reservedE | reservedF => cases h; exact .inl rfl
  case hostSleep | hostWake | hostInitialize =>
    split at h
    · cases h
    · cases h; exact .inl rfl
  all_goals
    split at h
    · cases h; exact .inl rfl
    · cases h

/-- No instruction writes the parameters or the port; AW and MATCH have their writers (R21, R22, R28). -/
theorem exec_registers {i : Instr} {s t : State} (h : exec i s = .next t) : s.RegistersKept i t := by
  obtain ⟨-, hcases⟩ := exec_next h
  rcases hcases with ⟨code, aw, he, rfl⟩ | ⟨-, -, ⟨-, -, -, rfl⟩ | ⟨out, n, -, -, rfl⟩ | ⟨d, -, -, -, rfl⟩⟩
  · refine ⟨rfl, rfl, .inl rfl, ?_⟩
    exact (State.earlyReturn_aw he).imp id fun ⟨hi, _, ha⟩ => ⟨.inr hi, ha⟩
  · exact .of_bus rfl rfl rfl rfl
  · rcases s.frameEnd_cases i out n with ⟨b, -, h⟩ | ⟨b, -, h⟩ | ⟨r, b, -, h⟩ <;> rw [h]
    · exact .of_bus rfl rfl rfl rfl
    · exact .of_bus (by simp) (by simp) (by simp) (by simp)
    · exact s.afterFrame_registers i b r
  · rcases s.wakeEnd_cases d with ⟨b, -, -, h⟩ | h <;> rw [h] <;> exact .of_bus rfl rfl rfl rfl

/-! ## The bus side -/

/-- The handshake of `initialize` is one event and an answer; everything else of the bus side is as before (R103). -/
theorem State.busAtFrame_kept (s : State) (i : Instr) :
    ∃ ev a, s.busAtFrame i = { s.bus with trace := s.bus.trace ++ ev, answers := a } ∧
      (ev = [] ∨ i = .hostInitialize ∧ ev = [.tbegin s.bus.answers.beginHead]) := by
  unfold State.busAtFrame
  split
  next hi => exact ⟨_, _, rfl, .inr ⟨hi, rfl⟩⟩
  next => exact ⟨[], s.bus.answers, by simp, .inl rfl⟩

/-- How the bus side of an instruction can end, whatever the transport answers. -/
inductive ExecEnd (i : Instr) (s t : State) : Prop
  /-- The command returned before any exchange. -/
  | early (hseq : t.seq = .idle) (hbus : t.bus = s.busAtFrame i)
  /-- The engine's own check found the device possibly asleep (R130). -/
  | asleep (k : Nat) (hseq : t.seq = .busy i k) (hbus : t.bus = (s.busAtFrame i).raise .asleepAccess)
  /-- The claim never returned (R144). -/
  | claimHung (k : Nat) (a : Answers) (hseq : t.seq = .busy i k) (hshared : s.cfg.sharedBus = true)
      (hbus : t.bus = { s.busAtFrame i with answers := a })
  /-- The frame stopped in its exchanges, at a hang or a fault (R143, R144). -/
  | stopped (k : Nat) (out : List Byte) (n : Nat) (pre : List Byte) (hseq : t.seq = .busy i k)
      (hframe : frameOf s.aw i = some (out, n)) (hpre : pre <+: wireBytes s.cfg out n)
      (hx : Bus.Exchanged s.cfg pre (out.length + n) ((s.busAtFrame i).opened s.cfg) t.bus)
  /-- The frame's transaction returned, completed or failed; `sleep` writes GP after it (R131). -/
  | ended (out : List Byte) (n : Nat) (pre : List Byte) (b : Bus) (gp : Power) (hseq : t.seq = .idle)
      (hframe : frameOf s.aw i = some (out, n)) (hpre : pre <+: wireBytes s.cfg out n)
      (hx : Bus.Exchanged s.cfg pre (out.length + n) ((s.busAtFrame i).opened s.cfg) b) (hfaults : b.faults = [])
      (hgp : i ≠ .hostSleep → gp = devDeselectPower b.dev b.gp) (hbus : t.bus = { b.closeTxn s.cfg with gp := gp })
  /-- The sequence of `wake` ended (R132). -/
  | woke (extra : Bool) (hi : i = .hostWake) (hseq : t.seq = .idle)
      (hbus : t.bus = { s.bus.awoken s.cfg extra with gp := .active })

/-- A failed or completed frame leaves the transaction's bus, `sleep` with its own GP (R131). -/
theorem State.afterFailure_bus_gp (s : State) (i : Instr) (b : Bus) :
    ∃ gp, (i ≠ .hostSleep → gp = b.gp) ∧ (s.afterFailure i b).bus = { b with gp := gp } := by
  by_cases hi : i = .hostSleep
  · subst hi
    exact ⟨.unknown, fun h => absurd rfl h, rfl⟩
  · exact ⟨b.gp, fun _ => rfl, State.afterFailure_bus s i b hi⟩

theorem State.afterFrame_bus_gp (s : State) (i : Instr) (b : Bus) (r : List Byte) :
    ∃ gp, (i ≠ .hostSleep → gp = b.gp) ∧ (s.afterFrame i b r).bus = { b with gp := gp } := by
  by_cases hi : i = .hostSleep
  · subst hi
    exact ⟨.asleep, fun h => absurd rfl h, rfl⟩
  · exact ⟨b.gp, fun _ => rfl, State.afterFrame_bus s i b r hi⟩

/-- Everything the bus side of an instruction can do. -/
theorem exec_end {i : Instr} {s t : State} (h : exec i s = .next t) : ExecEnd i s t := by
  obtain ⟨⟨hf0, hidle, -⟩, hcases⟩ := exec_next h
  have hb0 : (s.busAtFrame i).faults = [] := by
    obtain ⟨ev, a, hb, -⟩ := s.busAtFrame_kept i
    rw [hb]
    exact hf0
  rcases hcases with ⟨code, aw, -, rfl⟩ | ⟨-, -, ⟨-, -, -, rfl⟩ | ⟨out, n, -, hframe, rfl⟩ | ⟨d, hi, -, -, rfl⟩⟩
  · exact .early hidle rfl
  · exact .asleep _ rfl rfl
  · have hended : ∀ r b gp u, (s.busAtFrame i).txn s.cfg out n = .done r b → u.seq = s.seq →
        (i ≠ .hostSleep → gp = b.gp) → u.bus = { b with gp := gp } → ExecEnd i s u := fun r b gp u htxn hseq hgp hbus => by
      have hb := Bus.txn_faults hb0 htxn
      rcases (s.busAtFrame i).txn_cases s.cfg out n with ⟨-, h⟩ | ⟨pre, b2, hp, hx, h | ⟨r', h⟩⟩
      · rw [htxn] at h; cases h
      · rw [htxn] at h; cases h
      · rw [htxn] at h
        cases h
        exact .ended out n pre b2 gp (hseq.trans hidle) hframe hp hx (by simpa using hb) (by simpa using hgp) hbus
    rcases s.frameEnd_cases i out n with ⟨b, htxn, h⟩ | ⟨b, htxn, h⟩ | ⟨r, b, htxn, h⟩ <;> rw [h]
    · rcases (s.busAtFrame i).txn_cases s.cfg out n with ⟨hs, h⟩ | ⟨pre, b2, hp, hx, h | ⟨r', h⟩⟩
      · rw [htxn] at h
        cases h
        exact .claimHung _ _ rfl hs rfl
      · rw [htxn] at h
        cases h
        exact .stopped _ out n pre rfl hframe hp hx
      · rw [htxn] at h; cases h
    · obtain ⟨gp, hgp, hbus⟩ := s.afterFailure_bus_gp i b
      exact hended none b gp _ htxn (by simp) hgp hbus
    · obtain ⟨gp, hgp, hbus⟩ := s.afterFrame_bus_gp i b r
      exact hended (some r) b gp _ htxn (by simp) hgp hbus
  · subst hi
    rcases s.wakeEnd_cases d with ⟨b, hs, hb, h⟩ | h <;> rw [h]
    · exact .claimHung _ _ rfl hs hb
    · exact .woke _ rfl hidle rfl

end Sys2Proof.Machine
end

section
/-! SUPPORT. The machine's invariant, part by part: the registers, the bus side, and the bus side at rest. -/

namespace Sys2Proof.Machine

/-- The device's part of the invariant: the array is canonical and inside `DEV_SIZE`, and so is the phase's cell. -/
structure Device.Sound (c : Config) (d : Device) : Prop where
  wf : d.mem.wf
  inside : ∀ x ∈ d.mem, x.1 < devSize c
  phase : d.dph.inArray (devSize c) = true

theorem Device.Sound.devNext {c : Config} {d : Device} (h : d.Sound c) (out : Byte) : (devNext c d out).Sound c := by
  have hphase := devNext_inArray c d out h.phase
  rcases devNext_mem c d out with hm | ⟨a, ha, -, -, hm⟩
  · exact ⟨by rw [hm]; exact h.wf, by rw [hm]; exact h.inside, hphase⟩
  · have hcell : a < devSize c := by simpa [ha, Phase.inArray] using h.phase
    refine ⟨by rw [hm]; exact Memory.write_wf _ _ _ h.wf, fun x hx => ?_, hphase⟩
    rw [hm] at hx
    rcases Memory.mem_write _ _ _ _ hx with ⟨rfl, -⟩ | hx
    · exact hcell
    · exact h.inside x hx

theorem Device.Sound.devRun {c : Config} {d : Device} (h : d.Sound c) (bytes : List Byte) : (devRun c d bytes).Sound c := by
  induction bytes generalizing d with
  | nil => exact h
  | cons o rest ih => exact ih (h.devNext o)

theorem Device.Sound.devSelect {c : Config} {d : Device} (h : d.Sound c) (gp : Power) : (devSelect gp d).Sound c := by
  refine ⟨by simpa using h.wf, by simpa using h.inside, ?_⟩
  unfold Machine.devSelect
  split <;> rfl

/-- Back in phase `Idle` only the array matters. -/
theorem Device.Sound.of_idle {c : Config} {d d' : Device} (h : d.Sound c) (hm : d'.mem = d.mem) (hp : d'.dph = .idle) :
    d'.Sound c := ⟨by rw [hm]; exact h.wf, by rw [hm]; exact h.inside, by rw [hp]; rfl⟩

/-- The bus side's part of the invariant in every state: the device's, no claim on an unshared bus (R26), FAULTS a set
(R31). -/
structure Bus.Sound (c : Config) (b : Bus) : Prop where
  dev : b.dev.Sound c
  claim : c.sharedBus = false → b.claim = false
  faults : b.faults.Nodup

/-- The bus side's part of the invariant between commands: CS and CLAIM 0, no fault recorded. -/
def Bus.AtRest (b : Bus) : Prop := b.cs = false ∧ b.claim = false ∧ b.faults = []

/-- The invariant: the registers' part, the bus side's, and the bus side at rest while SEQ is Idle. -/
theorem State.inv_iff (s : State) :
    s.Inv ↔ s.aw ≠ 1 ∧ s.matched.all (· < s.cfg.table.length) = true ∧ s.bus.Sound s.cfg ∧
      (s.seq = .idle → s.bus.AtRest) := by
  constructor
  · rintro ⟨haw, hm, hwf, hin, hph, hrest, hclaim, hnd, hf⟩
    exact ⟨haw, hm, ⟨⟨hwf, hin, hph⟩, hclaim, hnd⟩, fun hi =>
      ⟨(hrest hi).1, (hrest hi).2, not_not.mp fun hne => hf hne hi⟩⟩
  · rintro ⟨haw, hm, ⟨⟨hwf, hin, hph⟩, hclaim, hnd⟩, hrest⟩
    exact ⟨haw, hm, hwf, hin, hph, fun hi => ⟨(hrest hi).1, (hrest hi).2.1⟩, hclaim, hnd, fun hne hi =>
      hne (hrest hi).2.2⟩

theorem Bus.Sound.busAtFrame {s : State} (h : s.bus.Sound s.cfg) (i : Instr) : (s.busAtFrame i).Sound s.cfg := by
  obtain ⟨ev, a, hb, -⟩ := s.busAtFrame_kept i
  rw [hb]
  exact ⟨h.dev, h.claim, h.faults⟩

theorem Bus.Sound.raise {c : Config} {b : Bus} (h : b.Sound c) (f : Fault) : (b.raise f).Sound c := by
  refine ⟨h.dev, h.claim, ?_⟩
  unfold Bus.raise
  split
  case isTrue => exact h.faults
  case isFalse hf => exact h.faults.append (List.nodup_singleton f) (by simpa using hf)

/-- Exchanges in an open bracket keep the bus side's part of the invariant. -/
theorem Bus.Sound.exchanged {c : Config} {b b2 : Bus} {bytes : List Byte} {m : Nat} (h : b.Sound c)
    (hx : Bus.Exchanged c bytes m (b.opened c) b2) : b2.Sound c := by
  refine ⟨?_, fun hs => ?_, hx.nodup h.faults⟩
  · rw [hx.dev, Bus.opened_dev]
    exact (h.dev.devSelect b.gp).devRun bytes
  · rw [hx.claim, Bus.opened_claim, if_neg (by simp [hs])]
    exact h.claim hs

theorem Bus.Sound.closeTxn {c : Config} {b : Bus} (h : b.Sound c) (gp : Power) :
    Bus.Sound c { b.closeTxn c with gp := gp } := by
  refine ⟨h.dev.of_idle (by simp) (by simp), fun hs => ?_, by simpa using h.faults⟩
  simpa [hs] using h.claim hs

theorem Bus.Sound.awoken {c : Config} {b : Bus} (h : b.Sound c) (extra : Bool) (gp : Power) :
    Bus.Sound c { b.awoken c extra with gp := gp } := by
  refine ⟨h.dev.of_idle (by simp [Bus.awoken_dev]) (by simp [Bus.awoken_dev]), fun hs => ?_, ?_⟩
  · simpa [hs] using (b.awoken_released c extra).2.trans (by simpa [hs] using h.claim hs)
  · simpa [Bus.awoken_faults] using h.faults

/-- A bracket closed from rest leaves CS and CLAIM 0 (R58). -/
theorem Bus.Released.claim_eq {c : Config} {b b' : Bus} (h : Bus.Released c b b') (hb : b.claim = false) :
    b'.claim = false := by
  rw [h.2, hb]
  exact ite_self false

/-- However an instruction ends, the bus side keeps its part of the invariant. -/
theorem ExecEnd.sound {i : Instr} {s t : State} (h : ExecEnd i s t) (hs : s.bus.Sound s.cfg) : t.bus.Sound s.cfg := by
  have h0 := hs.busAtFrame i
  cases h with
  | early _ hbus => rw [hbus]; exact h0
  | asleep _ _ hbus => rw [hbus]; exact h0.raise _
  | claimHung _ _ _ _ hbus => rw [hbus]; exact ⟨h0.dev, h0.claim, h0.faults⟩
  | stopped _ _ _ _ _ _ _ hx => exact h0.exchanged hx
  | ended _ _ _ _ gp _ _ _ hx _ _ hbus => rw [hbus]; exact (h0.exchanged hx).closeTxn gp
  | woke extra _ _ hbus => rw [hbus]; exact hs.awoken extra _

/-- An instruction begun at rest and ended with SEQ Idle leaves the bus side at rest. -/
theorem ExecEnd.atRest {i : Instr} {s t : State} (h : ExecEnd i s t) (hs : s.bus.AtRest) (hidle : t.seq = .idle) :
    t.bus.AtRest := by
  obtain ⟨hcs, hclaim, hfaults⟩ := hs
  obtain ⟨ev, a, hb, -⟩ := s.busAtFrame_kept i
  have hbusy : ∀ k, t.seq ≠ .busy i k := fun k h => by rw [hidle] at h; cases h
  cases h with
  | early _ hbus => rw [hbus, hb]; exact ⟨hcs, hclaim, hfaults⟩
  | asleep k hseq _ => exact absurd hseq (hbusy k)
  | claimHung k _ hseq _ _ => exact absurd hseq (hbusy k)
  | stopped k _ _ _ hseq _ _ _ => exact absurd hseq (hbusy k)
  | ended _ _ _ b gp _ _ _ hx hf _ hbus =>
    rw [hbus]
    exact ⟨Bus.closeTxn_cs _ _, hx.released.claim_eq (by rw [hb]; exact hclaim), by simpa using hf⟩
  | woke extra _ _ hbus =>
    have hrel := s.bus.awoken_released s.cfg extra
    rw [hbus]
    exact ⟨hrel.1, hrel.claim_eq hclaim, (Bus.awoken_faults _ _ _).trans hfaults⟩

/-- Every instruction that answers keeps the invariant. -/
theorem exec_inv {i : Instr} {s t : State} (hs : s.Inv) (h : exec i s = .next t) : t.Inv := by
  obtain ⟨haw, hm, hsound, hrest⟩ := (State.inv_iff s).mp hs
  obtain ⟨⟨-, hidle, -⟩, -⟩ := exec_next h
  have hend := exec_end h
  have hreg := exec_registers h
  refine (State.inv_iff t).mpr ⟨?_, ?_, ?_, hend.atRest (hrest hidle)⟩
  · exact hreg.aw.elim (fun h => by rw [h]; exact haw) And.right
  · rw [hreg.cfg]
    exact hreg.matched.elim (fun h => by rw [h]; exact hm) And.right
  · rw [hreg.cfg]
    exact hend.sound hsound

/-- An engine reset taken with no fault recorded keeps the invariant (R170, R171). -/
theorem State.engineReset_inv {s : State} (hs : s.Inv) (hf : s.bus.faults = []) : s.engineReset.Inv := by
  obtain ⟨-, -, hsound, -⟩ := (State.inv_iff s).mp hs
  exact (State.inv_iff _).mpr ⟨(by decide : (0 : BitVec 2) ≠ 1), rfl, ⟨hsound.dev, fun _ => rfl, hsound.faults⟩,
    fun _ => ⟨rfl, rfl, hf⟩⟩

/-! ## The step -/

/-- Everything a step that answers can do: wait, take an engine reset, or run an instruction. -/
theorem step_next {s t : State} (h : step s = .next t) :
    t = s ∨ (∃ rest, s.bus.faults = [] ∧ s.port = .reset :: rest ∧ t = { s with port := rest }.engineReset) ∨
      ∃ i rest, exec i { s with port := rest } = .next t := by
  unfold step at h
  split at h
  next => cases h
  next => cases h
  next => cases h; exact .inl rfl
  next rest hfetch =>
    cases h
    unfold State.fetch at hfetch
    split at hfetch
    · split at hfetch
      · cases hfetch
      next hf =>
        split at hfetch
        · cases hfetch
        next hp => cases hfetch; exact .inr (.inl ⟨_, hf, hp, rfl⟩)
        · split at hfetch
          · split at hfetch <;> cases hfetch
          · cases hfetch
    · cases hfetch
  next => cases h
  next i rest _ => exact .inr (.inr ⟨i, rest, h⟩)

/-- The words to come are no part of the invariant. -/
theorem State.inv_port {s : State} (hs : s.Inv) (rest : List PortItem) : State.Inv { s with port := rest } := hs

end Sys2Proof.Machine
end

section
/-! SUPPORT. The statements of the invariant, settled. -/

namespace Sys2Proof.Proofs

open Sys2Proof Sys2Proof.Machine

/-- Settles O53: a step waits, takes an engine reset or runs an instruction, and each of them keeps the invariant. -/
theorem stepKeepsTheInvariant : Obligations.StepKeepsTheInvariant := by
  intro s t hs h
  rcases step_next h with rfl | ⟨rest, hf, -, rfl⟩ | ⟨i, rest, h⟩
  · exact hs
  · exact State.engineReset_inv (State.inv_port hs rest) hf
  · exact exec_inv (State.inv_port hs rest) h

/-- Settles O54: at launch every register is at its reset value, and the array is the given one. -/
theorem resetMeetsTheInvariant : Obligations.ResetMeetsTheInvariant := by
  have hlaunch : ∀ c : Config, Memory.wf c.dev.mem0 → (∀ x ∈ c.dev.mem0, x.1 < devSize c) → (State.launch c).Inv :=
    fun c hwf hin => (State.inv_iff _).mpr
      ⟨(by decide : (0 : BitVec 2) ≠ 1), rfl, ⟨⟨hwf, hin, rfl⟩, fun _ => rfl, List.nodup_nil⟩,
        fun _ => ⟨rfl, rfl, rfl⟩⟩
  exact ⟨hlaunch Config.standard (by decide) (by decide), hlaunch⟩

end Sys2Proof.Proofs
end

section
/-! SUPPORT. Where the engine takes no instruction, the CFG view, and the commands that end before any exchange. -/

namespace Sys2Proof.Machine

/-! ## Barred (R8, R87, R143, R145) -/

theorem runCommand_barred {s : State} {o : Host.Outcome State Fault Refusal} (h : s.barred = some o) (i : Instr)
    (rule : State → Ended) : runCommand i s rule = o := by
  unfold runCommand
  rw [h]

theorem runFrame_barred {s : State} {o : Host.Outcome State Fault Refusal} (h : s.barred = some o) (i : Instr)
    (out : List Byte) (n : Nat) : runFrame i s out n = o := by
  unfold runFrame
  rw [h]

/-- Every instruction answers what bars the engine. -/
theorem exec_barred {s : State} {o : Host.Outcome State Fault Refusal} (h : s.barred = some o) (i : Instr) :
    exec i s = o := by
  cases i
  case wireWren | wireWrdi | wireRdsr | wireWrsr | wireRead | wireWrite | wireRdid | wireSleep =>
    exact runFrame_barred h _ _ _
  all_goals
    simp only [exec, execInitialize, execWriteEnable, execWrite8, execWriteBlock, execRead8, execReadBlock,
      execGetDeviceID, execGetStatusRegister, execSetStatusRegister, execSetAddressWidth, execSleep, execWake,
      execReserved0, execReservedD, execReservedE, execReservedF]
    exact runCommand_barred h _ _

theorem State.barred_duplicateKeys {s : State} (hu : ¬s.cfg.UniqueKeys) :
    s.barred = some (.refused .duplicateKeys) := by simp [State.barred, hu]

theorem State.barred_fault {s : State} (hu : s.cfg.UniqueKeys) {f : Fault} {fs : List Fault}
    (hf : s.bus.faults = f :: fs) : s.barred = some (.fault f) := by simp [State.barred, hu, hf]

theorem State.barred_busy {s : State} (hu : s.cfg.UniqueKeys) (hf : s.bus.faults = []) (hs : s.seq ≠ .idle) :
    s.barred = some (.refused .commandWhileBusy) := by simp [State.barred, hu, hf, hs]

/-! ## The step (R8, R87, R143, R170, R172) -/

theorem step_duplicateKeys {s : State} (hu : ¬s.cfg.UniqueKeys) : step s = .refused .duplicateKeys := by
  simp [step, State.fetch, hu]

theorem step_fault {s : State} (hu : s.cfg.UniqueKeys) {f : Fault} {fs : List Fault} (hf : s.bus.faults = f :: fs) :
    step s = .fault f := by simp [step, State.fetch, hu, hf]

theorem step_noWord {s : State} (hu : s.cfg.UniqueKeys) (hf : s.bus.faults = []) (hp : s.port = []) :
    step s = .next s := by simp [step, State.fetch, hu, hf, hp]

theorem step_busy {s : State} (hu : s.cfg.UniqueKeys) (hf : s.bus.faults = []) (hs : s.seq ≠ .idle) {w : PortWord}
    {rest : List PortItem} (hp : s.port = .word w :: rest) : step s = .next s := by
  simp [step, State.fetch, hu, hf, hp, hs]

theorem step_reset {s : State} (hu : s.cfg.UniqueKeys) (hf : s.bus.faults = []) {rest : List PortItem}
    (hp : s.port = .reset :: rest) : step s = .next { s with port := rest }.engineReset := by
  simp [step, State.fetch, hu, hf, hp]

theorem step_undecodable {s : State} (hr : s.Ready) {w : PortWord} {rest : List PortItem} {e : DecodeError}
    (hp : s.port = .word w :: rest) (hd : decode w = .error e) : step s = .refused (.undecodable e) := by
  obtain ⟨hf, hs, hu⟩ := hr
  simp [step, State.fetch, hu, hf, hp, hs, hd]

theorem step_instr {s : State} (hr : s.Ready) {w : PortWord} {rest : List PortItem} {i : Instr}
    (hp : s.port = .word w :: rest) (hd : decode w = .ok i) : step s = exec i { s with port := rest } := by
  obtain ⟨hf, hs, hu⟩ := hr
  simp [step, State.fetch, hu, hf, hp, hs, hd]

/-- An engine that hangs, no engine reset at its port, stays as it is (R144). -/
theorem step_hanging {s : State} (hu : s.cfg.UniqueKeys) (hf : s.bus.faults = []) (hs : s.seq ≠ .idle)
    (hp : s.port.head? ≠ some .reset) : step s = .next s := by
  cases hport : s.port with
  | nil => exact step_noWord hu hf hport
  | cons x rest =>
    cases x with
    | word w => exact step_busy hu hf hs hport
    | reset => simp [hport] at hp

/-! ## CFG (R23) -/

/-- The four fields of a word laid out as CFG is. -/
theorem cfgLayout_fields (idx : BitVec 8) (zeros : BitVec 5) (mv : BitVec 1) (aw : BitVec 2) :
    (idx ++ zeros ++ mv ++ aw : BitVec 16).extractLsb' 0 2 = aw ∧
      (idx ++ zeros ++ mv ++ aw : BitVec 16).extractLsb' 2 1 = mv ∧
      (idx ++ zeros ++ mv ++ aw : BitVec 16).extractLsb' 3 5 = zeros ∧
      (idx ++ zeros ++ mv ++ aw : BitVec 16).extractLsb' 8 8 = idx := by
  have hlow : ∀ {v w : Nat} (hi : BitVec v) (lo : BitVec w), (hi ++ lo).extractLsb' 0 w = lo := fun _ _ =>
    (BitVec.extractLsb'_append_eq_of_add_le (by omega)).trans BitVec.extractLsb'_eq_self
  have h2 : ∀ {len : Nat} (k : Nat), 2 ≤ k → (idx ++ zeros ++ mv ++ aw : BitVec 16).extractLsb' k len =
      (idx ++ zeros ++ mv).extractLsb' (k - 2) len := fun _ => BitVec.extractLsb'_append_eq_of_le
  have h3 : ∀ {len : Nat} (k : Nat), 1 ≤ k → (idx ++ zeros ++ mv).extractLsb' k len =
      (idx ++ zeros).extractLsb' (k - 1) len := fun _ => BitVec.extractLsb'_append_eq_of_le
  refine ⟨hlow _ aw, ?_, ?_, ?_⟩
  · rw [h2 2 (by decide)]
    exact hlow _ mv
  · rw [h2 3 (by decide), h3 _ (by decide)]
    exact hlow _ zeros
  · rw [h2 8 (by decide), h3 _ (by decide)]
    exact BitVec.extractLsb'_append_eq_left

theorem State.engineReset_cfgWord (s : State) : s.engineReset.cfgWord = 0 :=
  (by decide : (matchIndex none ++ (0 : BitVec 5) ++ matchBit none ++ (0 : BitVec 2) : BitVec 16) = 0)

theorem matchIndex_toNat {i : Nat} (hi : i < 256) : (matchIndex (some i)).toNat = i := by
  simp only [matchIndex, if_pos hi, BitVec.toNat_ofNat]
  omega

/-! ## Commands that end before any exchange -/

theorem State.canSleep_iff (s : State) : s.CanSleep ↔ s.matchedDescriptor.any (·.supportsSleep) = true := by
  unfold State.CanSleep
  cases s.matchedDescriptor <;> simp

/-- A command other than `initialize` has issued nothing when its frame begins (R103). -/
theorem State.busAtFrame_of_ne {s : State} {i : Instr} (h : i ≠ .hostInitialize) : s.busAtFrame i = s.bus := if_neg h

theorem preludeOf_of_ne {i : Instr} (h : i ≠ .hostInitialize) : preludeOf i = [] := if_neg h

theorem ne_initialize_of_isMemoryCommand {i : Instr} (h : isMemoryCommand i = true) : i ≠ .hostInitialize := by
  rintro rfl
  cases h

/-- An early return of a command other than `initialize` touches AW and RESULT alone. -/
theorem exec_early_of_ne {i : Instr} {s : State} {code : ResultCode} {aw : BitVec 2} (hr : s.Ready)
    (hi : i ≠ .hostInitialize) (he : s.earlyReturn i = some (code, aw)) :
    exec i s = .next { s with aw := aw, result := some { code := code, data := .none } } := by
  rw [exec_early i s code aw hr he, State.busAtFrame_of_ne hi]

/-- The first fault recorded is the only one. -/
theorem Bus.raise_first {b : Bus} (h : b.faults = []) (f : Fault) : b.raise f = { b with faults := [f] } := by
  simp [Bus.raise, h]

/-- `AwakeCheck` of a command other than `initialize` (R130): the fault, SEQ Busy with no event, and nothing else. -/
theorem exec_asleep_of_ne {i : Instr} {s : State} (hr : s.Ready) (hw : isWire i = false) (hi : i ≠ .hostInitialize)
    (hg : s.bus.gp ≠ .active) (hf : (frameOf s.aw i).isSome = true) (hp : s.PassesGate i) :
    exec i s = .next { s with seq := .busy i 0, bus := { s.bus with faults := [.asleepAccess] } } := by
  rw [exec_asleep i s hr hw hg hf hp, State.busAtFrame_of_ne hi, preludeOf_of_ne hi, Bus.raise_first hr.1]
  rfl

theorem memoryCommand_isHost {i : Instr} (h : isMemoryCommand i = true) : isWire i = false := by
  rcases eq_of_isMemoryCommand h with ⟨_, _, rfl⟩ | ⟨_, _, rfl⟩ | ⟨_, rfl⟩ | ⟨_, _, rfl⟩ <;> rfl

theorem memoryCommand_hasFrame {i : Instr} (h : isMemoryCommand i = true) (aw : BitVec 2) :
    (frameOf aw i).isSome = true := by
  rcases eq_of_isMemoryCommand h with ⟨_, _, rfl⟩ | ⟨_, _, rfl⟩ | ⟨_, rfl⟩ | ⟨_, _, rfl⟩ <;> rfl

theorem memoryCommand_ne_sleep {i : Instr} (h : isMemoryCommand i = true) : i ≠ .hostSleep := by
  rintro rfl
  cases h

theorem memoryCommand_passesGate {i : Instr} {s : State} (h : isMemoryCommand i = true) (ha : s.aw ≠ 0) :
    s.PassesGate i :=
  ⟨fun _ => ha, fun hi => absurd hi (memoryCommand_ne_sleep h),
    fun hi => absurd hi (ne_initialize_of_isMemoryCommand h)⟩

theorem memoryCommand_earlyReturn {i : Instr} {s : State} (h : isMemoryCommand i = true) :
    s.earlyReturn i = if s.aw = 0 then some (.unsupportedDevice, s.aw) else none := by
  rcases eq_of_isMemoryCommand h with ⟨_, _, rfl⟩ | ⟨_, _, rfl⟩ | ⟨_, rfl⟩ | ⟨_, _, rfl⟩ <;> rfl

end Sys2Proof.Machine
end

section
/-! SUPPORT. The statements of the step, of CFG and of the commands that touch no bus, settled. -/

namespace Sys2Proof.Proofs

open Sys2Proof Sys2Proof.Machine

/-- Settles O10: the fields of the layout, and MATCH none after a reset. -/
theorem cfgWordHasItsFields : Obligations.CfgWordHasItsFields := by
  intro s
  obtain ⟨haw, hmv, hzeros, hidx⟩ := cfgLayout_fields (matchIndex s.matched) 0 (matchBit s.matched) s.aw
  refine ⟨haw, hmv, hzeros, fun i hm hi => ?_, fun hm => ?_, s.engineReset_cfgWord⟩
  · exact (congrArg BitVec.toNat hidx).trans (by rw [hm]; exact matchIndex_toNat hi)
  · exact hidx.trans (by rw [hm]; rfl)

/-- Settles O11: with duplicate keys both sides are refused; otherwise the word is fetched. -/
theorem stepRunsTheDecodedInstruction : Obligations.StepRunsTheDecodedInstruction := by
  intro s w rest i hf hs hp hd _
  by_cases hu : s.cfg.UniqueKeys
  · exact step_instr ⟨hf, hs, hu⟩ hp hd
  · rw [step_duplicateKeys hu]
    exact (exec_barred (State.barred_duplicateKeys (s := { s with port := rest }) hu) i).symm

/-- Settles O12: each clause is one arm of what the engine meets at its port. -/
theorem stepWithoutAnInstruction : Obligations.StepWithoutAnInstruction := fun _ =>
  ⟨step_duplicateKeys, fun hu =>
    ⟨fun _ _ => step_fault hu, step_noWord hu, fun _ _ hf hs hp => step_busy hu hf hs hp,
      fun _ hf hp => step_reset hu hf hp, fun _ _ _ hf hs hp hd => step_undecodable ⟨hf, hs, hu⟩ hp hd⟩⟩

/-- Settles O13: each of the three is what bars the engine, and so what every instruction answers. -/
theorem execIsBarred : Obligations.ExecIsBarred := fun i _ =>
  ⟨fun hu => exec_barred (State.barred_duplicateKeys hu) i, fun hu =>
    ⟨fun _ _ hf => exec_barred (State.barred_fault hu hf) i,
      fun hf hs => exec_barred (State.barred_busy hu hf hs) i⟩⟩

/-- Settles O14: each register is written with its reset value, and CFG is a view of two of them. -/
theorem engineResetWritesTheEngine : Obligations.EngineResetWritesTheEngine := fun s =>
  ⟨rfl, rfl, s.engineReset_cfgWord, rfl, rfl, rfl, rfl, rfl⟩

/-- Settles O16: a reserved code is an early return that leaves AW. -/
theorem reservedCodesAreIllegal : Obligations.ReservedCodesAreIllegal := by
  intro s hr i hi
  simp only [List.mem_cons, List.not_mem_nil, or_false] at hi
  rcases hi with rfl | rfl | rfl | rfl <;> exact exec_early_of_ne hr (by decide) rfl

/-- Settles O17: one early return for the two widths, another for the rest. -/
theorem setAddressWidthTakesTwoOrThree : Obligations.SetAddressWidthTakesTwoOrThree := by
  intro s w hr
  have hne : Instr.hostSetAddressWidth w ≠ .hostInitialize := by simp
  by_cases h2 : w = 2
  · subst h2
    exact exec_early_of_ne hr hne rfl
  · by_cases h3 : w = 3
    · subst h3
      exact exec_early_of_ne hr hne rfl
    · rw [if_neg h2, if_neg h3]
      exact exec_early_of_ne hr hne (congrArg some (if_neg (not_or.mpr ⟨h2, h3⟩)))

/-- Settles O18: AW = 0 is an early return; past it comes `AwakeCheck`. -/
theorem memoryCommandsPassTheirGate : Obligations.MemoryCommandsPassTheirGate := by
  intro s i hr hm
  have hne := ne_initialize_of_isMemoryCommand hm
  refine ⟨fun ha => ?_, fun ha hg => ?_⟩
  · exact exec_early_of_ne hr hne (by rw [memoryCommand_earlyReturn hm, if_pos ha])
  · exact exec_asleep_of_ne hr (memoryCommand_isHost hm) hne hg (memoryCommand_hasFrame hm _)
      (memoryCommand_passesGate hm ha)

/-- Settles O19: `initialize` has its handshake on TRACE by then, every other command nothing. -/
theorem sleepingDeviceAccessFaults : Obligations.SleepingDeviceAccessFaults := by
  intro s hr hg
  refine ⟨fun i hw hi hf hp => exec_asleep_of_ne hr hw hi hg hf hp, fun hb => ?_⟩
  have hp : s.PassesGate .hostInitialize := ⟨fun h => (by cases h), fun h => (by cases h), fun _ => hb⟩
  have hf : (s.busAtFrame .hostInitialize).faults = [] := hr.1
  rw [exec_asleep .hostInitialize s hr rfl hg rfl hp, Bus.raise_first hf, s.busAtFrame_eq .hostInitialize hp]
  exact ⟨_, rfl, rfl, rfl, rfl, rfl, rfl, rfl, rfl, rfl, rfl, rfl⟩

/-- Settles O20: both commands return early without a part that can sleep. -/
theorem sleepAndWakeNeedASleepCapablePart : Obligations.SleepAndWakeNeedASleepCapablePart := by
  intro s hr hc
  rw [State.canSleep_iff] at hc
  exact ⟨exec_early_of_ne hr (by decide) (if_neg hc), exec_early_of_ne hr (by decide) (if_neg hc)⟩

/-- Settles O29: the handshake answered false is an early return, its event the only change of the bus side. -/
theorem initializeReportsTheUnavailableBus : Obligations.InitializeReportsTheUnavailableBus := by
  intro s hr hb
  have he : s.earlyReturn .hostInitialize = some (.busUnavailable, s.aw) := by simp [State.earlyReturn, hb]
  refine ⟨_, exec_early _ s _ _ hr he, ⟨rfl, hr.2.1⟩, ?_, ⟨rfl, rfl, rfl, rfl, rfl, rfl⟩, rfl, rfl, rfl, rfl⟩
  simp [State.busAtFrame, Bus.tbegin, hb]

/-- Settles O44: the product's low byte is the product modulo 256. -/
theorem defaultExtendedWakePredicate : Obligations.DefaultExtendedWakePredicate := by
  intro c d hc
  have hlow : d.productId.extractLsb' 0 8 = 0x0B ↔ d.productId.toNat % 256 = 0x0B := by
    rw [← BitVec.toNat_inj, BitVec.extractLsb'_toNat]
    simp
  rw [extWake, hc]
  simp only [Bool.and_eq_true, beq_iff_eq, hlow]

end Sys2Proof.Proofs
end

section
/-! SUPPORT. What the composed device may have done after some first bytes of a frame: when it is put to sleep, and when it
has stored nothing (R68, R71, R75). -/

namespace Sys2Proof.Machine

/-- A device that may be asleep meets every exchange with no transition of its own (R74). -/
theorem devNext_wakeSel (c : Config) {d : Device} (hd : d.dph = .wakeSel) (o : Byte) : devNext c d o = d := by
  simp [devNext, hd]

theorem devFault_wakeSel (c : Config) {d : Device} (hd : d.dph = .wakeSel) (o : Byte) :
    devFault c d o = some .asleepAccess := by simp [devFault, hd]

theorem devRun_wakeSel (c : Config) (d : Device) (bytes : List Byte) (hd : d.dph = .wakeSel) : devRun c d bytes = d := by
  induction bytes with
  | nil => rfl
  | cons o rest ih => rw [devRun_cons, devNext_wakeSel c hd, ih]

theorem devNext_uncomposed {c : Config} (hc : c.composed = false) (d : Device) (o : Byte) : devNext c d o = d := by
  simp [devNext, hc]

theorem devRun_uncomposed {c : Config} (hc : c.composed = false) (d : Device) (bytes : List Byte) :
    devRun c d bytes = d := by
  induction bytes with
  | nil => rfl
  | cons o rest ih => rw [devRun_cons, devNext_uncomposed hc, ih]

/-! ## Put to sleep -/

/-- Past the opcode, an exchange neither leaves nor reaches the phase of a SLEEP frame (R68 to R73). -/
theorem devNext_sleeps_iff {c : Config} {d : Device} (hd : d.dph ≠ .opc) (o : Byte) :
    (devNext c d o).dph = .done .sleep ↔ d.dph = .done .sleep := by
  by_cases hc : c.composed = true
  · cases hp : d.dph <;> simp only [devNext, hc, hp, if_true] <;> try simp
    case opc => exact absurd hp hd
    case addr op acc n =>
      unfold devAddress
      cases op <;> simp only <;> split <;> simp
    case dataIn a => simp [devStore]
  · rw [devNext_uncomposed (by simpa using hc)]

theorem devRun_sleeps_iff {c : Config} {d : Device} (hc : c.composed = true) (h1 : d.dph ≠ .opc)
    (h2 : d.dph ≠ .wakeSel) (bytes : List Byte) :
    (devRun c d bytes).dph = .done .sleep ↔ d.dph = .done .sleep := by
  induction bytes generalizing d with
  | nil => rfl
  | cons o rest ih =>
    obtain ⟨n1, n2⟩ := devNext_phase c d o hc h2
    rw [devRun_cons, ih n2 n1, devNext_sleeps_iff h1]

/-- The opcode phase puts no frame but SLEEP's in the phase that DESELECT puts to sleep (R68). -/
theorem devOpcode_sleeps_iff (c : Config) (d : Device) (o : Byte) :
    (devOpcode c d o).dph = .done .sleep ↔ o = opSLEEP := by
  unfold devOpcode
  by_cases ho : o = opSLEEP
  · subst ho
    simp [opSLEEP, opREAD, opWRITE, opWREN, opWRDI, opRDSR, opWRSR, opRDID]
  · simp only [ho, if_false, iff_false]
    repeat' split
    all_goals simp

/-- A selected device has reached the phase of a SLEEP frame exactly where it is composed, awake, and the first byte it
took is SLEEP. -/
theorem devFrame_sleeps_iff (c : Config) (gp : Power) (d : Device) (bytes : List Byte) :
    (devRun c (devSelect gp d) bytes).dph = .done .sleep ↔
      c.composed = true ∧ gp = .active ∧ bytes.head? = some opSLEEP := by
  by_cases hc : c.composed = true
  · by_cases hg : gp = .active
    · subst hg
      cases bytes with
      | nil => simp [devSelect_dph]
      | cons o rest =>
        obtain ⟨n1, n2⟩ := devNext_phase c (devSelect .active d) o hc (by simp [devSelect_dph])
        rw [devRun_cons, devRun_sleeps_iff hc n2 n1]
        simp only [devNext, hc, if_true, devSelect_dph, devOpcode_sleeps_iff, List.head?_cons, Option.some.injEq,
          true_and]
    · have hd : (devSelect gp d).dph = .wakeSel := by simp [devSelect, hg]
      simp [devRun_wakeSel c _ bytes hd, hd, hg]
  · have hc : c.composed = false := by simpa using hc
    rw [devRun_uncomposed hc]
    unfold devSelect
    split <;> simp [hc]

/-- GP after the DESELECT of a transaction whose device took `bytes` (R75). -/
theorem devDeselectPower_frame (c : Config) (gp : Power) (d : Device) (bytes : List Byte) :
    devDeselectPower (devRun c (devSelect gp d) bytes) gp =
      if c.composed = true ∧ gp = .active ∧ bytes.head? = some opSLEEP then .asleep else gp := by
  simp only [devDeselectPower, devFrame_sleeps_iff]

/-- Only `sleep` and the raw SLEEP frame send the opcode SLEEP (R80, R131). -/
theorem frameOf_sleep {aw : BitVec 2} {i : Instr} {rest : List Byte} {n : Nat}
    (h : frameOf aw i = some (opSLEEP :: rest, n)) : i = .wireSleep ∨ i = .hostSleep := by
  cases i <;> simp [frameOf, opSLEEP, opWREN, opWRDI, opRDSR, opWRSR, opREAD, opWRITE, opRDID] at h ⊢
  case hostWriteEnable en => cases en <;> simp at h

/-- The first byte of a first part of a frame is the frame's. -/
theorem head?_of_isPrefix {c : Config} {op o : Byte} {rest pre : List Byte} {n : Nat}
    (hp : pre <+: wireBytes c (op :: rest) n) (ho : pre.head? = some o) : o = op := by
  obtain ⟨post, hpost⟩ := hp
  cases pre with
  | nil => cases ho
  | cons x xs =>
    cases ho
    exact (List.cons.inj hpost).1

/-! ## Nothing stored -/

/-- The phases of a WRITE frame past its opcode. -/
def Phase.writes : Phase → Bool
  | .addr .write _ _ | .dataIn _ => true
  | .addr .read _ _ | .idle | .opc | .dataOut _ | .srOut | .srIn | .srDone _ | .idOut _ | .done _ | .wakeSel
  | .undef => false

/-- Whatever bytes come, the device stores none of them: its opcode is past and no WRITE frame is honoured. -/
def Device.StoresNothing (d : Device) : Prop := d.dph ≠ .opc ∧ (d.dph.writes = true → d.dwr = false)

theorem Device.StoresNothing.devNext {d : Device} (h : d.StoresNothing) (c : Config) (o : Byte) :
    (devNext c d o).StoresNothing ∧ (devNext c d o).mem = d.mem := by
  by_cases hc : c.composed = true
  · obtain ⟨h1, h2⟩ := h
    unfold Machine.devNext Device.StoresNothing
    cases hp : d.dph <;> simp only [hc, if_true] <;> try simp [hp, Phase.writes]
    case opc => exact absurd hp h1
    case addr op acc n =>
      unfold devAddress
      cases op <;> simp only <;> split <;> simp
      all_goals exact h2 (by rw [hp]; rfl)
    case dataIn a =>
      have hw : d.dwr = false := h2 (by rw [hp]; rfl)
      simp [devStore, hw]
  · rw [devNext_uncomposed (by simpa using hc)]
    exact ⟨h, rfl⟩

theorem Device.StoresNothing.devRun_mem {d : Device} (h : d.StoresNothing) (c : Config) (bytes : List Byte) :
    (devRun c d bytes).mem = d.mem := by
  induction bytes generalizing d with
  | nil => rfl
  | cons o rest ih =>
    obtain ⟨h1, h2⟩ := h.devNext c o
    rw [devRun_cons, ih h1, h2]

/-- The opcode phase: a frame that is no WRITE, or a latch that is clear, and nothing will be stored (R68). -/
theorem devOpcode_storesNothing {c : Config} {d : Device} {op : Byte} (h : op ≠ opWRITE ∨ d.wel = false) :
    (devOpcode c d op).StoresNothing := by
  unfold devOpcode Device.StoresNothing
  by_cases ho : op = opWRITE
  · subst ho
    have hw : d.wel = false := h.resolve_left (fun hne => hne rfl)
    simp [opWRITE, opREAD, Phase.writes, hw]
  · simp only [ho, if_false]
    repeat' split
    all_goals simp [Phase.writes]

/-- Some first part of a frame that is no WRITE, or with the latch clear, leaves the array (R71, R79). -/
theorem devFrame_mem {c : Config} {gp : Power} {d : Device} {op : Byte} {rest pre : List Byte} {n : Nat}
    (hp : pre <+: wireBytes c (op :: rest) n) (h : op ≠ opWRITE ∨ d.wel = false) :
    (devRun c (devSelect gp d) pre).mem = d.mem := by
  cases pre with
  | nil => simp
  | cons o tail =>
    cases head?_of_isPrefix hp rfl
    by_cases hc : c.composed = true
    · by_cases hg : gp = .active
      · subst hg
        have hop : devNext c (devSelect .active d) op = devOpcode c (devSelect .active d) op := by
          simp [devNext, hc, devSelect_dph]
        have hstores : (devOpcode c (devSelect .active d) op).StoresNothing :=
          devOpcode_storesNothing (h.imp id fun hw => by simpa using hw)
        rw [devRun_cons, hop, hstores.devRun_mem]
        unfold devOpcode
        repeat' split
        all_goals simp
      · rw [devRun_wakeSel c _ _ (by simp [devSelect, hg]), devSelect_mem]
    · rw [devRun_uncomposed (by simpa using hc), devSelect_mem]

/-- Only three instructions send the opcode WRITE (R80, R111, R112). -/
theorem frameOf_write {aw : BitVec 2} {i : Instr} {rest : List Byte} {n : Nat}
    (h : frameOf aw i = some (opWRITE :: rest, n)) :
    (∃ a v, i = .hostWrite8 a v) ∨ (∃ a p, i = .hostWriteBlock a p) ∨ ∃ a p, i = .wireWrite a p := by
  cases i <;> simp [frameOf, opSLEEP, opWREN, opWRDI, opRDSR, opWRSR, opREAD, opWRITE, opRDID] at h ⊢
  case hostWriteEnable en => cases en <;> simp at h

end Sys2Proof.Machine
end

section
/-! SUPPORT. What a host command that returned has returned, what is on TRACE of an instruction however it ended, and
commands that send one frame. -/

namespace Sys2Proof.Machine

/-! ## Results -/

/-- How a host command that returned can have ended. -/
inductive CommandEnd (i : Instr) (s t : State) : Prop
  /-- Before any exchange. -/
  | early (code : ResultCode) (aw : BitVec 2) (hearly : s.earlyReturn i = some (code, aw))
      (ht : t = { s with aw := aw, bus := s.busAtFrame i, result := some { code := code, data := .none } })
  /-- An exchange failed. -/
  | failed (out : List Byte) (n : Nat) (b : Bus) (hearly : s.earlyReturn i = none) (hgp : s.bus.gp = .active)
      (hframe : frameOf s.aw i = some (out, n)) (htxn : (s.busAtFrame i).txn s.cfg out n = .done none b)
      (ht : t = s.afterFailure i b)
  /-- The frame completed. -/
  | completed (out : List Byte) (n : Nat) (r : List Byte) (b : Bus) (hearly : s.earlyReturn i = none)
      (hgp : s.bus.gp = .active) (hframe : frameOf s.aw i = some (out, n))
      (htxn : (s.busAtFrame i).txn s.cfg out n = .done (some r) b) (ht : t = s.afterFrame i b r)
  /-- The sequence of `wake` ended. -/
  | woke (d : DeviceDescriptor) (hi : i = .hostWake) (hearly : s.earlyReturn i = none)
      (hmatched : s.matchedDescriptor = some d)
      (ht : t =
        { s with
          bus := { s.bus.awoken s.cfg (extWake s.cfg d) with gp := .active }
          result := some { code := .ok, data := .none } })

theorem exec_returned {i : Instr} {s t : State} (hw : isWire i = false) (h : exec i s = .next t) (hseq : t.seq = .idle) :
    CommandEnd i s t := by
  obtain ⟨-, hcases⟩ := exec_next h
  rcases hcases with
    ⟨code, aw, he, rfl⟩ | ⟨-, he, ⟨-, -, -, rfl⟩ | ⟨out, n, hg, hframe, rfl⟩ | ⟨d, hi, hm, -, rfl⟩⟩
  · exact .early code aw he rfl
  · cases hseq
  · rcases s.frameEnd_cases i out n with ⟨b, -, h⟩ | ⟨b, htxn, h⟩ | ⟨r, b, htxn, h⟩ <;> rw [h] at hseq ⊢
    · cases hseq
    · exact .failed out n b he (hg hw) hframe htxn rfl
    · exact .completed out n r b he (hg hw) hframe htxn rfl
  · rcases s.wakeEnd_cases d with ⟨b, -, -, h⟩ | h <;> rw [h] at hseq ⊢
    · cases hseq
    · exact .woke d hi he hm rfl

theorem State.afterFailure_result {i : Instr} (hw : isWire i = false) (s : State) (b : Bus) :
    (s.afterFailure i b).result = some { code := .transferFailed, data := .none } := by simp [State.afterFailure, hw]

/-- What a completed frame makes a host command return: Ok, or `UnsupportedDevice` from `initialize` (R103). -/
theorem State.afterFrame_result {i : Instr} (hw : isWire i = false) (s : State) (b : Bus) (r : List Byte) :
    (∃ data, (s.afterFrame i b r).result = some { code := .ok, data := data } ∧
        (i = .hostInitialize → lookup s.cfg (decodeIDBytes r).1 (decodeIDBytes r).2 ≠ none)) ∨
      i = .hostInitialize ∧ lookup s.cfg (decodeIDBytes r).1 (decodeIDBytes r).2 = none ∧
        (s.afterFrame i b r).result = some { code := .unsupportedDevice, data := .none } ∧
        (s.afterFrame i b r).matched = none ∧ (s.afterFrame i b r).aw = 0 := by
  by_cases hi : i = .hostInitialize
  · subst hi
    rcases s.afterFrame_initialize b r with ⟨k, d, hl, -, h⟩ | ⟨hl, h⟩ <;> rw [h]
    · exact .inl ⟨_, rfl, fun _ => by simp [hl]⟩
    · exact .inr ⟨rfl, hl, rfl, rfl, rfl⟩
  · refine .inl ?_
    cases i
    case hostInitialize => exact absurd rfl hi
    case wireWren | wireWrdi | wireRdsr | wireWrsr | wireRead | wireWrite | wireRdid | wireSleep => cases hw
    all_goals exact ⟨_, rfl, fun h => absurd h hi⟩

/-- A host command that returned has a pair on the port (R27). -/
theorem CommandEnd.result {i : Instr} {s t : State} (h : CommandEnd i s t) (hw : isWire i = false) :
    ∃ code data, t.result = some { code := code, data := data } := by
  cases h with
  | early code _ _ ht => rw [ht]; exact ⟨_, _, rfl⟩
  | failed _ _ b _ _ _ _ ht => rw [ht]; exact ⟨_, _, State.afterFailure_result hw s b⟩
  | completed _ _ r b _ _ _ _ ht =>
    rw [ht]
    rcases State.afterFrame_result hw s b r with ⟨_, h, -⟩ | ⟨-, -, h, -⟩
    · exact ⟨_, _, h⟩
    · exact ⟨_, _, h⟩
  | woke _ _ _ _ ht => rw [ht]; exact ⟨_, _, rfl⟩

/-- A raw frame, and whatever stops, leave RESULT (R27, R144). -/
theorem exec_result_kept {i : Instr} {s t : State} (h : exec i s = .next t) (hk : isWire i = true ∨ t.seq ≠ .idle) :
    t.result = s.result := by
  obtain ⟨⟨-, hidle, -⟩, hcases⟩ := exec_next h
  have hwire : t.seq = s.seq → isWire i = true := fun hs => hk.resolve_right (fun hne => hne (hs.trans hidle))
  rcases hcases with ⟨code, aw, he, rfl⟩ | ⟨-, -, ⟨-, -, -, rfl⟩ | ⟨out, n, -, -, rfl⟩ | ⟨d, rfl, -, -, rfl⟩⟩
  · cases (State.earlyReturn_wire (hwire rfl) s).symm.trans he
  · rfl
  · rcases s.frameEnd_cases i out n with ⟨b, -, h⟩ | ⟨b, -, h⟩ | ⟨r, b, -, h⟩ <;> rw [h] at hwire ⊢
    · simp [State.afterFailure, hwire (by simp)]
    · rw [State.afterFrame_wire (hwire (by simp))]
  · rcases s.wakeEnd_cases d with ⟨b, -, -, h⟩ | h <;> rw [h] at hwire ⊢
    cases hwire rfl

/-! ## The causes of the codes (R140) -/

theorem State.early_busUnavailable_iff {s : State} {i : Instr} :
    (∃ aw, s.earlyReturn i = some (.busUnavailable, aw)) ↔ i = .hostInitialize ∧ s.bus.answers.beginHead = false := by
  cases i <;> simp [State.earlyReturn]
  case hostSetAddressWidth w => intro; split <;> simp

theorem State.early_unsupportedDevice_iff {s : State} {i : Instr} :
    (∃ aw, s.earlyReturn i = some (.unsupportedDevice, aw)) ↔ isMemoryCommand i = true ∧ s.aw = 0 := by
  cases i <;> simp [State.earlyReturn, isMemoryCommand]
  case hostSetAddressWidth w => intro; split <;> simp

theorem State.early_notSupported_iff {s : State} {i : Instr} :
    (∃ aw, s.earlyReturn i = some (.notSupported, aw)) ↔ (i = .hostSleep ∨ i = .hostWake) ∧ ¬s.CanSleep := by
  rw [State.canSleep_iff]
  cases i <;> simp [State.earlyReturn]
  case hostSetAddressWidth w => intro; split <;> simp

theorem State.early_invalidWidth_iff {s : State} {i : Instr} :
    (∃ aw, s.earlyReturn i = some (.invalidWidth, aw)) ↔ ∃ w, i = .hostSetAddressWidth w ∧ w ≠ 2 ∧ w ≠ 3 := by
  cases i <;> simp [State.earlyReturn]
  case hostSetAddressWidth w =>
    by_cases h2 : w = 2#8
    · simp [h2]
    · by_cases h3 : w = 3#8 <;> simp [h2, h3]

theorem State.early_illegalCommand_iff {s : State} {i : Instr} :
    (∃ aw, s.earlyReturn i = some (.illegalCommand, aw)) ↔ i ∈ [Instr.reserved0, .reservedD, .reservedE, .reservedF] := by
  cases i <;> simp [State.earlyReturn]
  case hostSetAddressWidth w => intro; split <;> simp

/-- No early return has the code of a failed exchange. -/
theorem State.early_ne_transferFailed {s : State} {i : Instr} {aw : BitVec 2} :
    s.earlyReturn i ≠ some (.transferFailed, aw) := by
  cases i <;> simp [State.earlyReturn]
  case hostSetAddressWidth w => split <;> simp

end Sys2Proof.Machine
end

section
/-! SUPPORT. What an instruction puts on TRACE, however it ended: one bracket at most, and not more events than R24 says;
and memory commands that send the same frame. -/

namespace Sys2Proof.Machine

/-! ## TRACE -/

/-- Exchanges are neither SELECT nor DESELECT nor RELEASE. -/
theorem exchanges_count {inner : List Event} (h : ∀ e ∈ inner, e.IsExchange) :
    inner.count .select = 0 ∧ inner.count .deselect = 0 ∧ inner.count .release = 0 := by
  simp only [List.count_eq_zero]
  refine ⟨fun hm => ?_, fun hm => ?_, fun hm => ?_⟩ <;> rcases h _ hm with ⟨_, _, h⟩ | ⟨_, h⟩ <;> cases h

/-- A bracket around events that select nothing: one SELECT, one DESELECT, and two or four events more. -/
theorem bracket_counts (c : Config) {inner : List Event} (h1 : inner.count .select = 0) (h2 : inner.count .deselect = 0) :
    (bracket c inner).count .select = 1 ∧ (bracket c inner).count .deselect = 1 ∧
      (bracket c inner).length ≤ inner.length + 4 := by
  unfold bracket
  split <;> simp [h1, h2]

/-- The handshake of `initialize`, all that stands on TRACE before a frame (R103). -/
theorem State.busAtFrame_trace (s : State) (i : Instr) :
    ∃ ev, (s.busAtFrame i).trace = s.bus.trace ++ ev ∧ ev.count .select = 0 ∧ ev.count .deselect = 0 ∧
      ev.length ≤ (if i = .hostInitialize then 1 else 0) ∧ ∀ o, Event.xferFail o ∉ ev := by
  obtain ⟨ev, a, hb, rfl | ⟨hi, rfl⟩⟩ := s.busAtFrame_kept i
  · exact ⟨[], by rw [hb], rfl, rfl, by simp, by simp⟩
  · exact ⟨[.tbegin s.bus.answers.beginHead], by rw [hb], rfl, rfl, by simp [hi], by simp⟩

theorem addrBytes_length_le (addr : Word) (aw : BitVec 2) : (addrBytes addr aw).length ≤ aw.toNat + 2 := by
  unfold addrBytes wireAddr
  split
  next h => simp [h, WireAddr.bytes]
  next => simp [WireAddr.bytes]

/-- A host command's handshake, its frame and the bracket around it are within the bound of R24. -/
theorem frameOf_le_eventBound {aw : BitVec 2} {i : Instr} {out : List Byte} {n : Nat} (hw : isWire i = false)
    (h : frameOf aw i = some (out, n)) :
    (if i = .hostInitialize then 1 else 0) + (out.length + n + 4) ≤ eventBound aw i := by
  have ha := fun addr => addrBytes_length_le addr aw
  cases i <;> simp only [isWire, reduceCtorEq] at hw <;>
    simp only [frameOf, Option.some.injEq, Prod.mk.injEq, reduceCtorEq] at h <;>
    obtain ⟨rfl, rfl⟩ := h <;> simp [eventBound]
  case hostWrite8 a _ | hostWriteBlock a _ | hostRead8 a | hostReadBlock a _ =>
    have := ha a
    omega
  all_goals omega

/-- Seven events are within the bound of every command but `initialize`, and one within its. -/
theorem eventBound_ge (aw : BitVec 2) (i : Instr) : (if i = .hostInitialize then 1 else 7) ≤ eventBound aw i := by
  unfold eventBound
  split <;> omega

/-- What an instruction has put on TRACE, however it ended: at most one SELECT, a DESELECT for it once SEQ is Idle, and
for a host command no more events than its bound (R24, R59). -/
theorem ExecEnd.trace {i : Instr} {s t : State} (h : ExecEnd i s t) :
    ∃ ev, t.bus.trace = s.bus.trace ++ ev ∧ ev.count .select ≤ 1 ∧
      (t.seq = .idle → ev.count .deselect = ev.count .select) ∧
      (isWire i = false → ev.length ≤ eventBound s.aw i) := by
  obtain ⟨ev0, ht0, hs0, hd0, hl0, -⟩ := s.busAtFrame_trace i
  have hge := eventBound_ge s.aw i
  have hsilent : t.bus.trace = (s.busAtFrame i).trace → ∃ ev, t.bus.trace = s.bus.trace ++ ev ∧ ev.count .select ≤ 1 ∧
      (t.seq = .idle → ev.count .deselect = ev.count .select) ∧ (isWire i = false → ev.length ≤ eventBound s.aw i) :=
    fun ht => ⟨ev0, ht.trans ht0, by omega, fun _ => by omega, fun _ => by split at hl0 <;> split at hge <;> omega⟩
  cases h with
  | early _ hbus => exact hsilent (by rw [hbus])
  | asleep _ _ hbus => exact hsilent (by rw [hbus]; rfl)
  | claimHung _ _ _ _ hbus => exact hsilent (by rw [hbus])
  | stopped _ out n pre hseq hframe _ hx =>
    obtain ⟨inner, ht, hl, he⟩ := hx.trace
    obtain ⟨hs, hd, -⟩ := exchanges_count he
    obtain ⟨os, -, -, ol⟩ := opening_counts s.cfg
    refine ⟨ev0 ++ (opening s.cfg ++ inner), ?_, ?_, ?_, fun hw => ?_⟩
    · rw [ht, Bus.opened_trace, ht0, List.append_assoc, List.append_assoc]
    · rw [List.count_append, List.count_append]
      omega
    · rw [hseq]
      exact fun h => (by cases h)
    · have hb := frameOf_le_eventBound hw hframe
      rw [List.length_append, List.length_append]
      split at ol <;> omega
  | ended out n pre b gp _ hframe _ hx _ _ hbus =>
    obtain ⟨inner, ht, hl, he⟩ := hx.closeTxn_trace
    obtain ⟨hs, hd, -⟩ := exchanges_count he
    obtain ⟨bs, bd, bl⟩ := bracket_counts s.cfg hs hd
    refine ⟨ev0 ++ bracket s.cfg inner, ?_, ?_, fun _ => ?_, fun hw => ?_⟩
    · rw [hbus]
      exact ht.trans (by rw [ht0, List.append_assoc])
    · rw [List.count_append]; omega
    · rw [List.count_append, List.count_append]; omega
    · have hb := frameOf_le_eventBound hw hframe
      rw [List.length_append]
      omega
  | woke extra hi _ hbus =>
    subst hi
    obtain ⟨bs, bd, bl⟩ := bracket_counts s.cfg (inner := [.delay 300]) (by decide) (by decide)
    refine ⟨bracket s.cfg [.delay 300] ++ ([Event.delay 100] ++ if extra then [Event.delay 50] else []), ?_, ?_,
      fun _ => ?_, fun _ => ?_⟩
    · rw [hbus]
      simp only [Bus.awoken_trace, List.append_assoc]
    · rw [List.count_append, bs]
      cases extra <;> decide
    · simp only [List.count_append, bs, bd]
      cases extra <;> decide
    · have hl : ([Event.delay 100] ++ if extra then [Event.delay 50] else []).length ≤ 2 := by
        cases extra <;> decide
      simp only [reduceCtorEq, if_false] at hge
      rw [List.length_append]
      simp only [List.length_singleton] at bl
      omega

/-! ## Memory commands that send the same frame (R93, R116) -/

/-- Two memory commands that send the same frame leave the same bus side; RESULT is the same too, unless the frame
completed, and then each command's own rule says what it is. -/
theorem exec_sameFrame {i j : Instr} {s t : State} (hi : isMemoryCommand i = true) (hj : isMemoryCommand j = true)
    (hf : frameOf s.aw j = frameOf s.aw i) (h : exec i s = .next t) :
    ∃ u, exec j s = .next u ∧ u.bus = t.bus ∧
      (u.result = t.result ∧
          (t.seq = .idle → ∃ code, code ≠ .ok ∧ t.result = some { code := code, data := .none }) ∨
        ∃ out n r b, frameOf s.aw i = some (out, n) ∧ r.length = n ∧ t = s.afterFrame i b r ∧
          u = s.afterFrame j b r) := by
  have hni := ne_initialize_of_isMemoryCommand hi
  have hnj := ne_initialize_of_isMemoryCommand hj
  have hwi := memoryCommand_isHost hi
  have hwj := memoryCommand_isHost hj
  have hearly := (memoryCommand_earlyReturn (s := s) hj).trans (memoryCommand_earlyReturn hi).symm
  have hbus := (State.busAtFrame_of_ne (s := s) hnj).trans (State.busAtFrame_of_ne hni).symm
  obtain ⟨hr, hcases⟩ := exec_next h
  rcases hcases with ⟨code, aw, he, rfl⟩ | ⟨hp, -, ⟨-, hg, hs, rfl⟩ | ⟨out, n, hg, hframe, rfl⟩ | ⟨d, rfl, -, -, -⟩⟩
  · refine ⟨_, exec_early j s code aw hr (hearly.trans he), hbus, .inl ⟨rfl, fun _ => ⟨code, ?_, rfl⟩⟩⟩
    rintro rfl
    rw [memoryCommand_earlyReturn hi] at he
    split at he <;> cases he
  · have hpj := memoryCommand_passesGate hj (hp.1 hi)
    exact ⟨_, exec_asleep j s hr hwj hg (by rw [hf]; exact hs) hpj, congrArg (Bus.raise · _) hbus,
      .inl ⟨rfl, fun h => by cases h⟩⟩
  · have hpj := memoryCommand_passesGate hj (hp.1 hi)
    refine ⟨_, exec_frame j s out n hr (fun _ => hg hwi) (hf.trans hframe) hpj, ?_⟩
    unfold State.frameEnd
    rw [hbus]
    cases htxn : (s.busAtFrame i).txn s.cfg out n with
    | halt b => exact ⟨rfl, .inl ⟨rfl, fun h => by cases h⟩⟩
    | done r b =>
      cases r with
      | none =>
        refine ⟨?_, .inl ⟨?_, fun _ => ⟨_, by decide, State.afterFailure_result hwi s b⟩⟩⟩
        · exact (State.afterFailure_bus s j b (memoryCommand_ne_sleep hj)).trans
            (State.afterFailure_bus s i b (memoryCommand_ne_sleep hi)).symm
        · exact (State.afterFailure_result hwj s b).trans (State.afterFailure_result hwi s b).symm
      | some r =>
        refine ⟨?_, .inr ⟨out, n, r, b, hframe, Bus.txn_length htxn, rfl, rfl⟩⟩
        exact (State.afterFrame_bus s j b r (memoryCommand_ne_sleep hj)).trans
          (State.afterFrame_bus s i b r (memoryCommand_ne_sleep hi)).symm
  · cases hi

theorem State.busAtFrame_gp (s : State) (i : Instr) : (s.busAtFrame i).gp = s.bus.gp := by
  obtain ⟨_, _, hb, -⟩ := s.busAtFrame_kept i
  rw [hb]

theorem State.busAtFrame_dev (s : State) (i : Instr) : (s.busAtFrame i).dev = s.bus.dev := by
  obtain ⟨_, _, hb, -⟩ := s.busAtFrame_kept i
  rw [hb]

/-- The one early return of `sleep` and `wake` (D16). -/
theorem State.earlyReturn_power {s : State} {i : Instr} {code : ResultCode} {aw : BitVec 2}
    (hi : i = .hostSleep ∨ i = .hostWake) (h : s.earlyReturn i = some (code, aw)) : code = .notSupported := by
  rcases hi with rfl | rfl <;> simp only [State.earlyReturn] at h <;> split at h <;> cases h <;> rfl

/-- What stops in a hang or a fault leaves GP (D14). -/
theorem ExecEnd.gp_of_stopped {i : Instr} {s t : State} (h : ExecEnd i s t) (hseq : t.seq ≠ .idle) :
    t.bus.gp = s.bus.gp := by
  cases h with
  | early hs _ => exact absurd hs hseq
  | asleep _ _ hb => rw [hb]; exact s.busAtFrame_gp i
  | claimHung _ _ _ _ hb => rw [hb]; exact s.busAtFrame_gp i
  | stopped _ _ _ _ _ _ _ hx => exact hx.gp.trans (s.busAtFrame_gp i)
  | ended _ _ _ _ _ hs _ _ _ _ _ _ => exact absurd hs hseq
  | woke _ _ hs _ => exact absurd hs hseq

/-- Of the instructions other than `sleep` and `wake` only a raw SLEEP frame that ended writes GP (R130). -/
theorem ExecEnd.gp_of_ne {i : Instr} {s t : State} (h : ExecEnd i s t) (hns : i ≠ .hostSleep) (hnw : i ≠ .hostWake) :
    t.bus.gp = s.bus.gp ∨ i = .wireSleep ∧ s.bus.gp = .active ∧ t.bus.gp = .asleep ∧ t.seq = .idle := by
  by_cases hseq : t.seq = .idle
  case neg => exact .inl (h.gp_of_stopped hseq)
  cases h with
  | early _ hb => rw [hb]; exact .inl (s.busAtFrame_gp i)
  | asleep _ _ hb => rw [hb]; exact .inl (s.busAtFrame_gp i)
  | claimHung _ _ _ _ hb => rw [hb]; exact .inl (s.busAtFrame_gp i)
  | stopped _ _ _ _ _ _ _ hx => exact .inl (hx.gp.trans (s.busAtFrame_gp i))
  | ended out n pre b gp _ hframe hpre hx _ hgp hb =>
    have hpow : t.bus.gp = if s.cfg.composed = true ∧ s.bus.gp = .active ∧ pre.head? = some opSLEEP then .asleep
        else s.bus.gp := by
      rw [hb]
      simp only
      rw [hgp hns, hx.gp, hx.dev, Bus.opened_gp, Bus.opened_dev, devDeselectPower_frame, s.busAtFrame_gp]
    split at hpow
    next hc =>
      obtain ⟨-, hact, hhead⟩ := hc
      obtain ⟨op, rest, rfl, -⟩ := frameOf_opcode hframe
      rw [← head?_of_isPrefix hpre hhead] at hframe
      exact .inr ⟨(frameOf_sleep hframe).resolve_right hns, hact, hpow, hseq⟩
    next => exact .inl hpow
  | woke _ hi _ _ => exact absurd hi hnw

/-- Only a WRITE frame with the latch set changes the array (R77, D47). -/
theorem ExecEnd.mem_of_honoured {i : Instr} {s t : State} (h : ExecEnd i s t)
    (hcause : ∀ {out n}, frameOf s.aw i = some (out, n) → out.head? ≠ some opWRITE ∨ s.bus.dev.wel = false) :
    t.bus.dev.mem = s.bus.dev.mem := by
  have hframe_mem : ∀ {out n pre m b}, frameOf s.aw i = some (out, n) → pre <+: wireBytes s.cfg out n →
      Bus.Exchanged s.cfg pre m ((s.busAtFrame i).opened s.cfg) b → b.dev.mem = s.bus.dev.mem := by
    intro out n pre m b hframe hpre hx
    obtain ⟨op, rest, rfl, -⟩ := frameOf_opcode hframe
    rw [hx.dev, Bus.opened_dev, s.busAtFrame_dev]
    exact devFrame_mem hpre ((hcause hframe).imp_left fun hne hop => hne (congrArg some hop))
  cases h with
  | early _ hb => rw [hb, s.busAtFrame_dev]
  | asleep _ _ hb => rw [hb, Bus.raise_dev, s.busAtFrame_dev]
  | claimHung _ _ _ _ hb => rw [hb, s.busAtFrame_dev]
  | stopped _ _ _ _ _ hframe hpre hx => exact hframe_mem hframe hpre hx
  | ended _ _ _ b _ _ hframe hpre hx _ _ hb =>
    rw [hb]
    simpa using hframe_mem hframe hpre hx
  | woke _ _ _ hb => rw [hb, Bus.awoken_dev]

/-- The wire address of an address truncated to the wire's width is the address's own (R42). -/
theorem addrBytes_truncated {aw : BitVec 2} {a a' : Word} (haw : aw = 2 ∨ aw = 3)
    (ha : a'.toNat = a.toNat % 2 ^ (8 * aw.toNat)) : addrBytes a' aw = addrBytes a aw := by
  have hw : ∀ w, a'.toNat = a.toNat % 2 ^ w → a'.setWidth w = a.setWidth w := fun w h =>
    BitVec.eq_of_toNat_eq (by rw [BitVec.toNat_setWidth, BitVec.toNat_setWidth, h, Nat.mod_mod])
  rcases haw with rfl | rfl
  · exact congrArg (fun x => (WireAddr.two x).bytes) (hw 16 ha)
  · exact congrArg (fun x => (WireAddr.three x).bytes) (hw 24 ha)

end Sys2Proof.Machine
end

section
/-! SUPPORT. The statements over all instructions and those of the memory commands that send one frame, settled. -/

namespace Sys2Proof.Proofs

open Sys2Proof Sys2Proof.Machine

/-- Settles O5: the frame of the truncated address is the same frame, and both commands' rules ignore the address. -/
theorem highAddressBitsAreDropped : Obligations.HighAddressBitsAreDropped := by
  intro s t a a' haw ha
  have hbytes := addrBytes_truncated haw ha
  have hsame : ∀ i j, isMemoryCommand i = true → isMemoryCommand j = true → frameOf s.aw j = frameOf s.aw i →
      (∀ b r, (s.afterFrame j b r).result = (s.afterFrame i b r).result) → exec i s = .next t →
      ∃ u, exec j s = .next u ∧ u.bus = t.bus ∧ u.result = t.result := fun i j hi hj hf hres h => by
    obtain ⟨u, hu, hbus, ⟨hr, -⟩ | ⟨_, _, r, b, -, -, rfl, rfl⟩⟩ := exec_sameFrame hi hj hf h
    · exact ⟨u, hu, hbus, hr⟩
    · exact ⟨_, hu, hbus, hres b r⟩
  refine ⟨fun v => ?_, fun p => ?_, ?_, fun n => ?_⟩
  all_goals exact hsame _ _ rfl rfl (by simp only [frameOf, hbytes]) fun _ _ => rfl

/-- Settles O6: the frames are the same; a completed READ of one byte hands on that byte, alone or in a list. -/
theorem byteCommandsAreBlocksOfOne : Obligations.ByteCommandsAreBlocksOfOne := by
  intro s t a
  refine ⟨fun v h => ?_, fun h => ?_⟩
  · obtain ⟨u, hu, hbus, ⟨hr, -⟩ | ⟨_, _, r, b, -, -, rfl, rfl⟩⟩ :=
      exec_sameFrame (i := .hostWrite8 a v) (j := .hostWriteBlock a [v]) rfl rfl rfl h
    · exact ⟨u, hu, hbus, hr⟩
    · exact ⟨_, hu, hbus, rfl⟩
  · obtain ⟨u, hu, hbus, ⟨hr, herr⟩ | ⟨_, n, r, b, hf, hl, rfl, rfl⟩⟩ :=
      exec_sameFrame (i := .hostRead8 a) (j := .hostReadBlock a 1) rfl rfl rfl h
    · refine ⟨u, hu, hbus, fun hseq => .inr ?_⟩
      obtain ⟨code, hne, hcode⟩ := herr hseq
      exact ⟨code, hne, hcode, hr⟩
    · cases hf
      obtain ⟨v, rfl⟩ := List.length_eq_one_iff.mp hl
      exact ⟨_, hu, hbus, fun _ => .inl ⟨v, rfl, rfl⟩⟩

/-- Settles O21: a transaction stops at its claim or in its exchanges, or closes the bracket around them. -/
theorem transactionsReleaseOnEveryReturn : Obligations.TransactionsReleaseOnEveryReturn := by
  intro c out n b
  refine ⟨fun r b' h => ?_, fun b' h => ?_⟩
  · rcases b.txn_cases c out n with ⟨-, h'⟩ | ⟨pre, b2, -, hx, h' | ⟨r', h'⟩⟩ <;> rw [h] at h' <;> cases h'
    obtain ⟨inner, ht, -, he⟩ := hx.closeTxn_trace
    exact ⟨hx.released, by simp, by simp, inner, ht, he⟩
  · rcases b.txn_cases c out n with ⟨-, h'⟩ | ⟨pre, b2, -, hx, h' | ⟨r', h'⟩⟩ <;> rw [h] at h' <;> cases h'
    · exact ⟨[], by simp⟩
    · obtain ⟨inner, ht, -, he⟩ := hx.trace
      obtain ⟨hs, hd, hrel⟩ := exchanges_count he
      obtain ⟨os, od, orel, -⟩ := opening_counts c
      refine ⟨opening c ++ inner, ?_, ?_, ?_, ?_⟩
      · rw [ht, Bus.opened_trace, List.append_assoc]
      · exact List.not_mem_append od (List.count_eq_zero.mp hd)
      · exact List.not_mem_append orel (List.count_eq_zero.mp hrel)
      · rw [List.count_append]
        omega

/-- Settles O45: what `exec_registers` says of each register's writers. -/
theorem onlyConfigurationCommandsWriteAwAndMatch : Obligations.OnlyConfigurationCommandsWriteAwAndMatch := by
  intro i s t h
  obtain ⟨hcfg, hport, hmatched, haw⟩ := exec_registers h
  refine ⟨hcfg, hport, fun hi => hmatched.resolve_right fun hw => hi hw.1, fun hi hset => ?_⟩
  exact haw.resolve_right fun ⟨hw, _⟩ => hw.elim hi fun ⟨w, hw⟩ => hset w hw

/-- Settles O46: an error is an early return, a failed frame, or an ID of no entry. -/
theorem errorsLeaveTheStateUnchanged : Obligations.ErrorsLeaveTheStateUnchanged := by
  rintro i s t code data hinv hw h ⟨hres, hseq⟩ hne
  obtain ⟨-, -, -, hrest⟩ := (State.inv_iff t).mp (exec_inv hinv h)
  obtain ⟨hcs, hclaim, -⟩ := hrest hseq
  have herr : data = .none ∧ (if i = .hostInitialize ∧ code = .unsupportedDevice then t.matched = none ∧ t.aw = 0
      else t.matched = s.matched ∧ t.aw = s.aw) ∧ (i = .hostSleep → code = .transferFailed → t.bus.gp = .unknown) := by
    cases exec_returned hw h hseq with
    | early code' aw hearly ht =>
      rw [ht] at hres ⊢
      cases hres
      have haw : aw = s.aw := (State.earlyReturn_aw hearly).resolve_right fun ⟨_, hok, _⟩ => hne hok
      have hcause : ¬(i = .hostInitialize ∧ code = .unsupportedDevice) := by
        rintro ⟨rfl, rfl⟩
        cases (State.early_unsupportedDevice_iff.mp ⟨aw, hearly⟩).1
      refine ⟨rfl, ?_, fun hi hc => ?_⟩
      · rw [if_neg hcause]
        exact ⟨rfl, haw⟩
      · rw [hc] at hearly
        exact absurd hearly State.early_ne_transferFailed
    | failed out n b _ _ _ _ ht =>
      rw [ht, State.afterFailure_result hw] at hres
      cases hres
      rw [ht, if_neg (fun h => by cases h.2)]
      refine ⟨rfl, ⟨by simp, by simp⟩, fun hi _ => ?_⟩
      subst hi
      rfl
    | completed out n r b _ _ _ _ ht =>
      rcases State.afterFrame_result hw s b r with ⟨_, hr, -⟩ | ⟨hi, -, hr, hm, ha⟩
      · rw [ht, hr] at hres
        cases hres
        exact absurd rfl hne
      · rw [ht, hr] at hres
        cases hres
        rw [ht, if_pos ⟨hi, rfl⟩]
        exact ⟨rfl, ⟨hm, ha⟩, fun _ hc => by cases hc⟩
    | woke d _ _ _ ht =>
      rw [ht] at hres
      cases hres
      exact absurd rfl hne
  exact ⟨herr.1, hcs, hclaim, herr.2.1, herr.2.2⟩

/-- Settles O48: GP is written by `sleep`, by `wake`, and by the DESELECT of a frame that began with SLEEP. -/
theorem onlySleepAndWakeChangePower : Obligations.OnlySleepAndWakeChangePower := by
  intro i s t h
  have hret : ∀ {code data}, t.seq = .idle → t.result = some { code := code, data := data } → t.Returned code data :=
    fun hs hr => ⟨hr, hs⟩
  have hstop := fun hseq => (exec_end h).gp_of_stopped hseq
  have hother := fun h1 h2 => (exec_end h).gp_of_ne h1 h2
  refine ⟨fun h1 h2 h3 => (hother h1 h2).resolve_right fun hw => h3 hw.1, fun hi hseq => ?_, fun hi hseq => ?_,
    fun hi => ?_, hstop⟩
  · subst hi
    cases exec_returned rfl h hseq with
    | early code aw hearly ht =>
      have hcode := State.earlyReturn_power (.inl rfl) hearly
      exact .inl ⟨by rw [ht]; exact s.busAtFrame_gp _, hret hseq (by rw [ht, hcode])⟩
    | failed _ _ b _ hg _ _ ht => exact .inr (.inr ⟨hg, by rw [ht]; rfl, hret hseq (by rw [ht]; rfl)⟩)
    | completed _ _ r b _ hg _ _ ht => exact .inr (.inl ⟨hg, by rw [ht]; rfl, hret hseq (by rw [ht]; rfl)⟩)
    | woke _ hi _ _ _ => cases hi
  · subst hi
    cases exec_returned rfl h hseq with
    | early code aw hearly ht =>
      have hcode := State.earlyReturn_power (.inr rfl) hearly
      exact .inl ⟨by rw [ht]; exact s.busAtFrame_gp _, hret hseq (by rw [ht, hcode])⟩
    | failed _ _ _ _ _ hframe _ _ => cases hframe
    | completed _ _ _ _ _ _ hframe _ _ => cases hframe
    | woke _ _ _ _ ht => exact .inr ⟨by rw [ht], hret hseq (by rw [ht])⟩
  · subst hi
    exact (hother (by decide) (by decide)).imp id And.right

/-- Settles O49: no bytes of another frame, and none of a WRITE frame with the latch clear, are stored. -/
theorem onlyHonouredWritesChangeTheArray : Obligations.OnlyHonouredWritesChangeTheArray := by
  intro i s t h hcause
  refine (exec_end h).mem_of_honoured fun {out n} hframe => hcause.imp (fun hne hop => ?_) id
  obtain ⟨h1, h2, h3⟩ := hne
  obtain ⟨op, rest, rfl, -⟩ := frameOf_opcode hframe
  obtain rfl : op = opWRITE := Option.some.inj hop
  rcases frameOf_write hframe with ⟨a, v, hi⟩ | ⟨a, p, hi⟩ | ⟨a, p, hi⟩
  · exact h1 a v hi
  · exact h2 a p hi
  · exact h3 a p hi

/-- Settles O50: the counts of what `ExecEnd.trace` says was put on TRACE. -/
theorem commandsIssueBoundedEvents : Obligations.CommandsIssueBoundedEvents := by
  intro i s t ev hw h htrace
  obtain ⟨ev', ht, hsel, hdes, hlen⟩ := (exec_end h).trace
  cases List.append_cancel_left (htrace.symm.trans ht)
  exact ⟨hlen hw, hsel, hdes⟩

/-- Settles O52: an instruction runs with no fault recorded and appends to TRACE; waiting and a reset touch neither. -/
theorem traceAndFaultsOnlyGrow : Obligations.TraceAndFaultsOnlyGrow := by
  intro s t h
  rcases step_next h with rfl | ⟨rest, -, -, rfl⟩ | ⟨i, rest, h⟩
  · exact ⟨List.prefix_rfl, List.prefix_rfl⟩
  · exact ⟨List.prefix_rfl, List.prefix_rfl⟩
  · obtain ⟨ev, ht, -⟩ := (exec_end h).trace
    obtain ⟨⟨hf, -⟩, -⟩ := exec_next h
    have hf : s.bus.faults = [] := hf
    exact ⟨⟨ev, ht.symm⟩, by rw [hf]; exact List.nil_prefix⟩

/-- Settles O57: the read is RESULT's, and RESULT is written exactly where a host command returns. -/
theorem resultIsReadableAfterTheFirstReturn : Obligations.ResultIsReadableAfterTheFirstReturn := by
  have hreads : ∀ {s : State}, s.cfg.UniqueKeys → ∀ r, s.result = some r → s.readResult = .ok r := fun hu r hr => by
    simp [State.readResult, hu, hr]
  have hnone : ∀ {s : State}, s.cfg.UniqueKeys → s.result = none → s.readResult = .error .resultNotReady :=
    fun hu hr => by simp [State.readResult, hu, hr]
  refine ⟨hnone List.nodup_nil rfl, fun s => ⟨fun hu => by simp [State.readResult, hu],
    fun hu => ⟨fun r => ?_, ?_, hnone hu rfl⟩,
    fun i t h => ⟨fun hw hseq => ?_, fun hk => ?_⟩⟩⟩
  · refine ⟨fun h => ?_, hreads hu r⟩
    cases hr : s.result with
    | none => rw [hnone hu hr] at h; cases h
    | some r' => rw [hreads hu r' hr] at h; cases h; rfl
  · refine ⟨fun h => ?_, hnone hu⟩
    cases hr : s.result with
    | none => rfl
    | some r' => rw [hreads hu r' hr] at h; cases h
  · obtain ⟨⟨-, -, hu⟩, -⟩ := exec_next h
    obtain ⟨code, data, hr⟩ := (exec_returned hw h hseq).result hw
    exact ⟨code, data, hreads (by rw [(exec_registers h).cfg]; exact hu) _ hr, hr, hseq⟩
  · simp only [State.readResult, (exec_registers h).cfg, exec_result_kept h hk]

end Sys2Proof.Proofs
end

section
/-! SUPPORT. What a whole frame on an awake device leaves: the engine, TRACE, and the device by the frame's opcode (R68 to
R75). -/

namespace Sys2Proof.Machine

/-! ## The device after a whole frame -/

/-- GP after a frame on an awake device: SLEEP puts the composed device to sleep (R75). -/
theorem devAfter_power (c : Config) (d : Device) (bytes : List Byte) :
    devDeselectPower (devAfter c d bytes) .active =
      if c.composed = true ∧ bytes.head? = some opSLEEP then .asleep else .active := by
  simpa [devAfter] using devDeselectPower_frame c .active d bytes

/-- A frame with no reference device composed leaves array, latch and status register. -/
theorem devFrame_uncomposed {c : Config} (hc : c.composed = false) (d : Device) (bytes : List Byte) :
    devDeselect c (devAfter c d bytes) = { d with dph := .idle, dwr := false } := by
  rw [devAfter_uncomposed c d bytes hc, devDeselect_devSelect]

/-- A frame of READ, RDSR, RDID or SLEEP leaves array, latch and status register. -/
theorem devFrame_reads (c : Config) (d : Device) {op : Byte} (ho : op ∈ [opREAD, opRDSR, opRDID, opSLEEP])
    (bytes : List Byte) : devDeselect c (devAfter c d (op :: bytes)) = { d with dph := .idle, dwr := false } := by
  by_cases hc : c.composed = true
  · obtain ⟨p, hp, h⟩ := devAfter_reads c d op bytes hc ho
    rw [h, devDeselect_reads c { d with dph := p, dwr := false } hp]
  · exact devFrame_uncomposed (by simpa using hc) d _

/-- The opcode phase of a composed device that was selected awake (R67, R68). -/
theorem devAfter_cons {c : Config} (hc : c.composed = true) (d : Device) (op : Byte) (bytes : List Byte) :
    devAfter c d (op :: bytes) = devRun c (devOpcode c (devSelect .active d) op) bytes := by
  have hop : devNext c (devSelect .active d) op = devOpcode c (devSelect .active d) op := by
    simp [devNext, hc, devSelect_dph]
  rw [devAfter, devRun_cons, hop]

theorem devFrame_wren {c : Config} (hc : c.composed = true) (d : Device) :
    devDeselect c (devAfter c d [opWREN]) = { d with wel := true, dph := .idle, dwr := false } := by
  rw [devAfter_cons hc]
  rfl

theorem devFrame_wrdi {c : Config} (hc : c.composed = true) (d : Device) :
    devDeselect c (devAfter c d [opWRDI]) = { d with wel := false, dph := .idle, dwr := false } := by
  rw [devAfter_cons hc]
  rfl

/-- A frame of WRSR: the status register is written where the latch is set or not needed, and a latch that is needed is
clear after it (R68, R75). -/
theorem devFrame_wrsr {c : Config} (hc : c.composed = true) (d : Device) (v : Byte) :
    devDeselect c (devAfter c d [opWRSR, v]) =
      { d with
        sr := if d.wel || !c.dev.wrsrNeedsWel then srWrite c d.sr v else d.sr
        wel := if c.dev.wrsrNeedsWel then false else d.wel
        dph := .idle
        dwr := false } := by
  have hphase : devAfter c d [opWRSR, v] = { d with dph := .srDone v, dwr := d.wel || !c.dev.wrsrNeedsWel } := by
    have hop : devOpcode c (devSelect .active d) opWRSR = { d with dph := .srIn, dwr := d.wel || !c.dev.wrsrNeedsWel } :=
      rfl
    rw [devAfter_cons hc, hop, devRun_cons, devRun_nil, devNext, if_pos hc]
  rw [hphase]
  unfold devDeselect devComplete
  cases d.wel <;> cases c.dev.wrsrNeedsWel <;> rfl

/-- A frame of WRITE, whole or cut after its opcode: the latch is clear, the status register as before, and the array what
its bytes have made it (R68, R71, R75). -/
theorem devFrame_write {c : Config} (hc : c.composed = true) (d : Device) (bytes : List Byte) :
    devDeselect c (devAfter c d (opWRITE :: bytes)) =
      { d with mem := (devAfter c d (opWRITE :: bytes)).mem, wel := false, dph := .idle, dwr := false } := by
  have hop : devOpcode c (devSelect .active d) opWRITE = { d with dph := .addr .write 0 0, dwr := d.wel } := rfl
  have hafter : devAfter c d (opWRITE :: bytes) = devRun c { d with dph := .addr .write 0 0, dwr := d.wel } bytes := by
    rw [devAfter_cons hc, hop]
  obtain ⟨hdwr, hphase⟩ := devRun_write_phase c { d with dph := .addr .write 0 0, dwr := d.wel } bytes hc (.inl ⟨0, 0, rfl⟩)
  obtain ⟨hwel, hsr⟩ := devRun_wel_sr c { d with dph := .addr .write 0 0, dwr := d.wel } bytes
  rw [hafter, devDeselect_write c _ hphase, hdwr, hwel, hsr]
  simp

/-! ## The engine after a whole frame -/

theorem State.afterFailure_sameEngine {s : State} {b : Bus} (hb : b.faults = s.bus.faults) (i : Instr) :
    s.SameEngine (s.afterFailure i b) := by
  obtain ⟨gp, -, hbus⟩ := s.afterFailure_bus_gp i b
  exact ⟨by simp, by simp, by simp, by simp, by simp, by rw [hbus]; exact hb⟩

theorem State.afterFrame_sameEngine {s : State} {b : Bus} (hb : b.faults = s.bus.faults) {i : Instr}
    (hi : i ≠ .hostInitialize) (r : List Byte) : s.SameEngine (s.afterFrame i b r) := by
  obtain ⟨hcfg, hport, hmatched, -⟩ := s.afterFrame_registers i b r
  have haw : (s.afterFrame i b r).aw = s.aw := by
    cases i
    case hostInitialize => exact absurd rfl hi
    all_goals rfl
  obtain ⟨gp, -, hbus⟩ := s.afterFrame_bus_gp i b r
  exact ⟨hcfg, haw, hmatched.resolve_right fun h => hi h.1, by simp, hport, by rw [hbus]; exact hb⟩

/-- The frame `(out, n)` of an instruction on an awake device completed with the bytes `r`, the bus left being `b`. -/
structure State.FrameDone (s : State) (i : Instr) (out : List Byte) (n : Nat) (r : List Byte) (b : Bus) : Prop where
  exec : exec i s = .next (s.afterFrame i b r)
  length : r.length = n
  trace : ∃ ev, b.trace = s.bus.trace ++ preludeOf i ++ ev ∧ FrameTrace s.cfg out r ev
  faults : b.faults = s.bus.faults
  released : Bus.Released s.cfg s.bus b
  dev : b.dev = devDeselect s.cfg (devAfter s.cfg s.bus.dev (wireBytes s.cfg out n))
  gp : b.gp = if s.cfg.composed = true ∧ out.head? = some opSLEEP then .asleep else s.bus.gp
  xfers : b.answers.xfers = s.bus.answers.xfers.drop (out.length + n)
  claims : b.answers.claims = if s.cfg.sharedBus then s.bus.answers.claims.tail else s.bus.answers.claims
  received : ∀ k < n, ∀ v, devMiso s.cfg (devAfter s.cfg s.bus.dev (wireBytes s.cfg out k)) = some v → r[k]? = some v

/-- An instruction with a frame, on an awake device, its checks passed and every exchange answered (R57, R58, R60). -/
theorem exec_frameDone {i : Instr} {s : State} {out : List Byte} {n : Nat} (hr : s.Ready) (hg : s.bus.gp = .active)
    (hf : frameOf s.aw i = some (out, n)) (hp : s.PassesGate i) (hc : s.Completes (out.length + n)) :
    ∃ r b, s.FrameDone i out n r b := by
  obtain ⟨op, rest, rfl, -⟩ := frameOf_opcode hf
  obtain ⟨r, b, hl, hexec, htrace, hfaults, hrel, hdev, hgp, hxfers, hclaims, hrecv⟩ :=
    exec_completes i s op rest n hr hg hf hp hc
  refine ⟨r, b, hexec, hl, htrace, hfaults.trans hr.1.symm, hrel, hdev, ?_, hxfers, hclaims, hrecv⟩
  rw [hgp, devAfter_power, hg]
  rfl

/-- The frame `(out, n)` of an instruction on an awake device failed at its exchange `j`, the bus left being `b`; the
device took `taken` of its bytes. -/
structure State.FrameFailed (s : State) (i : Instr) (out : List Byte) (n j : Nat) (taken : List Byte) (b : Bus) :
    Prop where
  exec : exec i s = .next (s.afterFailure i b)
  trace : ∃ ev, b.trace = s.bus.trace ++ preludeOf i ++ ev ∧ FailedTrace s.cfg out n j ev
  faults : b.faults = s.bus.faults
  released : Bus.Released s.cfg s.bus b
  dev : b.dev = devDeselect s.cfg (devAfter s.cfg s.bus.dev taken)
  gp : b.gp = if s.cfg.composed = true ∧ taken.head? = some opSLEEP then .asleep else s.bus.gp

/-- An instruction with a frame, on an awake device, its checks passed, whose exchange `j` fails (R57, R58, D38). -/
theorem exec_frameFailed {i : Instr} {s : State} {out : List Byte} {n j : Nat} {took : Bool} (hr : s.Ready)
    (hg : s.bus.gp = .active) (hf : frameOf s.aw i = some (out, n)) (hp : s.PassesGate i) (hj : j < out.length + n)
    (hs : s.StopsAt j (.fail took)) :
    ∃ b, s.FrameFailed i out n j ((wireBytes s.cfg out n).take (if took then j + 1 else j)) b := by
  obtain ⟨op, rest, rfl, -⟩ := frameOf_opcode hf
  obtain ⟨b, hexec, htrace, hfaults, hrel, hdev, hgp⟩ := exec_fails i s op rest n j took hr hg hf hp hj hs
  refine ⟨b, hexec, htrace, hfaults.trans hr.1.symm, hrel, hdev, ?_⟩
  rw [hgp, devAfter_power, hg]

/-- An instruction with a frame, on an awake device, its checks passed, whose exchange `j` never answers (R58, R144). -/
theorem exec_frameHangs {i : Instr} {s : State} {out : List Byte} {n j : Nat} {took : Bool} (hr : s.Ready)
    (hg : s.bus.gp = .active) (hf : frameOf s.aw i = some (out, n)) (hp : s.PassesGate i) (hj : j < out.length + n)
    (hs : s.StopsAt j (.hang took)) :
    ∃ b ev, exec i s = .next { s with bus := b, seq := .busy i ((preludeOf i).length + ev.length) } ∧
      b.trace = s.bus.trace ++ preludeOf i ++ ev ∧ HungTrace s.cfg out n j ev ∧ b.faults = [] ∧ b.cs = true ∧
      b.claim = if s.cfg.sharedBus then true else s.bus.claim := by
  obtain ⟨op, rest, rfl, hin⟩ := frameOf_opcode hf
  have hb := s.busAtFrame_eq i hp
  have hx : (s.busAtFrame i).answers.xfers = s.bus.answers.xfers := by rw [hb]; simp only; split <;> rfl
  have hl : (s.busAtFrame i).answers.claims = s.bus.answers.claims := by rw [hb]; simp only; split <;> rfl
  obtain ⟨b, htxn, ⟨ev, htrace, hhung⟩, hfaults, hcs, hclaim, -⟩ := Bus.txn_hangs s.cfg op rest n j (s.busAtFrame i) took hj
    (by rw [hb]; exact hr.1) (by rw [hb]; exact hg) hin
    (fun h => by unfold Answers.claimHead; rw [hl]; exact hs.1.1 h) (by rw [hx]; exact hs.1.2) (by rw [hx]; exact hs.2)
  rw [hb] at htrace hclaim
  have hk : eventsSince s.bus b = (preludeOf i).length + ev.length := by
    simp only [eventsSince, htrace, List.length_append]
    omega
  refine ⟨b, ev, ?_, htrace, hhung, hfaults, hcs, hclaim⟩
  rw [exec_frame i s _ _ hr (fun _ => hg) hf hp, State.frameEnd, htxn, ← hk]

/-- Four bytes, one by one. -/
theorem four_bytes {r : List Byte} (h : r.length = 4) : ∃ a0 a1 a2 a3, r = [a0, a1, a2, a3] := by
  obtain ⟨a0, r, rfl⟩ := List.exists_cons_of_length_eq_add_one h
  obtain ⟨a1, a2, a3, rfl⟩ := List.length_eq_three.mp (Nat.succ.inj h)
  exact ⟨a0, a1, a2, a3, rfl⟩

theorem State.FrameDone.trace_of_ne {s : State} {i : Instr} {out r : List Byte} {n : Nat} {b : Bus}
    (h : s.FrameDone i out n r b) (hi : i ≠ .hostInitialize) :
    ∃ ev, b.trace = s.bus.trace ++ ev ∧ FrameTrace s.cfg out r ev := by
  have ht := h.trace
  rwa [preludeOf_of_ne hi, List.append_nil] at ht

/-- After a frame of READ, RDSR or RDID the device is as before (R70, R72, R73). -/
theorem State.FrameDone.sameDevice {s : State} {i : Instr} {op : Byte} {rest r : List Byte} {n : Nat} {b : Bus}
    (h : s.FrameDone i (op :: rest) n r b) (ho : op ∈ [opREAD, opRDSR, opRDID]) : Bus.SameDevice s.bus b := by
  have hdev : b.dev = { s.bus.dev with dph := .idle, dwr := false } :=
    h.dev.trans (devFrame_reads s.cfg s.bus.dev (List.mem_of_mem_take (i := 3) ho) _)
  have hgp : b.gp = s.bus.gp := by
    rw [h.gp, if_neg]
    rintro ⟨-, hs⟩
    cases hs
    exact absurd ho (by decide)
  exact ⟨by rw [hdev], by rw [hdev], by rw [hdev], hgp⟩

/-- A frame of another opcode than SLEEP leaves GP. -/
theorem State.FrameDone.gp_of_ne {s : State} {i : Instr} {op : Byte} {rest r : List Byte} {n : Nat} {b : Bus}
    (h : s.FrameDone i (op :: rest) n r b) (ho : op ≠ opSLEEP) : b.gp = s.bus.gp := by
  rw [h.gp, if_neg]
  rintro ⟨-, hs⟩
  exact ho (Option.some.inj hs)

/-- A frame with no reference device composed leaves the device, GP included. -/
theorem State.FrameDone.sameDevice_uncomposed {s : State} {i : Instr} {out r : List Byte} {n : Nat} {b : Bus}
    (h : s.FrameDone i out n r b) (hc : s.cfg.composed = false) : Bus.SameDevice s.bus b := by
  have hdev := h.dev.trans (devFrame_uncomposed hc s.bus.dev _)
  have hgp : b.gp = s.bus.gp := by rw [h.gp, if_neg (by simp [hc])]
  exact ⟨by rw [hdev], by rw [hdev], by rw [hdev], hgp⟩

end Sys2Proof.Machine
end

section
/-! SUPPORT. The ID the composed device answers with; claims that never return; a raw frame to a sleeping device. -/

namespace Sys2Proof.Machine

/-- The ID phase: whatever is sent, the index moves on (R73). -/
theorem devRun_id {c : Config} (hc : c.composed = true) (d : Device) (k : Nat) (bytes : List Byte) (hd : d.dph = .idOut k) :
    devRun c d bytes = { d with dph := .idOut (k + bytes.length) } := by
  induction bytes generalizing d k with
  | nil => cases d; cases hd; rfl
  | cons o rest ih =>
    have hn : devNext c d o = { d with dph := .idOut (k + 1) } := by simp [devNext, hc, hd]
    rw [devRun_cons, hn, ih _ (k + 1) rfl]
    simp [Nat.add_assoc, Nat.add_comm 1]

/-- The byte the composed device drives after `k` bytes of an ID frame's response (R73). -/
theorem devMiso_id {c : Config} (hc : c.composed = true) (d : Device) (k : Nat) :
    devMiso c (devAfter c d (wireBytes c [opRDID] k)) = c.dev.idBytes[k]? := by
  have hop : devOpcode c (devSelect .active d) opRDID = { d with dph := .idOut 0, dwr := false } := rfl
  rw [wireBytes, List.singleton_append, devAfter_cons hc, hop, devRun_id hc _ 0 _ rfl]
  simp [devMiso, hc]

/-- The instructions with an ID frame (R82, R102, R103). -/
theorem frameOf_id {aw : BitVec 2} {i : Instr} (h : frameOf aw i = some ([opRDID], 4)) :
    i = .wireRdid ∨ i = .hostInitialize ∨ i = .hostGetDeviceID := by
  cases i <;> simp [frameOf, opSLEEP, opWREN, opWRDI, opRDSR, opWRSR, opREAD, opWRITE, opRDID] at h ⊢

/-- What a completed `initialize` makes of MATCH is the lookup's answer (R103). -/
theorem State.afterFrame_initialize_matched (s : State) (b : Bus) (r : List Byte) :
    (s.afterFrame .hostInitialize b r).matched = lookup s.cfg (decodeIDBytes r).1 (decodeIDBytes r).2 := by
  rcases s.afterFrame_initialize b r with ⟨k, d, hl, -, h⟩ | ⟨hl, h⟩ <;> rw [h, hl]

/-- An instruction whose frame's claim never returns stops before any event of the bracket (R144). -/
theorem exec_claimHangs {i : Instr} {s : State} (hr : s.Ready) (hg : isWire i = false → i ≠ .hostWake → s.bus.gp = .active)
    (hp : s.PassesGate i) (hs : s.cfg.sharedBus = true) (hc : s.bus.answers.claimHead = false)
    (hi : (frameOf s.aw i).isSome = true ∨ i = .hostWake ∧ s.CanSleep) :
    ∃ a, exec i s = .next
      { s with
        bus := { s.bus with trace := s.bus.trace ++ preludeOf i, answers := a }
        seq := .busy i (preludeOf i).length } := by
  rcases hi with hframe | ⟨rfl, d, hd, hsleep⟩
  · obtain ⟨⟨out, n⟩, hframe⟩ := Option.isSome_iff_exists.mp hframe
    have hnw : i ≠ .hostWake := by rintro rfl; cases hframe
    have hb := s.busAtFrame_eq i hp
    have hclaim : (s.busAtFrame i).answers.claimHead = false := by rw [hb]; simp only; split <;> exact hc
    have htxn := Bus.txn_claim_hangs s.cfg out n (s.busAtFrame i) hs hclaim
    refine ⟨(s.busAtFrame i).answers.claimRest, ?_⟩
    rw [exec_frame i s out n hr (fun hw => hg hw hnw) hframe hp, State.frameEnd, htxn, hb]
    simp [eventsSince]
  · have hseq : s.bus.wakeSequence s.cfg (extWake s.cfg d) = .halt { s.bus with answers := s.bus.answers.claimRest } := by
      rw [Bus.wakeSequence, Bus.openTxn_hangs s.cfg s.bus hs hc, Flow.andThen_halt]
    refine ⟨s.bus.answers.claimRest, ?_⟩
    rw [exec_wake s d hr hd hsleep, State.wakeEnd, hseq]
    simp [eventsSince, preludeOf]

theorem Bus.wakeSequence_completes {c : Config} {b : Bus} (extra : Bool)
    (hc : c.sharedBus = true → b.answers.claimHead = true) :
    b.wakeSequence c extra = .done () (b.awoken c extra) := by
  rw [Bus.wakeSequence, Bus.openTxn_completes c b hc]
  rfl

/-- An exchange with a device that may be asleep: it stands on TRACE, and its fault stops the engine (R74). -/
theorem Bus.doXfer_asleep (c : Config) (out : Byte) {b : Bus} (hf : b.faults = []) (hd : b.dev.dph = .wakeSel)
    (ha : b.answers.xferHead.isByte = true) :
    ∃ inp, b.doXfer c out = .halt
      { b with
        trace := b.trace ++ [.xfer out inp]
        faults := [.asleepAccess]
        answers := b.answers.xferRest } := by
  cases hx : b.answers.xferHead with
  | byte draw =>
    refine ⟨(devMiso c b.dev).getD draw, ?_⟩
    simp [Bus.doXfer, hx, Bus.devTake, devFault_wakeSel c hd, devNext_wakeSel c hd, Bus.raise, Bus.emit,
      Bus.unlessFaulted, hf]
  | fail took => rw [hx] at ha; cases ha
  | hang took => rw [hx] at ha; cases ha

/-- A transaction with such a device stops in its first exchange, the bracket open. -/
theorem Bus.txn_asleep {c : Config} {b : Bus} (op : Byte) (rest : List Byte) (n : Nat) (hf : b.faults = [])
    (hg : b.gp ≠ .active) (hc : c.sharedBus = true → b.answers.claimHead = true)
    (ha : (b.answers.xfers.take 1).all XferAnswer.isByte = true) :
    ∃ inp a, b.txn c (op :: rest) n = .halt
      { b.opened c with
        trace := (b.opened c).trace ++ [.xfer op inp]
        faults := [.asleepAccess]
        answers := a } := by
  have hd : (b.opened c).dev.dph = .wakeSel := by simp [devSelect, hg]
  have hhead := (Answers.isByte_head (a := (b.opened c).answers) (n := 0) (by simpa using ha)).1
  obtain ⟨inp, hx⟩ := Bus.doXfer_asleep c op (b := b.opened c) hf hd hhead
  refine ⟨inp, (b.opened c).answers.xferRest, ?_⟩
  rw [Bus.txn, Bus.openTxn_completes c b hc, Flow.andThen_done, Bus.exchangeAll, Bus.sendAll, hx]
  rfl

end Sys2Proof.Machine
end

section
/-! SUPPORT. The statements of raw frames, failures, hangs and faults, settled. -/

namespace Sys2Proof.Proofs

open Sys2Proof Sys2Proof.Machine

/-- Settles O22: a completed frame, after which a raw instruction writes nothing more. -/
theorem wireFramesRunTheirTransaction : Obligations.WireFramesRunTheirTransaction := by
  intro s i out n hw hf hr hg hc
  obtain ⟨r, b, h⟩ := exec_frameDone hr hg hf (passesGate_of_isWire hw s) hc
  obtain ⟨ev, htrace, hframe⟩ := h.trace
  have hne : i ≠ .hostInitialize := by rintro rfl; cases hw
  rw [preludeOf_of_ne hne, List.append_nil] at htrace
  refine ⟨_, r, ev, h.exec, h.length, ?_⟩
  rw [State.afterFrame_wire hw]
  exact ⟨htrace, hframe, ⟨rfl, rfl, rfl, rfl, rfl, h.faults⟩, rfl, h.released, by rw [h.dev]; rfl, by rw [h.dev]; rfl⟩

/-- Settles O23: the failed frame; GP is Asleep only where the device took a first byte SLEEP, and `sleep` writes it
itself. -/
theorem failedExchangeEndsTheFrame : Obligations.FailedExchangeEndsTheFrame := by
  intro s i out n j took hr hg hf hp hj hs
  obtain ⟨b, h⟩ := exec_frameFailed hr hg hf hp hj hs
  obtain ⟨ev, htrace, hfailed⟩ := h.trace
  obtain ⟨gp, hgp, hbus⟩ := s.afterFailure_bus_gp i b
  refine ⟨_, ev, h.exec, by rw [hbus]; exact htrace, hfailed, State.afterFailure_sameEngine h.faults i,
    by rw [hbus]; exact h.released, ?_, ?_, ?_, ?_⟩
  · cases hw : isWire i with
    | true => simp [State.afterFailure, hw]
    | false => simpa using State.afterFailure_result hw s b
  · rintro rfl
    rfl
  · rintro rfl
    cases hf
    have hj : j = 0 := by simpa using hj
    subst hj
    rw [State.afterFailure_bus _ _ _ (by decide), h.gp, hg]
    cases took <;> cases s.cfg.composed <;> rfl
  · intro hns hnw
    rw [State.afterFailure_bus _ _ _ hns, h.gp, if_neg]
    rintro ⟨-, hhead⟩
    obtain ⟨op, rest, rfl, -⟩ := frameOf_opcode hf
    rw [← head?_of_isPrefix (List.take_prefix _ _) hhead] at hf
    exact (frameOf_sleep hf).elim hnw hns

/-- Settles O24: both hangs leave SEQ Busy with no fault, and such an engine stays as it is. -/
theorem hangsStopTheEngine : Obligations.HangsStopTheEngine := by
  constructor
  · intro s i out n j took hr hg hf hp hj hs
    obtain ⟨b, ev, hexec, htrace, hhung, hfaults, hcs, hclaim⟩ := exec_frameHangs hr hg hf hp hj hs
    exact ⟨_, ev, hexec, htrace, hhung, rfl, hcs, hclaim, hfaults, rfl, rfl, rfl, rfl, rfl,
      step_hanging hr.2.2 hfaults (by simp)⟩
  · intro s i hr hg hp hs hc hi
    obtain ⟨a, hexec⟩ := exec_claimHangs hr hg hp hs hc hi
    exact ⟨_, hexec, rfl, rfl, rfl, rfl, rfl, rfl, hr.1, rfl, rfl, rfl, rfl, step_hanging hr.2.2 hr.1 (by simp)⟩

/-- Settles O25: the transaction stops in its first exchange, after the bracket's one or two events. -/
theorem rawFrameToASleepingDeviceFaults : Obligations.RawFrameToASleepingDeviceFaults := by
  intro s i hw hr hg hc
  obtain ⟨out, n, hf⟩ := isWire_hasFrame hw s.aw
  obtain ⟨op, rest, rfl, -⟩ := frameOf_opcode hf
  have hne : i ≠ .hostInitialize := by rintro rfl; cases hw
  obtain ⟨inp, a, htxn⟩ := Bus.txn_asleep op rest n hr.1 hg hc.1 hc.2
  have hexec := exec_frame i s _ _ hr (fun h => by rw [hw] at h; cases h) hf (passesGate_of_isWire hw s)
  rw [State.frameEnd, State.busAtFrame_of_ne hne, htxn] at hexec
  obtain ⟨-, -, -, hopen⟩ := opening_counts s.cfg
  refine ⟨_, hexec, rfl, rfl, ?_, rfl, by simp, by simp, by simp, rfl⟩
  simp only [eventsSince, Bus.opened_trace, List.length_append, hopen, List.length_singleton]
  congr 1
  split <;> omega

end Sys2Proof.Proofs
end

section
/-! SUPPORT. The statements of identification, control and memory access on a frame that completes, settled. -/

namespace Sys2Proof.Proofs

open Sys2Proof Sys2Proof.Machine

/-- Settles O26: a completed frame of RDID, its four bytes decoded. -/
theorem getDeviceIdReturnsTheDecodedId : Obligations.GetDeviceIdReturnsTheDecodedId := by
  intro s hr hg hc
  obtain ⟨r, b, h⟩ := exec_frameDone (i := .hostGetDeviceID) hr hg rfl (State.passesGate_of_early rfl) hc
  obtain ⟨a0, a1, a2, a3, rfl⟩ := four_bytes h.length
  obtain ⟨ev, htrace, hframe⟩ := h.trace_of_ne (by simp)
  exact ⟨_, a0, a1, a2, a3, ev, h.exec, ⟨rfl, hr.2.1⟩, htrace, hframe,
    State.afterFrame_sameEngine h.faults (by decide) _, h.released, h.sameDevice (by decide)⟩

/-- Settles O27: each byte of the response that the device drives is its ID's, whichever of the three asks. -/
theorem composedDeviceAnswersItsId : Obligations.ComposedDeviceAnswersItsId := by
  intro s i hr hg hc hcomp hf hp
  obtain ⟨r, b, h⟩ := exec_frameDone hr hg hf hp hc
  obtain ⟨a0, a1, a2, a3, rfl⟩ := four_bytes h.length
  obtain ⟨ev, htrace, hframe⟩ := h.trace
  refine ⟨_, a0, a1, a2, a3, ev, h.exec, ?_, hframe, fun k v hk hv => ?_, ?_, ?_, ?_⟩
  · rcases frameOf_id hf with rfl | rfl | rfl
    · exact htrace
    · rw [State.afterFrame_bus _ _ _ _ (by decide)]; exact htrace
    · exact htrace
  · exact h.received k hk v (by rw [← hv]; exact devMiso_id hcomp _ k)
  · rintro rfl
    exact ⟨rfl, hr.2.1⟩
  · rintro rfl
    exact s.afterFrame_initialize_matched b _
  · rintro rfl
    rfl

/-- Settles O28: the lookup of the four bytes decides which arm of R103 is taken. -/
theorem initializeConfiguresFromTheTable : Obligations.InitializeConfiguresFromTheTable := by
  intro s hr hg hb hc
  obtain ⟨r, b, h⟩ := exec_frameDone (i := .hostInitialize) hr hg rfl
    ⟨fun h => (by cases h), fun h => (by cases h), fun _ => hb⟩ hc
  obtain ⟨a0, a1, a2, a3, rfl⟩ := four_bytes h.length
  obtain ⟨ev, htrace, hframe⟩ := h.trace
  have hbus : (s.afterFrame .hostInitialize b [a0, a1, a2, a3]).bus = b := State.afterFrame_bus _ _ _ _ (by decide)
  have hreg := s.afterFrame_registers .hostInitialize b [a0, a1, a2, a3]
  have hseq : (s.afterFrame .hostInitialize b [a0, a1, a2, a3]).seq = .idle := by rw [State.afterFrame_seq]; exact hr.2.1
  refine ⟨_, a0, a1, a2, a3, ev, h.exec, by rw [hbus]; exact htrace, hframe, fun k d hl hd => ?_, fun hl => ?_, hreg.cfg,
    hreg.port, by rw [hbus, h.faults]; exact hr.1, by rw [hbus]; exact h.released,
    by rw [hbus]; exact h.sameDevice (by decide)⟩
  · rcases s.afterFrame_initialize b [a0, a1, a2, a3] with ⟨k', d', hl', hd', he⟩ | ⟨hl', -⟩
    · cases Option.some.inj (hl.symm.trans hl')
      cases Option.some.inj (hd.symm.trans hd')
      exact ⟨by rw [he], by rw [he], by rw [he], hseq⟩
    · cases hl.symm.trans hl'
  · rcases s.afterFrame_initialize b [a0, a1, a2, a3] with ⟨k', d', hl', -, -⟩ | ⟨-, he⟩
    · cases hl.symm.trans hl'
    · exact ⟨by rw [he], by rw [he], by rw [he], hseq⟩

/-- Settles O30: WREN and WRDI set and clear the latch of a composed device, and nothing else reaches the device. -/
theorem writeEnableSetsTheLatch : Obligations.WriteEnableSetsTheLatch := by
  intro s en hr hg hc
  obtain ⟨r, b, h⟩ := exec_frameDone (i := .hostWriteEnable en) hr hg rfl (State.passesGate_of_early rfl) hc
  obtain rfl := List.length_eq_zero_iff.mp h.length
  obtain ⟨ev, htrace, hframe⟩ := h.trace_of_ne (by simp)
  have hgp : b.gp = s.bus.gp := h.gp_of_ne (by cases en <;> decide)
  have hdev : b.dev = { s.bus.dev with
      wel := if s.cfg.composed then en else s.bus.dev.wel, dph := .idle, dwr := false } := by
    rw [h.dev]
    cases hcomp : s.cfg.composed with
    | false => exact devFrame_uncomposed hcomp _ _
    | true =>
      cases en with
      | false => exact devFrame_wrdi hcomp _
      | true => exact devFrame_wren hcomp _
  exact ⟨_, ev, h.exec, ⟨rfl, hr.2.1⟩, htrace, by cases en <;> exact hframe,
    State.afterFrame_sameEngine h.faults (by simp) _, h.released, (congrArg Device.wel hdev :),
    (congrArg Device.mem hdev :), (congrArg Device.sr hdev :), hgp⟩

/-- Settles O31: the byte received is the one the composed device drives in its status phase. -/
theorem getStatusRegisterReturnsTheByteReceived : Obligations.GetStatusRegisterReturnsTheByteReceived := by
  intro s hr hg hc
  obtain ⟨r, b, h⟩ := exec_frameDone (i := .hostGetStatusRegister) hr hg rfl (State.passesGate_of_early rfl) hc
  obtain ⟨v, rfl⟩ := List.length_eq_one_iff.mp h.length
  obtain ⟨ev, htrace, hframe⟩ := h.trace_of_ne (by simp)
  refine ⟨_, v, ev, h.exec, ⟨rfl, hr.2.1⟩, htrace, hframe, fun hcomp => ?_,
    State.afterFrame_sameEngine h.faults (by decide) _, h.released, h.sameDevice (by decide)⟩
  have hmiso : devMiso s.cfg (devAfter s.cfg s.bus.dev (wireBytes s.cfg [opRDSR] 0)) =
      some (srRead s.cfg s.bus.dev.sr s.bus.dev.wel) := by
    have hop : devOpcode s.cfg (devSelect .active s.bus.dev) opRDSR = { s.bus.dev with dph := .srOut, dwr := false } := rfl
    rw [wireBytes, List.singleton_append, devAfter_cons hcomp, hop]
    simp [devMiso, hcomp]
  exact Option.some.inj (h.received 0 Nat.one_pos _ hmiso)

/-- Settles O32: what WRSR makes of the status register and the latch, composed or not. -/
theorem setStatusRegisterWritesWhenHonoured : Obligations.SetStatusRegisterWritesWhenHonoured := by
  intro s v hr hg hc
  obtain ⟨r, b, h⟩ := exec_frameDone (i := .hostSetStatusRegister v) hr hg rfl (State.passesGate_of_early rfl) hc
  obtain rfl := List.length_eq_zero_iff.mp h.length
  obtain ⟨ev, htrace, hframe⟩ := h.trace_of_ne (by simp)
  have hgp : b.gp = s.bus.gp := h.gp_of_ne (by decide)
  have hdev : b.dev = { s.bus.dev with
      sr := if s.cfg.composed && (s.bus.dev.wel || !s.cfg.dev.wrsrNeedsWel) then srWrite s.cfg s.bus.dev.sr v
        else s.bus.dev.sr
      wel := if s.cfg.composed && s.cfg.dev.wrsrNeedsWel then false else s.bus.dev.wel
      dph := .idle
      dwr := false } := by
    rw [h.dev]
    cases hcomp : s.cfg.composed with
    | false => exact devFrame_uncomposed hcomp _ _
    | true => exact devFrame_wrsr hcomp _ v
  exact ⟨_, ev, h.exec, ⟨rfl, hr.2.1⟩, htrace, hframe,
    State.afterFrame_sameEngine h.faults (by simp) _, h.released, (congrArg Device.mem hdev :), hgp,
    (congrArg Device.sr hdev :), (congrArg Device.wel hdev :)⟩

end Sys2Proof.Proofs
end

section
/-! SUPPORT. What memory frames store and receive on the composed device, whole and cut short (R69 to R71, R181). -/

namespace Sys2Proof.Machine

/-- The array after a WRITE frame of the device's own width, read cell by cell (R71, R75). -/
theorem devFrame_writeData {c : Config} (hc : c.composed = true) (d : Device) {a : WireAddr}
    (hw : widthBytes a.width = devWidth c) (hm : d.mem.wf) (payload : List Byte) :
    (devDeselect c (devAfter c d (opWRITE :: (a.bytes ++ payload)))).mem.wf ∧
      ∀ x, (devDeselect c (devAfter c d (opWRITE :: (a.bytes ++ payload)))).mem.read x =
        if d.wel && writeAllowed c d.sr x then (storedByte c (firstCell c a) payload x).getD (d.mem.read x)
        else d.mem.read x := by
  have hread := fun x => storeAll_read c d.sr d.wel d.mem (firstCell c a) payload x hm (firstCell_lt c a)
  rw [devDeselect_mem, devAfter, devRun_writeFrame c d a payload hc hw]
  exact ⟨(hread 0).1, fun x => (hread x).2⟩

/-- A WRITE frame of which the device took no more than the opcode and its own number of address bytes has stored nothing
(R69). -/
theorem devFrame_writeAddress {c : Config} (hc : c.composed = true) (d : Device) {bytes : List Byte}
    (hl : bytes.length ≤ devWidth c) : (devAfter c d (opWRITE :: bytes)).mem = d.mem := by
  have hop : devOpcode c (devSelect .active d) opWRITE = { d with dph := .addr .write 0 0, dwr := d.wel } := rfl
  rw [devAfter_cons hc, hop]
  exact (devRun_address_mem c _ bytes 0 0 hc rfl (by omega)).1

/-- The byte the composed device drives after a READ frame's address, of its own width, and further bytes (R70). -/
theorem devMiso_readFrame {c : Config} (hc : c.composed = true) (d : Device) {a : WireAddr}
    (hw : widthBytes a.width = devWidth c) (bytes : List Byte) :
    devMiso c (devAfter c d (opREAD :: (a.bytes ++ bytes))) =
      some (d.mem.read (cellAfter c (firstCell c a) bytes.length)) := by
  rw [devAfter, devRun_readFrame c d a bytes hc hw]
  simp [devMiso, hc, Device.memRead]

/-- A list whose entries below its length are all known. -/
theorem eq_map_range {r : List Byte} {n : Nat} (f : Nat → Byte) (hl : r.length = n) (h : ∀ k < n, r[k]? = some (f k)) :
    r = (List.range n).map f := by
  apply List.ext_getElem?
  intro k
  by_cases hk : k < n
  · rw [h k hk]
    simp [hk]
  · rw [List.getElem?_eq_none (by omega), List.getElem?_eq_none (by simpa using hk)]

theorem cellAfter_zero (c : Config) {a : Nat} (ha : a < devSize c) : cellAfter c a 0 = a := Nat.mod_eq_of_lt ha

/-- What the read commands make of the bytes received (R113, R114). -/
theorem State.afterFrame_readBlock {s : State} {i : Instr} {b : Bus} {r : List Byte} (hr : s.Ready) (x count : Word)
    (hi : i = .hostReadBlock x count) : (s.afterFrame i b r).Returned .ok (.bytes r) := by
  subst hi
  exact ⟨rfl, hr.2.1⟩

theorem State.afterFrame_read8 {s : State} {i : Instr} {b : Bus} {r : List Byte} (hr : s.Ready) (x : Word) (v : Byte)
    (hi : i = .hostRead8 x) (hv : r.getD 0 0 = v) : (s.afterFrame i b r).Returned .ok (.byte v) := by
  subst hi hv
  exact ⟨rfl, hr.2.1⟩

/-- Only memory commands and raw frames send READ and WRITE: neither `initialize` nor `sleep` does (R82). -/
theorem ne_of_frameOf {aw : BitVec 2} {i : Instr} {op : Byte} {rest : List Byte} {n : Nat}
    (h : frameOf aw i = some (op :: rest, n)) (ho : op ∈ [opREAD, opWRITE]) :
    i ≠ .hostInitialize ∧ i ≠ .hostSleep := by
  constructor <;> rintro rfl <;> cases h <;> exact absurd ho (by decide)

end Sys2Proof.Machine
end

section
/-! SUPPORT. The statements of memory access, settled. -/

namespace Sys2Proof.Proofs

open Sys2Proof Sys2Proof.Machine

/-- A WRITE command of the host whose frame completes. -/
theorem writeCommand_completes {s : State} {i : Instr} {out : List Byte} (hr : s.Ready) (ha : s.aw ≠ 0)
    (hg : s.bus.gp = .active) (hm : isMemoryCommand i = true) (hf : frameOf s.aw i = some (opWRITE :: out, 0))
    (hres : ∀ b, (s.afterFrame i b []).Returned .ok .none) (hc : s.Completes ((opWRITE :: out).length + 0)) :
    ∃ t ev, exec i s = .next t ∧ t.Returned .ok .none ∧ t.bus.trace = s.bus.trace ++ ev ∧
      FrameTrace s.cfg (opWRITE :: out) [] ev ∧ s.SameEngine t ∧ Bus.Released s.cfg s.bus t.bus ∧
      t.bus.gp = s.bus.gp ∧ t.bus.dev.sr = s.bus.dev.sr ∧ (s.cfg.composed = false → Bus.SameDevice s.bus t.bus) := by
  obtain ⟨hni, hns⟩ := ne_of_frameOf hf (by decide)
  obtain ⟨r, b, h⟩ := exec_frameDone hr hg hf (memoryCommand_passesGate hm ha) hc
  obtain rfl := List.length_eq_zero_iff.mp h.length
  obtain ⟨ev, htrace, hframe⟩ := h.trace_of_ne hni
  have hbus := State.afterFrame_bus s i b [] hns
  have hsr : b.dev.sr = s.bus.dev.sr := by
    rw [h.dev]
    cases hcomp : s.cfg.composed with
    | false => rw [devFrame_uncomposed hcomp]
    | true => rw [wireBytes, List.cons_append, devFrame_write hcomp]
  refine ⟨_, ev, h.exec, hres b, ?_, hframe, State.afterFrame_sameEngine h.faults hni _, ?_⟩ <;> rw [hbus]
  · exact htrace
  · exact ⟨h.released, h.gp_of_ne (by decide), hsr, h.sameDevice_uncomposed⟩

/-- Settles O33: both commands send one WRITE frame, and neither looks at what the device makes of it. -/
theorem writeCommandsSendOneFrame : Obligations.WriteCommandsSendOneFrame := by
  intro s addr payload hr ha hg hc
  refine ⟨writeCommand_completes (i := .hostWriteBlock addr payload) hr ha hg rfl rfl (fun _ => ⟨rfl, hr.2.1⟩) ?_,
    fun v hv => writeCommand_completes (i := .hostWrite8 addr v) hr ha hg rfl rfl (fun _ => ⟨rfl, hr.2.1⟩) ?_⟩
  · convert hc using 1
    simp only [List.length_cons, List.length_append]
    omega
  · subst hv
    convert hc using 1
    simp only [List.length_cons, List.length_append, List.length_nil]
    omega

/-- A READ command of the host whose frame completes. -/
theorem readCommand_completes {s : State} {i : Instr} {out : List Byte} {n : Nat} (hr : s.Ready) (ha : s.aw ≠ 0)
    (hg : s.bus.gp = .active) (hm : isMemoryCommand i = true) (hf : frameOf s.aw i = some (opREAD :: out, n))
    (hc : s.Completes ((opREAD :: out).length + n)) :
    ∃ t r ev, exec i s = .next t ∧ r.length = n ∧ t = s.afterFrame i t.bus r ∧ t.bus.trace = s.bus.trace ++ ev ∧
      FrameTrace s.cfg (opREAD :: out) r ev ∧ s.SameEngine t ∧ Bus.Released s.cfg s.bus t.bus ∧
      Bus.SameDevice s.bus t.bus := by
  obtain ⟨hni, hns⟩ := ne_of_frameOf hf (by decide)
  obtain ⟨r, b, h⟩ := exec_frameDone hr hg hf (memoryCommand_passesGate hm ha) hc
  obtain ⟨ev, htrace, hframe⟩ := h.trace_of_ne hni
  have hbus := State.afterFrame_bus s i b r hns
  refine ⟨_, r, ev, h.exec, h.length, by rw [hbus], ?_, hframe, State.afterFrame_sameEngine h.faults hni _, ?_⟩ <;>
    rw [hbus]
  · exact htrace
  · exact ⟨h.released, h.sameDevice (by decide)⟩

/-- Settles O34: both commands send one READ frame and return what was received. -/
theorem readCommandsReturnTheBytesReceived : Obligations.ReadCommandsReturnTheBytesReceived := by
  intro s addr count hr ha hg hc
  refine ⟨?_, fun h1 => ?_⟩
  · obtain ⟨t, r, ev, hexec, hl, ht, hrest⟩ := readCommand_completes (i := .hostReadBlock addr count) hr ha hg rfl rfl (by
      convert hc using 1
      simp only [List.length_cons]
      omega)
    exact ⟨t, r, ev, hexec, hl, by rw [ht]; exact ⟨rfl, hr.2.1⟩, hrest⟩
  · obtain ⟨t, r, ev, hexec, hl, ht, hrest⟩ := readCommand_completes (i := .hostRead8 addr) hr ha hg rfl rfl (by
      subst h1
      have h1 : (1 : Word).toNat = 1 := rfl
      convert hc using 1
      simp only [List.length_cons, h1]
      omega)
    obtain ⟨v, rfl⟩ := List.length_eq_one_iff.mp hl
    exact ⟨t, v, ev, hexec, by rw [ht]; exact ⟨rfl, hr.2.1⟩, hrest⟩

/-- Settles O35: the device's own reading of the frame, and the latch cleared at DESELECT. -/
theorem writeFrameStoresItsPayload : Obligations.WriteFrameStoresItsPayload := by
  intro s i a payload hr hg hcomp hp hf hw hm hc
  obtain ⟨hni, hns⟩ := ne_of_frameOf hf (by decide)
  obtain ⟨r, b, h⟩ := exec_frameDone hr hg hf hp (by
    convert hc using 1
    simp only [List.length_cons, List.length_append]
    omega)
  have hdev : b.dev = devDeselect s.cfg (devAfter s.cfg s.bus.dev (opWRITE :: (a.bytes ++ payload))) := by
    rw [h.dev]
    simp [wireBytes, opWRITE]
  have hframe := devFrame_write hcomp s.bus.dev (a.bytes ++ payload)
  obtain ⟨hwf, hread⟩ := devFrame_writeData hcomp s.bus.dev hw hm payload
  refine ⟨_, h.exec, ?_⟩
  rw [State.afterFrame_bus s i b r hns, hdev]
  exact ⟨by rw [hframe], by rw [hframe], h.gp_of_ne (by decide), hwf, hread⟩

/-- Settles O36: no byte of the frame reaches the write data phase. -/
theorem shortWriteFrameStoresNothing : Obligations.ShortWriteFrameStoresNothing := by
  intro s i bytes hr hg hcomp hp hf hl hc
  obtain ⟨hni, hns⟩ := ne_of_frameOf hf (by decide)
  obtain ⟨r, b, h⟩ := exec_frameDone hr hg hf hp (by
    convert hc using 1
    simp only [List.length_cons]
    omega)
  have hdev : b.dev = devDeselect s.cfg (devAfter s.cfg s.bus.dev (opWRITE :: bytes)) := by
    rw [h.dev]
    simp [wireBytes, opWRITE]
  have hframe := devFrame_write hcomp s.bus.dev bytes
  refine ⟨_, h.exec, ?_⟩
  rw [State.afterFrame_bus s i b r hns, hdev, hframe]
  exact ⟨devFrame_writeAddress hcomp s.bus.dev hl.le, rfl, rfl, h.gp_of_ne (by decide)⟩

/-- Settles O37: what the device took of the frame is itself a WRITE frame with a shorter payload. -/
theorem failedWriteStoresAPrefix : Obligations.FailedWriteStoresAPrefix := by
  intro s i a payload j took hr hg hcomp hp hf hw hm hj hs
  obtain ⟨hni, hns⟩ := ne_of_frameOf hf (by decide)
  obtain ⟨b, h⟩ := exec_frameFailed hr hg hf hp (by simp only [List.length_cons, List.length_append]; omega) hs
  have htaken : (wireBytes s.cfg (opWRITE :: (a.bytes ++ payload)) 0).take
      (if took then 1 + a.bytes.length + j + 1 else 1 + a.bytes.length + j) =
      opWRITE :: (a.bytes ++ payload.take (if took then j + 1 else j)) := by
    have hk : (if took then 1 + a.bytes.length + j + 1 else 1 + a.bytes.length + j) =
        a.bytes.length + (if took then j + 1 else j) + 1 := by
      split <;> omega
    rw [hk]
    simp [wireBytes, List.take_append]
  have hdev := h.dev.trans (congrArg (fun bytes => devDeselect s.cfg (devAfter s.cfg s.bus.dev bytes)) htaken)
  have hframe := devFrame_write hcomp s.bus.dev (a.bytes ++ payload.take (if took then j + 1 else j))
  obtain ⟨-, hread⟩ := devFrame_writeData hcomp s.bus.dev hw hm (payload.take (if took then j + 1 else j))
  refine ⟨_, h.exec, ?_⟩
  rw [State.afterFailure_bus s i b hns, hdev]
  exact ⟨by rw [hframe], by rw [hframe], hread⟩

/-- Settles O38: the bytes received are those the device drives, one cell after another. -/
theorem readFrameReturnsTheArray : Obligations.ReadFrameReturnsTheArray := by
  intro s i a n hr hg hcomp hp hf hw hc
  obtain ⟨hni, hns⟩ := ne_of_frameOf hf (by decide)
  obtain ⟨r, b, h⟩ := exec_frameDone hr hg hf hp (by
    convert hc using 1
    simp only [List.length_cons]
    omega)
  obtain ⟨ev, htrace, hframe⟩ := h.trace_of_ne hni
  have hrecv : ∀ k < n, r[k]? = some (s.bus.dev.mem.read (cellAfter s.cfg (firstCell s.cfg a) k)) := fun k hk => by
    have hmiso := devMiso_readFrame hcomp s.bus.dev hw (List.replicate k s.cfg.fill)
    rw [List.length_replicate] at hmiso
    exact h.received k hk _ hmiso
  have hbytes := eq_map_range _ h.length hrecv
  rw [← hbytes]
  have hbus := State.afterFrame_bus s i b r hns
  refine ⟨_, ev, h.exec, by rw [hbus]; exact htrace, hframe, fun x c hi => State.afterFrame_readBlock hr x c hi,
    fun x hi => State.afterFrame_read8 hr x _ hi ?_, by rw [hbus]; exact h.sameDevice (by decide)⟩
  subst hi
  have hn : 1 = n := (Prod.mk.inj (Option.some.inj hf)).2
  have h0 := hrecv 0 (by omega)
  rw [cellAfter_zero _ (firstCell_lt _ _)] at h0
  simp [List.getD, h0]

/-- Settles O56: to a device of three the address and the first FILL byte are one address; to a device of two the last
address byte is a byte of the read data phase. -/
theorem readFrameOfAnotherWidthReturnsShiftedBytes : Obligations.ReadFrameOfAnotherWidthReturnsShiftedBytes := by
  constructor
  · intro s i a n hr hg hcomp hp hf hw hc
    obtain ⟨hni, hns⟩ := ne_of_frameOf hf (by decide)
    obtain ⟨r, b, h⟩ := exec_frameDone hr hg hf hp hc
    obtain ⟨ev, htrace, hframe⟩ := h.trace_of_ne hni
    have hbus := State.afterFrame_bus s i b r hns
    refine ⟨_, r, ev, h.exec, h.length, by rw [hbus]; exact htrace, hframe, fun k hk => h.received _ hk _ ?_,
      fun x c hi => State.afterFrame_readBlock hr x c hi,
      fun x v hi hv => State.afterFrame_read8 hr x v hi (by rw [hv]; rfl), by rw [hbus]; exact h.sameDevice (by decide)⟩
    have hbytes : wireBytes s.cfg (opREAD :: (WireAddr.two a).bytes) (k + 1) =
        opREAD :: ((WireAddr.three (a ++ s.cfg.fill)).bytes ++ List.replicate k s.cfg.fill) := by
      rw [← bytes_two_append, wireBytes, List.replicate_succ]
      simp
    have hmiso := devMiso_readFrame hcomp s.bus.dev (a := .three (a ++ s.cfg.fill)) hw.symm (List.replicate k s.cfg.fill)
    rw [List.length_replicate, ← hbytes] at hmiso
    exact hmiso
  · intro s i a n hr hg hcomp hp hf hw hc
    obtain ⟨hni, hns⟩ := ne_of_frameOf hf (by decide)
    obtain ⟨r, b, h⟩ := exec_frameDone hr hg hf hp hc
    obtain ⟨ev, htrace, hframe⟩ := h.trace_of_ne hni
    have hbus := State.afterFrame_bus s i b r hns
    refine ⟨_, r, ev, h.exec, by rw [hbus]; exact htrace, eq_map_range _ h.length fun k hk => h.received k hk _ ?_, hframe,
      fun x c hi => State.afterFrame_readBlock hr x c hi,
      fun x v hi hv => State.afterFrame_read8 hr x v hi (by rw [hv]; rfl), by rw [hbus]; exact h.sameDevice (by decide)⟩
    have hbytes : wireBytes s.cfg (opREAD :: (WireAddr.three a).bytes) k =
        opREAD :: ((WireAddr.two (a.extractLsb' 8 16)).bytes ++ (a.extractLsb' 0 8 :: List.replicate k s.cfg.fill)) := by
      rw [bytes_three_split, wireBytes]
      simp
    have hmiso := devMiso_readFrame hcomp s.bus.dev (a := .two (a.extractLsb' 8 16)) hw.symm
      (a.extractLsb' 0 8 :: List.replicate k s.cfg.fill)
    rw [List.length_cons, List.length_replicate, ← hbytes] at hmiso
    exact hmiso

end Sys2Proof.Proofs
end

section
/-! SUPPORT. Frames one after another: what a completed frame leaves for the next, and the round trip of a payload (R78). -/

namespace Sys2Proof.Machine

/-- The transport lets `k` transactions of `n` exchanges together complete (R56). -/
def State.CompletesAll (s : State) (k n : Nat) : Prop :=
  (s.cfg.sharedBus = true → (s.bus.answers.claims.take k).all id = true) ∧
    (s.bus.answers.xfers.take n).all XferAnswer.isByte = true

theorem all_take_split {α : Type} {p : α → Bool} {l : List α} {m n : Nat} (h : (l.take (m + n)).all p = true) :
    (l.take m).all p = true ∧ ((l.drop m).take n).all p = true := by
  rw [List.take_add, List.all_append, Bool.and_eq_true] at h
  exact h

theorem claims_head_tail {l : List Bool} {k : Nat} (h : (l.take (k + 1)).all id = true) :
    l.headD true = true ∧ (l.tail.take k).all id = true := by
  cases l with
  | nil => simp
  | cons x xs => simpa using h

/-- The first of several transactions completes. -/
theorem State.CompletesAll.completes {s : State} {k m n : Nat} (h : s.CompletesAll (k + 1) (m + n)) : s.Completes m :=
  ⟨fun hs => (claims_head_tail (h.1 hs)).1, (all_take_split h.2).1⟩

/-- The transport lets shorter transactions complete. -/
theorem State.Completes.mono {s : State} {m n : Nat} (h : s.Completes n) (hmn : m ≤ n) : s.Completes m := by
  obtain ⟨k, rfl⟩ := Nat.exists_eq_add_of_le hmn
  exact ⟨h.1, (all_take_split h.2).1⟩

/-- After the first of several transactions the others complete. -/
theorem State.FrameDone.completesAll {s : State} {i : Instr} {out r : List Byte} {n k m : Nat} {b : Bus}
    (h : s.FrameDone i out n r b) (hns : i ≠ .hostSleep) (hni : i ≠ .hostInitialize)
    (hc : s.CompletesAll (k + 1) (out.length + n + m)) : (s.afterFrame i b r).CompletesAll k m := by
  obtain ⟨hcfg, -⟩ := State.afterFrame_sameEngine h.faults hni r
  refine ⟨fun hs => ?_, ?_⟩
  · rw [hcfg] at hs
    rw [State.afterFrame_bus s i b r hns, h.claims, if_pos hs]
    exact (claims_head_tail (hc.1 hs)).2
  · rw [State.afterFrame_bus s i b r hns, h.xfers]
    exact (all_take_split hc.2).2

/-- After a completed frame the engine takes the next command. -/
theorem State.FrameDone.ready {s : State} {i : Instr} {out r : List Byte} {n : Nat} {b : Bus}
    (h : s.FrameDone i out n r b) (hr : s.Ready) (hni : i ≠ .hostInitialize) : (s.afterFrame i b r).Ready := by
  obtain ⟨hcfg, -, -, hseq, -, hfaults⟩ := State.afterFrame_sameEngine h.faults hni r
  exact ⟨hfaults.trans hr.1, hseq.trans hr.2.1, by rw [hcfg]; exact hr.2.2⟩

/-- A payload stored without wrapping is found byte by byte (R71). -/
theorem storedByte_noWrap {c : Config} {a : Nat} {payload : List Byte} (hfit : a + payload.length ≤ devSize c) {j : Nat}
    (hj : j < payload.length) : storedByte c a payload (cellAfter c a j) = payload[j]? := by
  have hcell : ∀ k < payload.length, cellAfter c a k = a + k := fun k hk => Nat.mod_eq_of_lt (by omega)
  unfold storedByte
  cases hfind : (List.range payload.length).reverse.find? fun k => cellAfter c a k == cellAfter c a j with
  | none => exact absurd (List.find?_eq_none.mp hfind j (by simpa using hj)) (by simp)
  | some k =>
    have hk : k < payload.length := by simpa using List.mem_of_find?_eq_some hfind
    have heq : cellAfter c a k = cellAfter c a j := by simpa using List.find?_some hfind
    rw [hcell k hk, hcell j hj] at heq
    obtain rfl : k = j := by omega
    rfl

/-- A payload stored by an honoured WRITE frame, every cell writable and none wrapped to, is read back byte by byte. -/
theorem devFrame_writeData_noWrap {c : Config} (hc : c.composed = true) {d : Device} {a : WireAddr}
    (hw : widthBytes a.width = devWidth c) (hm : d.mem.wf) (hwel : d.wel = true) {payload : List Byte}
    (hfit : firstCell c a + payload.length ≤ devSize c)
    (hallowed : ∀ j < payload.length, writeAllowed c d.sr (cellAfter c (firstCell c a) j) = true) :
    (List.range payload.length).map (fun j =>
      (devDeselect c (devAfter c d (opWRITE :: (a.bytes ++ payload)))).mem.read (cellAfter c (firstCell c a) j)) =
      payload := by
  refine (eq_map_range _ rfl fun j hj => ?_).symm
  rw [(devFrame_writeData hc d hw hm payload).2, hwel, hallowed j hj, storedByte_noWrap hfit hj]
  simp [hj]

theorem wireAddr_width {aw : BitVec 2} (haw : aw = 2 ∨ aw = 3) (addr : Word) :
    widthBytes (wireAddr addr aw).width = aw.toNat := by
  rcases haw with rfl | rfl <;> rfl

theorem addrBytes_length {aw : BitVec 2} (haw : aw = 2 ∨ aw = 3) (addr : Word) :
    (addrBytes addr aw).length = aw.toNat := by
  rcases haw with rfl | rfl <;> rfl

end Sys2Proof.Machine
end

section
/-! SUPPORT. The statements of the round trip, of power and of the raw frames, settled. -/

namespace Sys2Proof.Proofs

open Sys2Proof Sys2Proof.Machine

/-- Settles O39: the latch set, the payload stored, the same cells read, each command handing the transport's remaining
answers on. -/
theorem roundTripReturnsTheBytes : Obligations.RoundTripReturnsTheBytes := by
  intro s addr payload hr hg hcomp haw hwidth hm hlen hfit hallowed hclaims hxfers
  have haddr := addrBytes_length haw addr
  have hw : widthBytes (wireAddr addr s.aw).width = devWidth s.cfg := (wireAddr_width haw addr).trans hwidth.symm
  have hne : s.aw ≠ 0 := by rcases haw with h | h <;> rw [h] <;> decide
  have hcount : (BitVec.ofNat 32 payload.length).toNat = payload.length := by
    rw [BitVec.toNat_ofNat]
    exact Nat.mod_eq_of_lt hlen
  have hsplit : 1 + 2 * (1 + s.aw.toNat + payload.length) =
      [opWREN].length + 0 + ((opWRITE :: (addrBytes addr s.aw ++ payload)).length + 0 +
        ((opREAD :: addrBytes addr s.aw).length + payload.length)) := by
    simp only [List.length_cons, List.length_append, List.length_nil, haddr]
    omega
  rw [hsplit] at hxfers
  have hall : s.CompletesAll 3 _ := ⟨hclaims, hxfers⟩
  -- `writeEnable true`
  obtain ⟨r1, b1, h1⟩ := exec_frameDone (i := .hostWriteEnable true) hr hg rfl (State.passesGate_of_early rfl)
    hall.completes
  have hdev1 : b1.dev = { s.bus.dev with wel := true, dph := .idle, dwr := false } :=
    h1.dev.trans (devFrame_wren hcomp s.bus.dev)
  have hr1 := h1.ready hr (by decide)
  have hg1 : b1.gp = .active := (h1.gp_of_ne (by decide)).trans hg
  have hall1 := h1.completesAll (by decide) (by decide) hall
  -- `writeBlock`
  obtain ⟨r2, b2, h2⟩ := exec_frameDone (i := .hostWriteBlock addr payload) hr1 hg1 rfl (memoryCommand_passesGate rfl hne)
    hall1.completes
  have hr2 := h2.ready hr1 (by simp)
  have hg2 : b2.gp = .active := (h2.gp_of_ne (by decide)).trans hg1
  have hall2 := h2.completesAll (by simp) (by simp) hall1
  have hdev2 : b2.dev = devDeselect s.cfg (devAfter s.cfg b1.dev
      (opWRITE :: ((wireAddr addr s.aw).bytes ++ payload))) := h2.dev.trans (by simp [wireBytes, addrBytes]; rfl)
  have hbytes := devFrame_writeData_noWrap hcomp hw (d := b1.dev) (by rw [hdev1]; exact hm) (by rw [hdev1]) hfit
    (by rw [hdev1]; exact hallowed)
  rw [← hdev2] at hbytes
  -- `readBlock`
  have hlength : 1 + (wireAddr addr s.aw).bytes.length + payload.length =
      (opREAD :: addrBytes addr s.aw).length + payload.length := by
    rw [List.length_cons, addrBytes, Nat.add_comm 1]
  obtain ⟨v, ev, hexec, -, -, hret, -⟩ := readFrameReturnsTheArray _ (.hostReadBlock addr (BitVec.ofNat 32 payload.length))
    (wireAddr addr s.aw) payload.length hr2 hg2 hcomp (memoryCommand_passesGate rfl hne)
    (congrArg (fun n => some (opREAD :: (wireAddr addr s.aw).bytes, n)) hcount) hw
    (by rw [hlength]; exact hall2.completes (n := 0))
  refine ⟨_, _, v, h1.exec, h2.exec, hexec, ⟨rfl, hr.2.1⟩, ⟨rfl, hr.2.1⟩, ?_⟩
  have hv := hret addr _ rfl
  exact hbytes ▸ hv

/-- Settles O40: the SLEEP frame, and the GP that `sleep` writes after it. -/
theorem sleepPutsThePartToSleep : Obligations.SleepPutsThePartToSleep := by
  intro s hr hcan hg hc
  obtain ⟨r, b, h⟩ := exec_frameDone (i := .hostSleep) hr hg rfl
    ⟨fun h => (by cases h), fun _ => hcan, fun h => (by cases h)⟩ hc
  obtain rfl := List.length_eq_zero_iff.mp h.length
  obtain ⟨ev, htrace, hframe⟩ := h.trace_of_ne (by decide)
  have hdev := h.dev.trans (devFrame_reads s.cfg s.bus.dev (op := opSLEEP) (by decide) _)
  exact ⟨_, ev, h.exec, ⟨rfl, hr.2.1⟩, rfl, htrace, hframe, State.afterFrame_sameEngine h.faults (by decide) _, h.released,
    (congrArg Device.mem hdev :), (congrArg Device.wel hdev :), (congrArg Device.sr hdev :)⟩

/-- Settles O41: each frame's own effect at DESELECT. -/
theorem rawFramesReachTheDevice : Obligations.RawFramesReachTheDevice := by
  intro s hr hg hcomp hc
  have hdone : ∀ {i : Instr} {out n}, isWire i = true → frameOf s.aw i = some (out, n) → out.length + n ≤ 5 →
      ∃ r b, s.FrameDone i out n r b := fun hw hf hl =>
    exec_frameDone hr hg hf (passesGate_of_isWire hw s) (hc.mono hl)
  refine ⟨?_, ?_, ?_, ?_, ?_, fun v => ?_⟩
  · obtain ⟨r, b, h⟩ := hdone (i := .wireSleep) rfl rfl (by decide)
    have hdev := h.dev.trans (devFrame_reads s.cfg s.bus.dev (op := opSLEEP) (by decide) _)
    exact ⟨_, h.exec, h.gp.trans (if_pos ⟨hcomp, rfl⟩), (congrArg Device.mem hdev :), (congrArg Device.wel hdev :),
      (congrArg Device.sr hdev :)⟩
  · obtain ⟨r, b, h⟩ := hdone (i := .wireWren) rfl rfl (by decide)
    have hdev := h.dev.trans (devFrame_wren hcomp s.bus.dev)
    exact ⟨_, h.exec, (congrArg Device.wel hdev :), (congrArg Device.mem hdev :), (congrArg Device.sr hdev :),
      h.gp_of_ne (by decide)⟩
  · obtain ⟨r, b, h⟩ := hdone (i := .wireWrdi) rfl rfl (by decide)
    have hdev := h.dev.trans (devFrame_wrdi hcomp s.bus.dev)
    exact ⟨_, h.exec, (congrArg Device.wel hdev :), (congrArg Device.mem hdev :), (congrArg Device.sr hdev :),
      h.gp_of_ne (by decide)⟩
  · obtain ⟨r, b, h⟩ := hdone (i := .wireRdsr) rfl rfl (by decide)
    exact ⟨_, h.exec, h.sameDevice (by decide)⟩
  · obtain ⟨r, b, h⟩ := hdone (i := .wireRdid) rfl rfl (by decide)
    exact ⟨_, h.exec, h.sameDevice (by decide)⟩
  · obtain ⟨r, b, h⟩ := hdone (i := .wireWrsr v) rfl rfl (by simp)
    have hdev := h.dev.trans (devFrame_wrsr hcomp s.bus.dev v)
    exact ⟨_, h.exec, (congrArg Device.mem hdev :), h.gp_of_ne (by decide), (congrArg Device.sr hdev :),
      (congrArg Device.wel hdev :)⟩

/-- Settles O42: the claim returned, the sequence of `wake` ends. -/
theorem wakeRunsItsTimedSequence : Obligations.WakeRunsItsTimedSequence := by
  intro s d hr hd hsleep hc
  have hexec := exec_wake s d hr hd hsleep
  rw [State.wakeEnd, Bus.wakeSequence_completes _ hc] at hexec
  have hdev := Bus.awoken_dev s.cfg (extWake s.cfg d) s.bus
  exact ⟨_, hexec, ⟨rfl, hr.2.1⟩, rfl, Bus.awoken_trace _ _ _, ⟨rfl, rfl, rfl, rfl, rfl, Bus.awoken_faults _ _ _⟩,
    Bus.awoken_released _ _ _, (congrArg Device.dph hdev :), (congrArg Device.dwr hdev :), (congrArg Device.mem hdev :),
    (congrArg Device.wel hdev :), (congrArg Device.sr hdev :)⟩

/-- The delays of the sequence of `wake` (R134). -/
theorem delaySum_awoken (c : Config) (extra : Bool) :
    delaySum (bracket c [.delay 300] ++ ([Event.delay 100] ++ if extra then [Event.delay 50] else [])) =
      if extra then 450 else 400 := by
  unfold bracket
  cases c.sharedBus <;> cases extra <;> rfl

/-- Settles O43: a `wake` that returned Ok has run its whole sequence. -/
theorem wakeDelaysSumTo450Or400 : Obligations.WakeDelaysSumTo450Or400 := by
  rintro s t d ev h hd ⟨hres, hseq⟩ htrace
  cases exec_returned rfl h hseq with
  | early code aw hearly ht =>
    rw [ht] at hres
    cases hres
    simp only [State.earlyReturn] at hearly
    split at hearly <;> cases hearly
  | failed _ _ _ _ _ hframe _ _ => cases hframe
  | completed _ _ _ _ _ _ hframe _ _ => cases hframe
  | woke d' _ _ hd' ht =>
    cases Option.some.inj (hd.symm.trans hd')
    have hev : t.bus.trace = s.bus.trace ++ (bracket s.cfg [.delay 300] ++ ([Event.delay 100] ++
        if extWake s.cfg d then [Event.delay 50] else [])) := by
      rw [ht]
      simp only [Bus.awoken_trace, List.append_assoc]
    rw [List.append_cancel_left (htrace.symm.trans hev), delaySum_awoken]

end Sys2Proof.Proofs
end

section
/-! SUPPORT. The causes of the result codes read off a command that returned, and the device after a frame that failed. -/

namespace Sys2Proof.Machine

/-! ## Codes and their causes (R140) -/

/-- The code of an early return is the code returned. -/
theorem CommandEnd.code_of_early {i : Instr} {s t : State} {code : ResultCode} {data : ResultData} (h : CommandEnd i s t)
    (hres : t.result = some { code := code, data := data }) {code' : ResultCode} {aw : BitVec 2}
    (he : s.earlyReturn i = some (code', aw)) : code = code' := by
  cases h with
  | early code'' aw' hearly ht =>
    rw [ht] at hres
    cases hres
    cases hearly.symm.trans he
    rfl
  | failed _ _ _ hearly _ _ _ _ => cases hearly.symm.trans he
  | completed _ _ _ _ hearly _ _ _ _ => cases hearly.symm.trans he
  | woke _ _ hearly _ _ => cases hearly.symm.trans he

/-- A code that no frame and no `wake` makes a command return comes from an early return. -/
theorem CommandEnd.code_iff_early {i : Instr} {s t : State} {code : ResultCode} {data : ResultData} (h : CommandEnd i s t)
    (hw : isWire i = false) (hres : t.result = some { code := code, data := data }) {code' : ResultCode}
    (h1 : code' ≠ .ok) (h2 : code' ≠ .transferFailed) (h3 : code' ≠ .unsupportedDevice) :
    code = code' ↔ ∃ aw, s.earlyReturn i = some (code', aw) := by
  refine ⟨?_, fun ⟨aw, he⟩ => h.code_of_early hres he⟩
  rintro rfl
  cases h with
  | early code' aw hearly ht =>
    rw [ht] at hres
    cases hres
    exact ⟨aw, hearly⟩
  | failed _ _ b _ _ _ _ ht =>
    rw [ht, State.afterFailure_result hw] at hres
    cases hres
    exact absurd rfl h2
  | completed _ _ r b _ _ _ _ ht =>
    rw [ht] at hres
    rcases State.afterFrame_result hw s b r with ⟨_, hr, -⟩ | ⟨-, -, hr, -⟩ <;> rw [hr] at hres <;> cases hres
    · exact absurd rfl h1
    · exact absurd rfl h3
  | woke _ _ _ _ ht =>
    rw [ht] at hres
    cases hres
    exact absurd rfl h1

/-- `TransferFailed` is returned exactly where TRACE shows a failed exchange (R140). -/
theorem CommandEnd.transferFailed_iff {i : Instr} {s t : State} {code : ResultCode} {data : ResultData}
    (h : CommandEnd i s t) (hw : isWire i = false) (hres : t.result = some { code := code, data := data }) :
    code = .transferFailed ↔
      (frameOf s.aw i).isSome = true ∧ ∃ ev o, t.bus.trace = s.bus.trace ++ ev ∧ Event.xferFail o ∈ ev := by
  obtain ⟨ev0, ht0, -, -, -, hno0⟩ := s.busAtFrame_trace i
  cases h with
  | early code' aw hearly ht =>
    rw [ht] at hres ⊢
    cases hres
    refine ⟨fun hc => absurd (hc ▸ hearly) State.early_ne_transferFailed, fun ⟨_, ev, o, htrace, ho⟩ => ?_⟩
    cases List.append_cancel_left (ht0.symm.trans htrace)
    exact absurd ho (hno0 o)
  | failed out n b _ _ hframe htxn ht =>
    obtain ⟨ev, htr, o, ho⟩ := Bus.txn_trace htxn
    rw [ht, State.afterFailure_result hw] at hres
    cases hres
    refine ⟨fun _ => ⟨by rw [hframe]; rfl, ev0 ++ ev, o, ?_, List.mem_append_right _ ho⟩, fun _ => rfl⟩
    rw [ht, State.afterFailure_trace, htr, ht0, List.append_assoc]
  | completed out n r b _ _ hframe htxn ht =>
    obtain ⟨ev, htr, hframeTrace⟩ := Bus.txn_trace htxn
    rw [ht] at hres
    refine ⟨fun hc => ?_, fun ⟨_, ev', o, htrace, ho⟩ => ?_⟩
    · subst hc
      rcases State.afterFrame_result hw s b r with ⟨_, hr, -⟩ | ⟨-, -, hr, -⟩ <;> rw [hr] at hres <;> cases hres
    · rw [ht, State.afterFrame_trace, htr, ht0, List.append_assoc] at htrace
      cases List.append_cancel_left htrace
      exact ((List.mem_append.mp ho).elim (hno0 o) (hframeTrace.no_fail o)).elim
  | woke _ hi _ _ ht =>
    subst hi
    rw [ht] at hres
    cases hres
    exact ⟨fun h => (by cases h), fun h => (by cases h.1)⟩

/-- `UnsupportedDevice` is returned exactly by `initialize` for an ID received that is not in TABLE, and by a memory
command with AW = 0 (R103, R110). -/
theorem CommandEnd.unsupportedDevice_iff {i : Instr} {s t : State} {code : ResultCode} {data : ResultData}
    (h : CommandEnd i s t) (hw : isWire i = false) (hres : t.result = some { code := code, data := data }) :
    code = .unsupportedDevice ↔
      (i = .hostInitialize ∧ ∃ a0 a1 a2 a3 ev, t.bus.trace = s.bus.trace ++ [.tbegin true] ++ ev ∧
        FrameTrace s.cfg [opRDID] [a0, a1, a2, a3] ev ∧
        lookup s.cfg (decodeID a0 a1 a2 a3).1 (decodeID a0 a1 a2 a3).2 = none) ∨
      (isMemoryCommand i = true ∧ s.aw = 0) := by
  constructor
  · rintro rfl
    cases h with
    | early code' aw hearly ht =>
      rw [ht] at hres
      cases hres
      exact .inr (State.early_unsupportedDevice_iff.mp ⟨aw, hearly⟩)
    | failed _ _ b _ _ _ _ ht =>
      rw [ht, State.afterFailure_result hw] at hres
      cases hres
    | completed out n r b hearly _ hframe htxn ht =>
      rw [ht] at hres
      rcases State.afterFrame_result hw s b r with ⟨_, hr, -⟩ | ⟨hi, hl, -⟩
      · rw [hr] at hres
        cases hres
      · subst hi
        cases hframe
        obtain ⟨a0, a1, a2, a3, rfl⟩ := four_bytes (Bus.txn_length htxn)
        obtain ⟨ev, htr, hframeTrace⟩ := Bus.txn_trace htxn
        refine .inl ⟨rfl, a0, a1, a2, a3, ev, ?_, hframeTrace, hl⟩
        rw [ht, State.afterFrame_trace, htr, s.busAtFrame_eq _ (State.passesGate_of_early hearly)]
        rfl
    | woke _ _ _ _ ht =>
      rw [ht] at hres
      cases hres
  · rintro (⟨rfl, a0, a1, a2, a3, ev, htrace, hframeTrace, hl⟩ | hcause)
    · cases h with
      | early code' aw hearly ht =>
        rw [ht, State.busAtFrame, if_pos rfl, Bus.tbegin, List.append_assoc] at htrace
        have hbegin := List.append_cancel_left htrace
        simp only [State.earlyReturn] at hearly
        split at hearly
        · cases hearly
        next hb => simp [hb] at hbegin
      | failed out n b hearly _ hframe htxn ht =>
        obtain ⟨ev', htr, o, ho⟩ := Bus.txn_trace htxn
        rw [ht, State.afterFailure_trace, htr, s.busAtFrame_eq _ (State.passesGate_of_early hearly)] at htrace
        cases List.append_cancel_left htrace
        exact absurd ho (hframeTrace.no_fail o)
      | completed out n r b hearly _ hframe htxn ht =>
        obtain ⟨ev', htr, hframeTrace'⟩ := Bus.txn_trace htxn
        rw [ht, State.afterFrame_trace, htr, s.busAtFrame_eq _ (State.passesGate_of_early hearly)] at htrace
        cases List.append_cancel_left htrace
        cases hframe
        cases FrameTrace.received_eq hframeTrace' hframeTrace
        rw [ht] at hres
        rcases State.afterFrame_result hw s b [a0, a1, a2, a3] with ⟨_, -, hne⟩ | ⟨-, -, hr, -⟩
        · exact absurd hl (hne rfl)
        · rw [hr] at hres
          cases hres
          rfl
      | woke _ hi _ _ _ => cases hi
    · obtain ⟨aw, he⟩ := State.early_unsupportedDevice_iff.mpr hcause
      exact h.code_of_early hres he

/-! ## The device after a frame that failed -/

/-- A device that took no byte is as before (R67, R75). -/
theorem devFrame_nil (c : Config) (d : Device) :
    devDeselect c (devAfter c d []) = { d with dph := .idle, dwr := false } := devDeselect_devSelect c .active d

/-- A frame that sends no FILL is its bytes out. -/
theorem wireBytes_zero (c : Config) (out : List Byte) : wireBytes c out 0 = out := by simp [wireBytes]

/-- What the device took of a frame of one byte that failed. -/
theorem taken_singleton (c : Config) (op : Byte) (took : Bool) :
    (wireBytes c [op] 0).take (if took then 0 + 1 else 0) = if took then [op] else [] := by
  rw [wireBytes_zero]
  cases took <;> rfl

/-- WREN, taken or not (R75, D38). -/
theorem devFrame_wren_taken {c : Config} (hc : c.composed = true) (d : Device) (took : Bool) :
    devDeselect c (devAfter c d (if took then [opWREN] else [])) =
      { d with wel := took || d.wel, dph := .idle, dwr := false } := by
  cases took with
  | false => exact devFrame_nil c d
  | true => exact devFrame_wren hc d

/-- WRDI, taken or not (R75, D38). -/
theorem devFrame_wrdi_taken {c : Config} (hc : c.composed = true) (d : Device) (took : Bool) :
    devDeselect c (devAfter c d (if took then [opWRDI] else [])) =
      { d with wel := !took && d.wel, dph := .idle, dwr := false } := by
  cases took with
  | false => exact devFrame_nil c d
  | true => exact devFrame_wrdi hc d

/-- WRSR cut before its second byte writes nothing (R68, R75). -/
theorem devFrame_wrsr_cut {c : Config} (hc : c.composed = true) (d : Device) :
    devDeselect c (devAfter c d [opWRSR]) = { d with dph := .idle, dwr := false } := by
  rw [devAfter_cons hc]
  rfl

/-- WRSR failing at either byte: only a second byte taken completes it (R68, R75, D38). -/
theorem devFrame_wrsr_taken {c : Config} (hc : c.composed = true) (d : Device) (v : Byte) {j : Nat} (hj : j < 2)
    (took : Bool) :
    devDeselect c (devAfter c d ([opWRSR, v].take (if took then j + 1 else j))) =
      { d with
        sr := if j = 1 ∧ took = true ∧ (d.wel || !c.dev.wrsrNeedsWel) = true then srWrite c d.sr v else d.sr
        wel := if j = 1 ∧ took = true ∧ c.dev.wrsrNeedsWel = true then false else d.wel
        dph := .idle
        dwr := false } := by
  obtain rfl | rfl : j = 0 ∨ j = 1 := by omega
  · cases took with
    | false => exact devFrame_nil c d
    | true => exact devFrame_wrsr_cut hc d
  · cases took with
    | false => exact devFrame_wrsr_cut hc d
    | true => simpa using devFrame_wrsr hc d v

/-- The frames that write have no response (R82). -/
theorem frameOf_noResponse {aw : BitVec 2} {i : Instr} {op : Byte} {rest : List Byte} {n : Nat}
    (h : frameOf aw i = some (op :: rest, n)) (ho : op ∈ [opWREN, opWRDI, opWRSR, opWRITE]) : n = 0 := by
  cases i <;> simp only [frameOf, Option.some.injEq, Prod.mk.injEq, reduceCtorEq] at h <;> obtain ⟨hout, rfl⟩ := h
  case wireRdsr | wireRead | wireRdid | hostInitialize | hostRead8 | hostReadBlock | hostGetDeviceID
      | hostGetStatusRegister =>
    cases hout
    exact absurd ho (by decide)
  all_goals rfl

/-- Of a frame that failed, the device took nothing or its opcode and some of the bytes after it. -/
theorem taken_cases (c : Config) (op : Byte) (rest : List Byte) (n j : Nat) (took : Bool) :
    (j = 0 ∧ took = false ∧ (wireBytes c (op :: rest) n).take (if took then j + 1 else j) = []) ∨
      ¬(j = 0 ∧ took = false) ∧ ∃ tail, (wireBytes c (op :: rest) n).take (if took then j + 1 else j) = op :: tail ∧
        tail.length + 1 ≤ if took then j + 1 else j := by
  cases took with
  | true =>
    refine .inr ⟨by simp, (wireBytes c rest n).take j, ?_, ?_⟩
    · simp [wireBytes]
    · simp
  | false =>
    cases j with
    | zero => exact .inl ⟨rfl, rfl, rfl⟩
    | succ j =>
      refine .inr ⟨by simp, (wireBytes c rest n).take j, ?_, ?_⟩
      · simp [wireBytes]
      · simp

end Sys2Proof.Machine
end

section
/-! SUPPORT. The statements of the result codes and of the device after a failed exchange, settled. -/

namespace Sys2Proof.Proofs

open Sys2Proof Sys2Proof.Machine

/-- Settles O47: four codes come from early returns alone, the other two can be read off TRACE as well. -/
theorem resultCodesComeFromTheirCommands : Obligations.ResultCodesComeFromTheirCommands := by
  rintro i s t code data hw h ⟨hres, hseq⟩
  have hend := exec_returned hw h hseq
  exact ⟨(hend.code_iff_early hw hres (by decide) (by decide) (by decide)).trans State.early_busUnavailable_iff,
    hend.unsupportedDevice_iff hw hres,
    (hend.code_iff_early hw hres (by decide) (by decide) (by decide)).trans State.early_notSupported_iff,
    hend.transferFailed_iff hw hres,
    (hend.code_iff_early hw hres (by decide) (by decide) (by decide)).trans State.early_invalidWidth_iff,
    (hend.code_iff_early hw hres (by decide) (by decide) (by decide)).trans State.early_illegalCommand_iff⟩

/-- Settles O55: the DESELECT after the failure completes the frame the device took, whole or cut. -/
theorem failedExchangeLeavesTheDeviceAsTaken : Obligations.FailedExchangeLeavesTheDeviceAsTaken := by
  intro s i out n j took hr hg hf hp hj hs
  obtain ⟨b, h⟩ := exec_frameFailed hr hg hf hp hj hs
  have hdev := (State.afterFailure_dev s i b).trans h.dev
  refine ⟨_, h.exec, by rw [hdev]; rfl, by rw [hdev]; rfl, fun hcomp => ?_, fun hcomp => ⟨?_, ?_, ?_, ?_, ?_⟩⟩
  · rw [hdev, devFrame_uncomposed hcomp]
    exact ⟨rfl, rfl, rfl⟩
  · intro op hop hhead
    obtain ⟨rest, rfl⟩ := List.head?_eq_some_iff.mp hhead
    rcases taken_cases s.cfg op rest n j took with ⟨-, -, ht⟩ | ⟨-, tail, ht, -⟩ <;> rw [hdev, ht]
    · rw [devFrame_nil]
      exact ⟨rfl, rfl, rfl⟩
    · rw [devFrame_reads s.cfg s.bus.dev hop]
      exact ⟨rfl, rfl, rfl⟩
  · rintro rfl
    obtain rfl := frameOf_noResponse hf (by decide)
    obtain rfl : j = 0 := by simpa using hj
    rw [hdev, taken_singleton]
    have hframe := devFrame_wren_taken hcomp s.bus.dev took
    exact ⟨(congrArg Device.mem hframe :), (congrArg Device.wel hframe :), (congrArg Device.sr hframe :)⟩
  · rintro rfl
    obtain rfl := frameOf_noResponse hf (by decide)
    obtain rfl : j = 0 := by simpa using hj
    rw [hdev, taken_singleton]
    have hframe := devFrame_wrdi_taken hcomp s.bus.dev took
    exact ⟨(congrArg Device.mem hframe :), (congrArg Device.wel hframe :), (congrArg Device.sr hframe :)⟩
  · rintro v rfl
    obtain rfl := frameOf_noResponse hf (by decide)
    rw [hdev, wireBytes_zero]
    have hframe := devFrame_wrsr_taken hcomp s.bus.dev v (by simpa using hj) took
    exact ⟨(congrArg Device.mem hframe :), (congrArg Device.sr hframe :), (congrArg Device.wel hframe :)⟩
  · intro hhead
    obtain ⟨rest, rfl⟩ := List.head?_eq_some_iff.mp hhead
    rcases taken_cases s.cfg opWRITE rest n j took with ⟨hj0, htook, ht⟩ | ⟨hcut, tail, ht, hl⟩
    · rw [hdev, show (0x02 : Byte) = opWRITE from rfl, ht, devFrame_nil, if_pos ⟨hj0, htook⟩]
      exact ⟨rfl, rfl, fun _ => rfl⟩
    · rw [hdev, show (0x02 : Byte) = opWRITE from rfl, ht, devFrame_write hcomp, if_neg hcut]
      exact ⟨rfl, rfl, fun htaken => devFrame_writeAddress hcomp _ (by omega)⟩

end Sys2Proof.Proofs
end
